-- ==== Sys2Proof/Word.lean ====
section
/-! DEFINITION. The widths of the kcomp RC257 block: the words its registers, ports and tables are made of
(10_state.md R21, R22, R30, R32; 30_encoding.md R70). -/

namespace Sys2Proof

/-- One byte of the byte source or the byte sink (20_memory.md R50). -/
abbrev Byte := BitVec 8

/-- A 16-bit result register, slot count, slot total or Fenwick node (10_state.md R22, R30). -/
abbrev Half := BitVec 16

/-- A 32-bit coder register, or the data of the register read port (10_state.md R25, R36). -/
abbrev Word := BitVec 32

/-- A command word (30_encoding.md R70). -/
abbrev CmdWord := BitVec 64

/-- The exclusion mask; bit `i` is `EXCL[i]` (10_state.md R32). -/
abbrev ExclMask := BitVec 256

/-- The 257 counts of a slot, or its 257 Fenwick nodes (10_state.md R30). -/
abbrev Table := Vector Half 257

end Sys2Proof
end

