-- ==== Sys2Proof/Syntax.lean ====
section
/-! DEFINITION. The 24 commands of the block, one constructor for each row of the opcode map (30_encoding.md R76).
Every operand field is an unsigned integer taken as is (R75), so an operand is a natural number; which numbers fit
their fields is what `WellFormed` says. The S-form (R74) is an operand form of its own. -/

namespace Sys2Proof

/-- The interval operands of `RC_ENC` and `RC_DEC` (30_encoding.md R74, 41_range_coder.md R100). -/
inductive IvOperand where
  /-- `S = 0`: `LO`, `HI` and `TOT` from the word. -/
  | imm (lo hi tot : Nat)
  /-- `S = 1`: `R_LO`, `R_HI` and `R_TOT`. -/
  | regs
deriving DecidableEq, Repr

/-- The total operand of `RC_GETFREQ` (30_encoding.md R74). -/
inductive TotOperand where
  /-- `S = 0`: `TOT` from the word. -/
  | imm (tot : Nat)
  /-- `S = 1`: `R_TOT`. -/
  | reg
deriving DecidableEq, Repr

/-- The symbol operand of the model commands that take one (30_encoding.md R74). -/
inductive SymOperand where
  /-- `S = 0`: `SYM` from the word. -/
  | imm (sym : Nat)
  /-- `S = 1`: `R_SYM`. -/
  | reg
deriving DecidableEq, Repr

/-- The frequency operand of the inverse lookups (30_encoding.md R74). -/
inductive FreqOperand where
  /-- `S = 0`: `F` from the word. -/
  | imm (f : Nat)
  /-- `S = 1`: `R_F`. -/
  | reg
deriving DecidableEq, Repr

/-- A command. `slot` is the `SLOT` field, `th` the `TH` bit (30_encoding.md R71 to R73, R76). -/
inductive Instr where
  | nop
  | fltClr
  | rcEncInit
  | rcEnc (iv : IvOperand)
  | rcEncFinish
  | rcDecInit
  | rcGetfreq (tot : TotOperand)
  | rcDec (iv : IvOperand)
  | mInitEsc (slot : Nat) (th : Bool)
  | mInitUni (slot : Nat) (th : Bool)
  | mCum (slot : Nat) (sym : SymOperand)
  | mFind (slot : Nat) (f : FreqOperand)
  | mBump (slot : Nat) (sym : SymOperand)
  | mTotal (slot : Nat)
  | mCnt (slot : Nat) (sym : SymOperand)
  | mUniq (slot : Nat)
  | mWbTotal (slot : Nat)
  | mWbCum (slot : Nat) (sym : SymOperand)
  | mWbFind (slot : Nat) (f : FreqOperand)
  | mWbTotalEx (slot : Nat)
  | mWbCumEx (slot : Nat) (sym : SymOperand)
  | mWbFindEx (slot : Nat) (f : FreqOperand)
  | exclClr
  | exclAdd (slot : Nat)
deriving DecidableEq, Repr

end Sys2Proof
end

