-- ==== Sys2Proof/WellFormed.lean ====
section
/-! DEFINITION. Which commands have an encoding: every operand fits its field (30_encoding.md R71, R72, R75).
A symbol of 257 to 511 and a slot that does not exist do fit; they fault when they execute (R75). -/

namespace Sys2Proof

/-- `LO`, `HI` and `TOT` are 16 bits wide (30_encoding.md R71). -/
def IvOperand.wellFormed : IvOperand → Bool
  | .imm lo hi tot => decide (lo < 2 ^ 16) && decide (hi < 2 ^ 16) && decide (tot < 2 ^ 16)
  | .regs => true

/-- `TOT` is 16 bits wide (30_encoding.md R71). -/
def TotOperand.wellFormed : TotOperand → Bool
  | .imm tot => decide (tot < 2 ^ 16)
  | .reg => true

/-- `SYM` is 9 bits wide (30_encoding.md R72). -/
def SymOperand.wellFormed : SymOperand → Bool
  | .imm sym => decide (sym < 2 ^ 9)
  | .reg => true

/-- `F` is 16 bits wide (30_encoding.md R72). -/
def FreqOperand.wellFormed : FreqOperand → Bool
  | .imm f => decide (f < 2 ^ 16)
  | .reg => true

/-- `SLOT` is 16 bits wide (30_encoding.md R72). -/
def slotFits (slot : Nat) : Bool := decide (slot < 2 ^ 16)

/-- Every operand of the command fits its field. -/
def Instr.wellFormed : Instr → Bool
  | .nop => true
  | .fltClr => true
  | .rcEncInit => true
  | .rcEnc iv => iv.wellFormed
  | .rcEncFinish => true
  | .rcDecInit => true
  | .rcGetfreq tot => tot.wellFormed
  | .rcDec iv => iv.wellFormed
  | .mInitEsc slot _ => slotFits slot
  | .mInitUni slot _ => slotFits slot
  | .mCum slot sym => slotFits slot && sym.wellFormed
  | .mFind slot f => slotFits slot && f.wellFormed
  | .mBump slot sym => slotFits slot && sym.wellFormed
  | .mTotal slot => slotFits slot
  | .mCnt slot sym => slotFits slot && sym.wellFormed
  | .mUniq slot => slotFits slot
  | .mWbTotal slot => slotFits slot
  | .mWbCum slot sym => slotFits slot && sym.wellFormed
  | .mWbFind slot f => slotFits slot && f.wellFormed
  | .mWbTotalEx slot => slotFits slot
  | .mWbCumEx slot sym => slotFits slot && sym.wellFormed
  | .mWbFindEx slot f => slotFits slot && f.wellFormed
  | .exclClr => true
  | .exclAdd slot => slotFits slot

end Sys2Proof
end

