-- ==== Sys2Proof/Decode.lean ====
section
/-! DEFINITION. Command words: their fields (30_encoding.md R71 to R73, R75), the decoder (R76 to R78), the encoder
written from the same formats, and the table of must-be-zero masks (R77) that says which words are legal. -/

namespace Sys2Proof

/-! ### Fields -/

/-- `w[lo+len-1 : lo]`, read as an unsigned integer (00_scope.md R8). -/
def field (w : CmdWord) (lo len : Nat) : Nat := (w.extractLsb' lo len).toNat

/-- `OPC(w)` (30_encoding.md R75). -/
def opc (w : CmdWord) : Nat := field w 56 8

/-- `S(w)` (30_encoding.md R75). -/
def sBit (w : CmdWord) : Bool := w.getLsbD 55

/-- `TOT(w)` of format R, `SLOT(w)` of format M: bits 47:32 (30_encoding.md R75). -/
def totField (w : CmdWord) : Nat := field w 32 16

/-- `SLOT(w)` (30_encoding.md R75). -/
def slotField (w : CmdWord) : Nat := field w 32 16

/-- `HI(w)` (30_encoding.md R75). -/
def hiField (w : CmdWord) : Nat := field w 16 16

/-- `LO(w)` (30_encoding.md R75). -/
def loField (w : CmdWord) : Nat := field w 0 16

/-- `TH(w)` (30_encoding.md R75). -/
def thField (w : CmdWord) : Bool := w.getLsbD 31

/-- `SYM(w)` (30_encoding.md R75). -/
def symField (w : CmdWord) : Nat := field w 16 9

/-- `F(w)` (30_encoding.md R75). -/
def fField (w : CmdWord) : Nat := field w 0 16

/-! ### Decoding -/

/-- Why a word is illegal: the three kinds of 30_encoding.md R78. -/
inductive Illegal where
  /-- One of the 232 undefined opcodes. -/
  | undefinedOpcode
  /-- A defined opcode with a nonzero reserved bit. -/
  | reservedBit
  /-- `S = 1` on a command without an S-form, or with a nonzero value field. -/
  | misusedS
deriving DecidableEq, Repr

/-- Format C (30_encoding.md R73): nothing but the opcode. -/
def decodeC (w : CmdWord) (i : Instr) : Except Illegal Instr :=
  if sBit w then .error .misusedS
  else if field w 0 55 = 0 then .ok i
  else .error .reservedBit

/-- Format R with interval operands (30_encoding.md R71, R74). -/
def decodeIv (w : CmdWord) (mk : IvOperand → Instr) : Except Illegal Instr :=
  if field w 48 7 ≠ 0 then .error .reservedBit
  else if sBit w then
    if field w 0 48 = 0 then .ok (mk .regs) else .error .misusedS
  else .ok (mk (.imm (loField w) (hiField w) (totField w)))

/-- Format R with a total only: `HI` and `LO` are reserved (30_encoding.md R74, R77). -/
def decodeTot (w : CmdWord) (mk : TotOperand → Instr) : Except Illegal Instr :=
  if field w 48 7 ≠ 0 then .error .reservedBit
  else if sBit w then
    if field w 0 48 = 0 then .ok (mk .reg) else .error .misusedS
  else if field w 0 32 = 0 then .ok (mk (.imm (totField w)))
  else .error .reservedBit

/-- Format M with `SLOT` and `TH` (30_encoding.md R72, R77): no S-form. -/
def decodeInit (w : CmdWord) (mk : Nat → Bool → Instr) : Except Illegal Instr :=
  if sBit w then .error .misusedS
  else if field w 48 7 ≠ 0 then .error .reservedBit
  else if field w 0 31 = 0 then .ok (mk (slotField w) (thField w))
  else .error .reservedBit

/-- Format M with `SLOT` alone (30_encoding.md R72, R77): no S-form. -/
def decodeSlot (w : CmdWord) (mk : Nat → Instr) : Except Illegal Instr :=
  if sBit w then .error .misusedS
  else if field w 48 7 ≠ 0 then .error .reservedBit
  else if field w 0 32 = 0 then .ok (mk (slotField w))
  else .error .reservedBit

/-- Format M with `SLOT` and `SYM` (30_encoding.md R72, R74, R77). -/
def decodeSym (w : CmdWord) (mk : Nat → SymOperand → Instr) : Except Illegal Instr :=
  if field w 48 7 ≠ 0 then .error .reservedBit
  else if sBit w then
    if field w 0 32 = 0 then .ok (mk (slotField w) .reg) else .error .misusedS
  else if field w 25 7 = 0 ∧ field w 0 16 = 0 then .ok (mk (slotField w) (.imm (symField w)))
  else .error .reservedBit

/-- Format M with `SLOT` and `F` (30_encoding.md R72, R74, R77). -/
def decodeFreq (w : CmdWord) (mk : Nat → FreqOperand → Instr) : Except Illegal Instr :=
  if field w 48 7 ≠ 0 then .error .reservedBit
  else if sBit w then
    if field w 0 32 = 0 then .ok (mk (slotField w) .reg) else .error .misusedS
  else if field w 16 16 = 0 then .ok (mk (slotField w) (.imm (fField w)))
  else .error .reservedBit

/-- The decoder: the opcode map of 30_encoding.md R76, every other word illegal (R78). -/
def decode (w : CmdWord) : Except Illegal Instr :=
  match opc w with
  | 0x00 => decodeC w .nop
  | 0x01 => decodeC w .fltClr
  | 0x20 => decodeC w .rcEncInit
  | 0x21 => decodeIv w .rcEnc
  | 0x22 => decodeC w .rcEncFinish
  | 0x28 => decodeC w .rcDecInit
  | 0x29 => decodeTot w .rcGetfreq
  | 0x2A => decodeIv w .rcDec
  | 0x40 => decodeInit w .mInitEsc
  | 0x41 => decodeInit w .mInitUni
  | 0x42 => decodeSym w .mCum
  | 0x43 => decodeFreq w .mFind
  | 0x44 => decodeSym w .mBump
  | 0x45 => decodeSlot w .mTotal
  | 0x46 => decodeSym w .mCnt
  | 0x47 => decodeSlot w .mUniq
  | 0x48 => decodeSlot w .mWbTotal
  | 0x49 => decodeSym w .mWbCum
  | 0x4A => decodeFreq w .mWbFind
  | 0x4C => decodeSlot w .mWbTotalEx
  | 0x4D => decodeSym w .mWbCumEx
  | 0x4E => decodeFreq w .mWbFindEx
  | 0x50 => decodeC w .exclClr
  | 0x51 => decodeSlot w .exclAdd
  | _ => .error .undefinedOpcode

/-! ### Encoding -/

/-- Format C: the opcode and 56 zero bits (30_encoding.md R73). -/
def wordC (op : Nat) : CmdWord := BitVec.ofNat 8 op ++ 0#56

/-- Format R: `OPC ++ S ++ 0 ++ TOT ++ HI ++ LO` (30_encoding.md R71). -/
def wordR (op : Nat) (s : Bool) (tot hi lo : Nat) : CmdWord :=
  BitVec.ofNat 8 op ++ BitVec.ofBool s ++ 0#7 ++ BitVec.ofNat 16 tot ++ BitVec.ofNat 16 hi ++ BitVec.ofNat 16 lo

/-- Format M: `OPC ++ S ++ 0 ++ SLOT ++ TH ++ 0 ++ SYM ++ F` (30_encoding.md R72). -/
def wordM (op : Nat) (s : Bool) (slot : Nat) (th : Bool) (sym f : Nat) : CmdWord :=
  BitVec.ofNat 8 op ++ BitVec.ofBool s ++ 0#7 ++ BitVec.ofNat 16 slot ++ BitVec.ofBool th ++ 0#6 ++
    BitVec.ofNat 9 sym ++ BitVec.ofNat 16 f

/-- A format R word with interval operands (30_encoding.md R74). -/
def wordIv (op : Nat) : IvOperand → CmdWord
  | .imm lo hi tot => wordR op false tot hi lo
  | .regs => wordR op true 0 0 0

/-- A format R word with a total operand (30_encoding.md R74). -/
def wordTot (op : Nat) : TotOperand → CmdWord
  | .imm tot => wordR op false tot 0 0
  | .reg => wordR op true 0 0 0

/-- A format M word with a symbol operand (30_encoding.md R74). -/
def wordSym (op slot : Nat) : SymOperand → CmdWord
  | .imm sym => wordM op false slot false sym 0
  | .reg => wordM op true slot false 0 0

/-- A format M word with a frequency operand (30_encoding.md R74). -/
def wordFreq (op slot : Nat) : FreqOperand → CmdWord
  | .imm f => wordM op false slot false 0 f
  | .reg => wordM op true slot false 0 0

/-- The encoder (30_encoding.md R71 to R76). The word of a well-formed command; it is what a fault records in
`FCMD` (60_exceptions.md R202), since a legal word is the only word of its command. -/
def encode : Instr → CmdWord
  | .nop => wordC 0x00
  | .fltClr => wordC 0x01
  | .rcEncInit => wordC 0x20
  | .rcEnc iv => wordIv 0x21 iv
  | .rcEncFinish => wordC 0x22
  | .rcDecInit => wordC 0x28
  | .rcGetfreq tot => wordTot 0x29 tot
  | .rcDec iv => wordIv 0x2A iv
  | .mInitEsc slot th => wordM 0x40 false slot th 0 0
  | .mInitUni slot th => wordM 0x41 false slot th 0 0
  | .mCum slot sym => wordSym 0x42 slot sym
  | .mFind slot f => wordFreq 0x43 slot f
  | .mBump slot sym => wordSym 0x44 slot sym
  | .mTotal slot => wordM 0x45 false slot false 0 0
  | .mCnt slot sym => wordSym 0x46 slot sym
  | .mUniq slot => wordM 0x47 false slot false 0 0
  | .mWbTotal slot => wordM 0x48 false slot false 0 0
  | .mWbCum slot sym => wordSym 0x49 slot sym
  | .mWbFind slot f => wordFreq 0x4A slot f
  | .mWbTotalEx slot => wordM 0x4C false slot false 0 0
  | .mWbCumEx slot sym => wordSym 0x4D slot sym
  | .mWbFindEx slot f => wordFreq 0x4E slot f
  | .exclClr => wordC 0x50
  | .exclAdd slot => wordM 0x51 false slot false 0 0

/-! ### The used bits of a word -/

/-- Bits 63:56 (30_encoding.md R75). -/
def opcBits : CmdWord := 0xFF00000000000000#64

/-- Bit 55. -/
def sBits : CmdWord := 0x0080000000000000#64

/-- Bits 47:32: `TOT` or `SLOT`. -/
def slotBits : CmdWord := 0x0000FFFF00000000#64

/-- Bits 31:16: `HI`. -/
def hiBits : CmdWord := 0x00000000FFFF0000#64

/-- Bits 15:0: `LO` or `F`. -/
def loBits : CmdWord := 0x000000000000FFFF#64

/-- Bit 31: `TH`. -/
def thBits : CmdWord := 0x0000000080000000#64

/-- Bits 24:16: `SYM`. -/
def symBits : CmdWord := 0x0000000001FF0000#64

/-- `used(op, s)` (30_encoding.md R77): the opcode bits, bit 55 if the command has an S-form, and the fields the
command uses with that `s` (R74, R76); `none` for an undefined opcode. -/
def used (op : Nat) (s : Bool) : Option CmdWord :=
  if op ∈ [0x00, 0x01, 0x20, 0x22, 0x28, 0x50] then some opcBits
  else if op ∈ [0x21, 0x2A] then some (opcBits ||| sBits ||| if s then 0#64 else slotBits ||| hiBits ||| loBits)
  else if op = 0x29 then some (opcBits ||| sBits ||| if s then 0#64 else slotBits)
  else if op ∈ [0x40, 0x41] then some (opcBits ||| slotBits ||| thBits)
  else if op ∈ [0x42, 0x44, 0x46, 0x49, 0x4D] then some (opcBits ||| sBits ||| slotBits ||| if s then 0#64 else symBits)
  else if op ∈ [0x43, 0x4A, 0x4E] then some (opcBits ||| sBits ||| slotBits ||| if s then 0#64 else loBits)
  else if op ∈ [0x45, 0x47, 0x48, 0x4C, 0x51] then some (opcBits ||| slotBits)
  else none

/-! ### The table of must-be-zero masks -/

/-- The must-be-zero mask of an opcode with a given S bit, `none` for an undefined opcode (30_encoding.md R76, R77).
For a command with no S-form bit 55 is in the mask. -/
def mustBeZero (op : Nat) (s : Bool) : Option CmdWord :=
  if op ∈ [0x00, 0x01, 0x20, 0x22, 0x28, 0x50] then some 0x00FFFFFFFFFFFFFF#64
  else if op ∈ [0x21, 0x2A] then some (if s then 0x007FFFFFFFFFFFFF#64 else 0x007F000000000000#64)
  else if op = 0x29 then some (if s then 0x007FFFFFFFFFFFFF#64 else 0x007F0000FFFFFFFF#64)
  else if op ∈ [0x40, 0x41] then some 0x00FF00007FFFFFFF#64
  else if op ∈ [0x42, 0x44, 0x46, 0x49, 0x4D] then
    some (if s then 0x007F0000FFFFFFFF#64 else 0x007F0000FE00FFFF#64)
  else if op ∈ [0x43, 0x4A, 0x4E] then some (if s then 0x007F0000FFFFFFFF#64 else 0x007F0000FFFF0000#64)
  else if op ∈ [0x45, 0x47, 0x48, 0x4C, 0x51] then some 0x00FF0000FFFFFFFF#64
  else none

/-- A legal encoding, by R77's table of masks: a defined opcode and no must-be-zero bit set. -/
def legal (w : CmdWord) : Bool :=
  match mustBeZero (opc w) (sBit w) with
  | some mask => w &&& mask == 0#64
  | none => false

/-! ### The opcode table's numbering -/

/-- The command in an instruction whose bits are `w`, numbered as spec/opcode_table.json numbers them. A command is
one 64-bit word with no byte order (30_encoding.md R70, 92_eei_decisions.md D33), so `w` is the word itself;
bits from `nbits` up are 0. -/
def decodeTableWord (nbits w : Nat) : Option Instr :=
  if w % 2 ^ nbits < 2 ^ 64 then (decode (BitVec.ofNat 64 (w % 2 ^ nbits))).toOption else none

end Sys2Proof
end

