-- ==== Sys2Proof/Config.lean ====
section
/-! DEFINITION. What an implementation of the block fixes (00_scope.md R2, R6) and the one value the spec leaves
free (70_reset_and_hazards.md R234). -/

namespace Sys2Proof.Config

/-- The escape symbol's index (00_scope.md R6). -/
abbrev escape : Nat := 256

/-- The largest `NUM_SLOTS` (00_scope.md R6). -/
abbrev maxSlots : Nat := 65536

/-- DESIGN CHOICE (log 2): the number of slots of the machine `State.reset` describes. `NUM_SLOTS` is OPEN
(00_scope.md R6); 4 is the value the test vectors use (95_test_vectors.md). Every other definition takes the number
of slots from the state. -/
def resetSlots : Nat := 4

/-- The identity string of a block with `n` slots (00_scope.md R2). -/
def identity (n : Nat) : String := "kcomp-rc257-v1-s" ++ toString n

/-- DESIGN CHOICE (log 4): the free value. What a read of a register other than STATUS delivers while `BUSY = 1`
(70_reset_and_hazards.md R234): unspecified, so it has no body; it may differ from register to register and from
read to read (the second argument counts the reads delivered so far). -/
opaque busyRead : BitVec 8 → Nat → Word

end Sys2Proof.Config
end

