-- ==== Sys2Proof/Machine/State.lean ====
section
/-! DEFINITION. The state of the kcomp RC257 block (10_state.md R21), as plain data, and its value after reset
(R40). -/

namespace Sys2Proof.Machine

/-- `MODE` (10_state.md R26): it holds IDLE, ENC or DEC and nothing else. -/
inductive Mode where
  | idle
  | enc
  | dec
deriving DecidableEq, Repr

/-- The fault causes (60_exceptions.md R200). `none` is the value while `FAULT = 0`; no other code is ever written. -/
inductive Cause where
  | none
  | illegal
  | badMode
  | badOperand
  | emptyInterval
  | desync
  | badSlot
  | slotInvalid
  | badSym
  | badFreq
deriving DecidableEq, Repr

/-- A slot record (10_state.md R30). `fen` holds `fen[1..257]` with `fen[k]` at index `k - 1` (R31). -/
structure Slot where
  /-- 1 once an init command wrote the slot. -/
  valid : Bool
  /-- Rescale-threshold select: false is `THR = 2^15`, true is `THR = 2^14`. -/
  th : Bool
  /-- `cnt[0..256]`; `cnt[256]` is the escape count. -/
  cnt : Table
  /-- The running total. -/
  total : Half
  /-- The unique-symbol count. -/
  uniq : BitVec 9
  /-- The Fenwick array, hidden state. -/
  fen : Table
deriving DecidableEq, Repr

/-- The five ways the host acts on the block (20_memory.md R56). -/
inductive HostAction where
  /-- Issue a command word. -/
  | issue (w : CmdWord)
  /-- Read a register through the register read port. -/
  | read (n : BitVec 8)
  /-- Attach a byte source. -/
  | attach (bytes : List Byte)
  /-- Drain up to `n` bytes from the sink buffer. -/
  | drain (n : Nat)
  /-- Assert reset. -/
  | reset
deriving DecidableEq, Repr

/-- The state: every piece 10_state.md R21 names, and the model's own `port` and `replies`. -/
structure State where
  /-- `LOW` (R25). -/
  low : Word
  /-- `HIGH` (R25). -/
  high : Word
  /-- `CODE` (R25). -/
  code : Word
  /-- `MODE` (R26). -/
  mode : Mode
  /-- `R_LO` (R22). -/
  rLo : Half
  /-- `R_HI` (R22). -/
  rHi : Half
  /-- `R_TOT` (R22). -/
  rTot : Half
  /-- `R_SYM` (R22). -/
  rSym : BitVec 9
  /-- `R_F` (R22). -/
  rF : Half
  /-- `R_CNT` (R22). -/
  rCnt : Half
  /-- `FAULT` (R28). -/
  fault : Bool
  /-- `CAUSE` (R28). -/
  cause : Cause
  /-- `FOPC` (R28). -/
  fopc : BitVec 8
  /-- `FCMD` (R28). -/
  fcmd : CmdWord
  /-- `PEND` (R28). -/
  pend : Bool
  /-- `RSC` (R28). -/
  rsc : Bool
  /-- `BUSY` (R28, R38). -/
  busy : Bool
  /-- `M[0..NUM_SLOTS-1]` (R30); the length of the list is `NUM_SLOTS`. -/
  slots : List Slot
  /-- `EXCL[0..255]` (R32). -/
  excl : ExclMask
  /-- `SRC` (R33); its length is `IN_LEN`. -/
  src : List Byte
  /-- `IN_POS` (R33). -/
  inPos : BitVec 32
  /-- `SNK` (R34): the bytes emitted since the last `RC_ENC_INIT`, in emission order. -/
  snk : List Byte
  /-- The sink buffer occupancy (R38): how many emitted bytes the host has not drained. Its value after reset and after
  `RC_ENC_INIT` is the model's (log 7). -/
  undrained : Nat
  /-- The model's own (log 1): the host's actions still to come, oldest first. -/
  port : List HostAction
  /-- The model's own (log 1): what the register read port has delivered, oldest first. -/
  replies : List (BitVec 8 × Word)
deriving DecidableEq, Repr

/-- Reasons the machine would stop. None exists: every fault of the spec is a sticky state in which the machine goes
on (60_exceptions.md R202, R203), so this type has no constructor and no step ends in a fault. Safe: nothing is cut
short. -/
inductive Fault where
deriving DecidableEq, Repr

/-- Why a step is refused. -/
inductive Refusal where
  /-- Raised by `exec` alone, for a command without a meaning; safe. No arm raises it in this model. -/
  | notModelled (mnemonic : String)
  /-- Raised by `step` for an attach while `BUSY = 1`, which is outside the host's domain (20_memory.md R56;
  93_implementation_defined.md A.3, `refuse`); safe. -/
  | attachWhileBusy
  /-- Raised by `step` for an attach of 2^32 bytes or more, which no source has (10_state.md R33); safe. -/
  | sourceTooLong
deriving DecidableEq, Repr

/-- A slot after reset. `valid = 0` is the spec's (10_state.md R40); the other fields are unspecified there and zero
here: DESIGN CHOICE (log 3). -/
def Slot.reset : Slot where
  valid := false
  th := false
  cnt := Vector.replicate 257 0#16
  total := 0#16
  uniq := 0#9
  fen := Vector.replicate 257 0#16

/-- The state right after reset of a block with `n` slots (10_state.md R40). That the sink buffer's occupancy is 0 is
the model's: R40 has no row for it and 70_reset_and_hazards.md R220 says only that the sink is empty. DESIGN CHOICE
(log 7). -/
def State.resetWith (n : Nat) : State where
  low := 0#32
  high := 0#32
  code := 0#32
  mode := .idle
  rLo := 0#16
  rHi := 0#16
  rTot := 0#16
  rSym := 0#9
  rF := 0#16
  rCnt := 0#16
  fault := false
  cause := .none
  fopc := 0#8
  fcmd := 0#64
  pend := false
  rsc := false
  busy := false
  slots := List.replicate n Slot.reset
  excl := 0#256
  src := []
  inPos := 0#32
  snk := []
  undrained := 0
  port := []
  replies := []

/-- The machine right after reset (10_state.md R40), with `Config.resetSlots` slots: DESIGN CHOICE (log 2). -/
def State.reset : State := State.resetWith Config.resetSlots

end Sys2Proof.Machine
end

