-- ==== Sys2Proof/Machine/Ops.lean ====
section
/-! DEFINITION. The named operations on the state: register writes, fault entry and return, the byte ports, the
BUSY bracket of a command, and the tables of a slot record. A value written to a register is reduced to the register's
width; 00_scope.md R9 says every write is in range, so this shows only in states outside the invariant (log 5). -/

namespace Sys2Proof.Machine

/-- What executing one command, or one step, answers. -/
abbrev Out := Host.Outcome State Fault Refusal

/-! ### Register writes (10_state.md R22, R25) -/

/-- Write `R_LO`, `R_HI` and `R_TOT`. -/
def State.setInterval (s : State) (lo hi tot : Nat) : State :=
  { s with rLo := BitVec.ofNat 16 lo, rHi := BitVec.ofNat 16 hi, rTot := BitVec.ofNat 16 tot }

/-- Write `R_TOT`. -/
def State.setTot (s : State) (tot : Nat) : State := { s with rTot := BitVec.ofNat 16 tot }

/-- Write `R_SYM`. -/
def State.setSym (s : State) (sym : Nat) : State := { s with rSym := BitVec.ofNat 9 sym }

/-- Write `R_F`. -/
def State.setFreq (s : State) (f : Nat) : State := { s with rF := BitVec.ofNat 16 f }

/-- Write `R_CNT`. -/
def State.setCnt (s : State) (n : Nat) : State := { s with rCnt := BitVec.ofNat 16 n }

/-- Write `LOW` and `HIGH`. -/
def State.setCoder (s : State) (lo hi : Nat) : State :=
  { s with low := BitVec.ofNat 32 lo, high := BitVec.ofNat 32 hi }

/-- Write `MODE`. -/
def State.setMode (s : State) (m : Mode) : State := { s with mode := m }

/-- Write `EXCL`. -/
def State.setExcl (s : State) (e : ExclMask) : State := { s with excl := e }

/-- Write `RSC`. -/
def State.setRsc (s : State) (b : Bool) : State := { s with rsc := b }

/-- Write slot `k` of the store (10_state.md R30). -/
def State.putSlot (s : State) (k : Nat) (m : Slot) : State := { s with slots := s.slots.set k m }

/-! ### Fault entry and return (60_exceptions.md R202, R205) -/

/-- `CAUSE` codes (60_exceptions.md R200). -/
def Cause.bits : Cause → BitVec 8
  | .none => 0#8
  | .illegal => 1#8
  | .badMode => 2#8
  | .badOperand => 3#8
  | .emptyInterval => 4#8
  | .desync => 5#8
  | .badSlot => 6#8
  | .slotInvalid => 7#8
  | .badSym => 8#8
  | .badFreq => 9#8

/-- `FaultEntry(c, w)`: the four fault fields and nothing else (60_exceptions.md R202). -/
def State.enterFault (s : State) (c : Cause) (w : CmdWord) : State :=
  { s with fault := true, cause := c, fopc := w.extractLsb' 56 8, fcmd := w }

/-- The return from a fault (44_control.md R181, 60_exceptions.md R205): nothing is restored or retried. -/
def State.clearFault (s : State) : State :=
  { s with fault := false, cause := .none, fopc := 0#8, fcmd := 0#64 }

/-- Ends command `i` started in `s`: its writes, or, when a check raised a fault, the fault entry on the state before
the command (00_scope.md R11, 60_exceptions.md R202). -/
def State.settle (s : State) (i : Instr) : Except Cause State → Out
  | .ok t => .next t
  | .error c => .next (s.enterFault c (encode i))

/-! ### Byte ports (20_memory.md R52, R54) -/

/-- `SrcGet()` (20_memory.md R52): the byte and the state after. -/
def State.srcGet (s : State) : Byte × State :=
  match s.src[s.inPos.toNat]? with
  | some b => (b, { s with inPos := s.inPos + 1#32 })
  | none => (0#8, { s with pend := true })

/-- `SnkPut(b)` (20_memory.md R54): the byte joins `SNK` and the sink buffer (10_state.md R38). -/
def State.snkPut (s : State) (b : Byte) : State :=
  { s with snk := s.snk ++ [b], undrained := s.undrained + 1 }

/-- `SNK <- []` (41_range_coder.md R110). The sink buffer is empty with it: DEDUCED (log 7). -/
def State.snkClear (s : State) : State := { s with snk := [], undrained := 0 }

/-- `shl8(v) = (v * 256) mod 2^32` (00_scope.md R9). -/
def shl8 (v : Word) : Word := v <<< 8

/-- `CODE <- shl8(CODE) + SrcGet()` (41_range_coder.md R102, R113). -/
def State.shiftCode (s : State) : State :=
  let r := s.srcGet
  { r.2 with code := shl8 s.code + r.1.setWidth 32 }

/-! ### The command bracket (10_state.md R28, R38) -/

/-- The block takes the action at the head of the port and, for a command, is busy until it completes. -/
def State.accept (s : State) (rest : List HostAction) : State := { s with port := rest, busy := true }

/-- The command completes. -/
def State.release (s : State) : State := { s with busy := false }

/-- Completion of a command that answered `o`. -/
def completed : Out → Out
  | .next t => .next t.release
  | .fault f => .fault f
  | .refused r => .refused r

/-! ### Tables -/

/-- The table whose entry `i` is `f i`. -/
def tabulate (f : Nat → Half) : Table := ⟨⟨(List.range 257).map f⟩, by simp⟩

/-- Entry `i` of a table; 0 outside it. -/
def tableAt (t : Table) (i : Nat) : Half := t.toList.getD i 0#16

/-- The table with `f` applied to every entry. -/
def tableMap (f : Half → Half) (t : Table) : Table := ⟨⟨t.toList.map f⟩, by simp⟩

/-- The table with entry `i` replaced. -/
def tableSet (t : Table) (i : Nat) (v : Half) : Table := ⟨⟨t.toList.set i v⟩, by simp⟩

end Sys2Proof.Machine
end

