-- ==== Sys2Proof/Machine/Control.lean ====
section
/-! DEFINITION. The control commands (44_control.md). -/

namespace Sys2Proof.Machine

/-- `NOP` (44_control.md R180): no state is read or written. -/
def execNop (s : State) : Out := .next s

/-- `FLT_CLR` (44_control.md R181). -/
def execFltClr (s : State) : Out := .next s.clearFault

end Sys2Proof.Machine
end

