-- ==== Sys2Proof/Machine/Frequency.lean ====
section
/-! DEFINITION. What a slot record computes: the prefix sums of 00_scope.md R12, the Fenwick procedures of
42_model257.md R140 and R141, the two initial states (R130, R131), bump and rescale (R135, R142), and the set of seen
bytes (43_witten_bell_exclusion.md R165). Sums are exact natural numbers (00_scope.md R9). -/

namespace Sys2Proof.Machine

/-! ### Prefix sums (00_scope.md R12) -/

/-- The sum of the first `i` entries. -/
def prefixSum (l : List Nat) (i : Nat) : Nat := (l.take i).sum

/-- How many entries are above zero. -/
def seen (l : List Nat) : Nat := l.countP (fun c => decide (0 < c))

/-- `cnt[0..256]` as numbers. -/
def Slot.counts (m : Slot) : List Nat := m.cnt.toList.map BitVec.toNat

/-- `cnt[0..255]` as numbers. -/
def Slot.byteCounts (m : Slot) : List Nat := m.counts.take 256

/-- `cnt[i]`. -/
def Slot.cntAt (m : Slot) (i : Nat) : Nat := m.counts.getD i 0

/-- `cumlo(s, i)`. -/
def Slot.cumlo (m : Slot) (i : Nat) : Nat := prefixSum m.counts i

/-- `S(s)`: the sum of the 256 byte counts. -/
def Slot.sumBytes (m : Slot) : Nat := m.cumlo 256

/-- `U(s)`: how many bytes have a count above zero. -/
def Slot.seenBytes (m : Slot) : Nat := seen m.byteCounts

/-- The byte counts with those of excluded bytes taken as 0. -/
def Slot.openCounts (m : Slot) (e : ExclMask) : List Nat :=
  m.byteCounts.zipIdx.map fun p => if e.getLsbD p.2 then 0 else p.1

/-- `cumlo_ex(s, i)`. -/
def Slot.cumloEx (m : Slot) (e : ExclMask) (i : Nat) : Nat := prefixSum (m.openCounts e) i

/-- `S_ex(s)`. -/
def Slot.sumBytesEx (m : Slot) (e : ExclMask) : Nat := m.cumloEx e 256

/-- `U_ex(s)`. -/
def Slot.seenBytesEx (m : Slot) (e : ExclMask) : Nat := seen (m.openCounts e)

/-- `wbt(s)`. -/
def Slot.wbt (m : Slot) : Nat := m.sumBytes + max m.seenBytes 1

/-- `wbt_ex(s)`. -/
def Slot.wbtEx (m : Slot) (e : ExclMask) : Nat := m.sumBytesEx e + max (m.seenBytesEx e) 1

/-! ### The Fenwick array (10_state.md R31, 42_model257.md R140, R141) -/

/-- The value of the lowest set bit of `k` (10_state.md R31). -/
def lowbit (k : Nat) : Nat := k - (k &&& (k - 1))

/-- What `fen[k]` must hold: the sum of `cnt[i-1]` for `k - lowbit(k) < i <= k` (10_state.md R31). -/
def fenNode (counts : List Nat) (k : Nat) : Nat := ((counts.drop (k - lowbit k)).take (lowbit k)).sum

/-- `fen[k]`, for `k` from 1 to 257. -/
def Slot.fenAt (m : Slot) (k : Nat) : Nat := (tableAt m.fen (k - 1)).toNat

/-- `FenRebuild(s)` (42_model257.md R141). -/
def Slot.fenRebuild (m : Slot) : Slot :=
  { m with fen := tabulate fun j => BitVec.ofNat 16 (fenNode m.counts (j + 1)) }

/-- The loop of `FenAdd` from node `k` on, of at most `fuel` rounds (42_model257.md R141). -/
def fenAddFrom (d : Half) : (fuel k : Nat) → Table → Table
  | 0, _, t => t
  | fuel + 1, k, t =>
    if k ≤ 257 then fenAddFrom d fuel (k + lowbit k) (tableSet t (k - 1) (tableAt t (k - 1) + d)) else t

/-- `FenAdd(s, sym, d)` (42_model257.md R141). Each round raises `k` by at least 1, so 257 rounds pass the end. -/
def Slot.fenAdd (m : Slot) (sym : Nat) (d : Half) : Slot := { m with fen := fenAddFrom d 257 (sym + 1) m.fen }

/-- One step of the descent, on the pair `(pos, rem)` (42_model257.md R140). -/
def Slot.fenStep (m : Slot) (p : Nat × Nat) (step : Nat) : Nat × Nat :=
  if p.1 + step ≤ 257 ∧ m.fenAt (p.1 + step) ≤ p.2 then (p.1 + step, p.2 - m.fenAt (p.1 + step)) else p

/-- `FenFind(s, f)`: the Fenwick descent (42_model257.md R140). -/
def Slot.fenFind (m : Slot) (f : Nat) : Nat := ([256, 128, 64, 32, 16, 8, 4, 2, 1].foldl m.fenStep (0, f)).1

/-- The position of the entry whose interval holds `f`, by a linear search: `j` with
`prefixSum l j ≤ f < prefixSum l j + l[j]` (43_witten_bell_exclusion.md R168). -/
def locate : List Nat → Nat → Nat
  | [], _ => 0
  | c :: l, f => if f < c then 0 else locate l (f - c) + 1

/-! ### Initial states (42_model257.md R130, R131) -/

/-- A slot with the given counts, threshold bit, total and unique count, its Fenwick array built from the counts. -/
def Slot.fresh (th : Bool) (cnt : Table) (total uniq : Nat) : Slot :=
  { valid := true, th := th, cnt := cnt, total := BitVec.ofNat 16 total, uniq := BitVec.ofNat 9 uniq,
    fen := tabulate fun j => BitVec.ofNat 16 (fenNode (cnt.toList.map BitVec.toNat) (j + 1)) }

/-- The escape-only state (42_model257.md R130). -/
def Slot.escapeOnly (th : Bool) : Slot :=
  Slot.fresh th (tabulate fun i => if i = Config.escape then 1#16 else 0#16) 1 0

/-- The uniform-256 state (42_model257.md R131). -/
def Slot.uniform (th : Bool) : Slot := Slot.fresh th (tabulate fun _ => 1#16) 257 256

/-! ### Bump and rescale (42_model257.md R135, R142) -/

/-- `THR(s)` (10_state.md R30). -/
def Slot.thr (m : Slot) : Nat := if m.th then 2 ^ 14 else 2 ^ 15

/-- The counts after halving with rounding up, the escape clamped to at least 1 (42_model257.md R142). -/
def halvedCounts (cnt : Table) : Table :=
  let h := tableMap (fun c => BitVec.ofNat 16 ((c.toNat + 1) / 2)) cnt
  if tableAt h Config.escape = 0#16 then tableSet h Config.escape 1#16 else h

/-- `Rescale(s)` (42_model257.md R142). -/
def Slot.rescale (m : Slot) : Slot :=
  let h := { m with cnt := halvedCounts m.cnt }
  Slot.fenRebuild
    { h with total := BitVec.ofNat 16 (h.cumlo 257), uniq := BitVec.ofNat 9 h.seenBytes }

/-- One occurrence of `sym` counted, before any rescale (42_model257.md R135). -/
def Slot.count (m : Slot) (sym : Nat) : Slot :=
  Slot.fenAdd
    { m with
      uniq := if sym < Config.escape ∧ m.cntAt sym = 0 then m.uniq + 1#9 else m.uniq
      cnt := tableSet m.cnt sym (tableAt m.cnt sym + 1#16)
      total := m.total + 1#16 }
    sym 1#16

/-- The slot after a bump of `sym`, and whether the bump rescaled (42_model257.md R135). -/
def Slot.bump (m : Slot) (sym : Nat) : Slot × Bool :=
  if (m.count sym).thr ≤ (m.count sym).total.toNat then ((m.count sym).rescale, true) else (m.count sym, false)

/-! ### The exclusion mask -/

/-- `EXCL` with every byte seen in the slot added (43_witten_bell_exclusion.md R165). -/
def Slot.addSeen (m : Slot) (e : ExclMask) : ExclMask :=
  m.byteCounts.zipIdx.foldl (fun e p => if 0 < p.1 then e ||| BitVec.twoPow 256 p.2 else e) e

end Sys2Proof.Machine
end

