-- ==== Sys2Proof/Machine/Operands.lean ====
section
/-! DEFINITION. Operand fetch: the immediate form and the S-form of every operand (30_encoding.md R74,
41_range_coder.md R100, 42_model257.md R132). None of these writes state. -/

namespace Sys2Proof.Machine

/-- `IvOperands(w)`: `(lo, hi, tot)` (41_range_coder.md R100). -/
def State.interval (s : State) : IvOperand → Nat × Nat × Nat
  | .imm lo hi tot => (lo, hi, tot)
  | .regs => (s.rLo.toNat, s.rHi.toNat, s.rTot.toNat)

/-- The total operand of `RC_GETFREQ` (41_range_coder.md R114). -/
def State.totOf (s : State) : TotOperand → Nat
  | .imm tot => tot
  | .reg => s.rTot.toNat

/-- The symbol operand before its check (42_model257.md R132). -/
def State.symOf (s : State) : SymOperand → Nat
  | .imm sym => sym
  | .reg => s.rSym.toNat

/-- `GetF(w)` (42_model257.md R132). -/
def State.freqOf (s : State) : FreqOperand → Nat
  | .imm f => f
  | .reg => s.rF.toNat

/-- `GetSym(w)` (42_model257.md R132). -/
def State.getSym (s : State) (o : SymOperand) : Except Cause Nat :=
  if Config.escape < s.symOf o then .error .badSym else .ok (s.symOf o)

/-- `GetSlot(w, need_valid)` (42_model257.md R132), with the record of the slot. -/
def State.getSlot (s : State) (slot : Nat) (needValid : Bool) : Except Cause Slot :=
  match s.slots[slot]? with
  | none => .error .badSlot
  | some m => if needValid && !m.valid then .error .slotInvalid else .ok m

/-- The coder commands' check of `MODE` (10_state.md R26). -/
def State.needMode (s : State) (m : Mode) : Except Cause Unit := if s.mode = m then .ok () else .error .badMode

end Sys2Proof.Machine
end

