-- ==== Sys2Proof/Machine/Model257.lean ====
section
/-! DEFINITION. The Model257 commands (42_model257.md R130 to R138). -/

namespace Sys2Proof.Machine

/-- `M_INIT_ESC` (42_model257.md R130). -/
def execMInitEsc (slot : Nat) (th : Bool) (s : State) : Out :=
  s.settle (.mInitEsc slot th) do
    let _ ← s.getSlot slot false
    .ok (s.putSlot slot (Slot.escapeOnly th))

/-- `M_INIT_UNI` (42_model257.md R131). -/
def execMInitUni (slot : Nat) (th : Bool) (s : State) : Out :=
  s.settle (.mInitUni slot th) do
    let _ ← s.getSlot slot false
    .ok (s.putSlot slot (Slot.uniform th))

/-- `M_CUM` (42_model257.md R133). -/
def execMCum (slot : Nat) (o : SymOperand) (s : State) : Out :=
  s.settle (.mCum slot o) do
    let m ← s.getSlot slot true
    let sym ← s.getSym o
    .ok (s.setInterval (m.cumlo sym) (m.cumlo sym + m.cntAt sym) m.total.toNat)

/-- `M_FIND` (42_model257.md R134). -/
def execMFind (slot : Nat) (o : FreqOperand) (s : State) : Out :=
  s.settle (.mFind slot o) do
    let m ← s.getSlot slot true
    let f := s.freqOf o
    if m.total.toNat ≤ f then .error .badFreq
    else
      let sym := m.fenFind f
      .ok ((s.setSym sym).setInterval (m.cumlo sym) (m.cumlo sym + m.cntAt sym) m.total.toNat)

/-- `M_BUMP` (42_model257.md R135). -/
def execMBump (slot : Nat) (o : SymOperand) (s : State) : Out :=
  s.settle (.mBump slot o) do
    let m ← s.getSlot slot true
    let sym ← s.getSym o
    .ok ((s.putSlot slot (m.bump sym).1).setRsc (m.bump sym).2)

/-- `M_TOTAL` (42_model257.md R136). -/
def execMTotal (slot : Nat) (s : State) : Out :=
  s.settle (.mTotal slot) do
    let m ← s.getSlot slot true
    .ok (s.setTot m.total.toNat)

/-- `M_CNT` (42_model257.md R137). -/
def execMCnt (slot : Nat) (o : SymOperand) (s : State) : Out :=
  s.settle (.mCnt slot o) do
    let m ← s.getSlot slot true
    let sym ← s.getSym o
    .ok (s.setCnt (m.cntAt sym))

/-- `M_UNIQ` (42_model257.md R138). -/
def execMUniq (slot : Nat) (s : State) : Out :=
  s.settle (.mUniq slot) do
    let m ← s.getSlot slot true
    .ok (s.setCnt m.uniq.toNat)

end Sys2Proof.Machine
end

