-- ==== Sys2Proof/Machine/Interval.lean ====
section
/-! DEFINITION. The range coder's shared procedures: the interval's range, `Narrow` (41_range_coder.md R101) and
`Renorm` (R102). Arithmetic is on natural numbers (00_scope.md R9); subtraction stops at 0, which R14 says no
reachable state sees (log 5). -/

namespace Sys2Proof.Machine

/-- `range = HIGH - LOW + 1`, exact, up to 2^32 (41_range_coder.md R101, D10). -/
def State.range (s : State) : Nat := s.high.toNat - s.low.toNat + 1

/-- `Narrow(lo, hi, tot)` (41_range_coder.md R101): the new low and high, or the fault; no state is written. -/
def State.narrow (s : State) (lo hi tot : Nat) : Except Cause (Nat × Nat) :=
  if tot = 0 ∨ hi ≤ lo ∨ tot < hi then .error .badOperand
  else
    let ql := s.range * lo / tot
    let qh := s.range * hi / tot
    if qh ≤ ql then .error .emptyInterval
    else .ok (s.low.toNat + ql, s.low.toNat + qh - 1)

/-- `LOW` and `HIGH` agree on their top byte (41_range_coder.md R102). -/
def State.settled (s : State) : Bool := decide ((s.low ^^^ s.high).toNat < 2 ^ 24)

/-- One shift step of `Renorm` (41_range_coder.md R102): the encoder emits the settled byte, the decoder reads one. -/
def State.shiftOut (s : State) (dec : Bool) : State :=
  let a := if dec then s else s.snkPut (s.low.extractLsb' 24 8)
  let b := { a with low := shl8 a.low, high := shl8 a.high + 0xFF#32 }
  if dec then b.shiftCode else b

/-- The loop of `Renorm`, of at most `fuel` steps. -/
def State.renormLoop (dec : Bool) : (fuel : Nat) → State → State
  | 0, s => s
  | fuel + 1, s => if s.settled then State.renormLoop dec fuel (s.shiftOut dec) else s

/-- `Renorm(dec)` (41_range_coder.md R102). Four steps leave `LOW = 0` and `HIGH = 0xFFFFFFFF` whatever they were, so
the loop never takes a fifth (R103). -/
def State.renorm (s : State) (dec : Bool) : State := State.renormLoop dec 4 s

end Sys2Proof.Machine
end

