-- ==== Sys2Proof/Machine/RangeCoder.lean ====
section
/-! DEFINITION. The range coder commands (41_range_coder.md R110 to R115). Each body makes its checks in the order of
the rule's pseudocode, on the state before the command, and only then writes (00_scope.md R11). -/

namespace Sys2Proof.Machine

/-- `RC_ENC_INIT` (41_range_coder.md R110). -/
def execRcEncInit (s : State) : Out :=
  .next (((s.setMode .enc).setCoder 0 0xFFFFFFFF).snkClear)

/-- `RC_ENC` (41_range_coder.md R111). -/
def execRcEnc (iv : IvOperand) (s : State) : Out :=
  s.settle (.rcEnc iv) do
    s.needMode .enc
    let (lo, hi, tot) := s.interval iv
    let (nl, nh) ← s.narrow lo hi tot
    .ok ((s.setCoder nl nh).renorm false)

/-- `RC_ENC_FINISH` (41_range_coder.md R112). -/
def execRcEncFinish (s : State) : Out :=
  s.settle .rcEncFinish do
    s.needMode .enc
    .ok (((((s.snkPut (s.low.extractLsb' 24 8)).snkPut (s.low.extractLsb' 16 8)).snkPut
      (s.low.extractLsb' 8 8)).snkPut (s.low.extractLsb' 0 8)).setMode .idle)

/-- `RC_DEC_INIT` (41_range_coder.md R113): `c` is assembled in `CODE` itself. -/
def execRcDecInit (s : State) : Out :=
  .next ({ (s.setMode .dec).setCoder 0 0xFFFFFFFF with
    pend := false, code := 0#32 }.shiftCode.shiftCode.shiftCode.shiftCode)

/-- `RC_GETFREQ` (41_range_coder.md R114). -/
def execRcGetfreq (o : TotOperand) (s : State) : Out :=
  s.settle (.rcGetfreq o) do
    s.needMode .dec
    let tot := s.totOf o
    if tot = 0 then .error .badOperand
    else .ok (s.setFreq (((s.code.toNat - s.low.toNat + 1) * tot - 1) / s.range))

/-- `RC_DEC` (41_range_coder.md R115). -/
def execRcDec (iv : IvOperand) (s : State) : Out :=
  s.settle (.rcDec iv) do
    s.needMode .dec
    let (lo, hi, tot) := s.interval iv
    let (nl, nh) ← s.narrow lo hi tot
    if s.code.toNat < nl ∨ nh < s.code.toNat then .error .desync
    else .ok ((s.setCoder nl nh).renorm true)

end Sys2Proof.Machine
end

