-- ==== Sys2Proof/Machine/WittenBell.lean ====
section
/-! DEFINITION. The Witten-Bell view, the exclusion mask commands and the `_ex` variants
(43_witten_bell_exclusion.md R161 to R168). -/

namespace Sys2Proof.Machine

/-- `M_WB_TOTAL` (43_witten_bell_exclusion.md R161). -/
def execMWbTotal (slot : Nat) (s : State) : Out :=
  s.settle (.mWbTotal slot) do
    let m ← s.getSlot slot true
    .ok (s.setTot m.wbt)

/-- `M_WB_CUM` (43_witten_bell_exclusion.md R162). -/
def execMWbCum (slot : Nat) (o : SymOperand) (s : State) : Out :=
  s.settle (.mWbCum slot o) do
    let m ← s.getSlot slot true
    let sym ← s.getSym o
    if sym = Config.escape then .ok (s.setInterval m.sumBytes m.wbt m.wbt)
    else .ok (s.setInterval (m.cumlo sym) (m.cumlo sym + m.cntAt sym) m.wbt)

/-- `M_WB_FIND` (43_witten_bell_exclusion.md R163). -/
def execMWbFind (slot : Nat) (o : FreqOperand) (s : State) : Out :=
  s.settle (.mWbFind slot o) do
    let m ← s.getSlot slot true
    let f := s.freqOf o
    if m.wbt ≤ f then .error .badFreq
    else if m.sumBytes ≤ f then .ok ((s.setSym Config.escape).setInterval m.sumBytes m.wbt m.wbt)
    else
      let sym := m.fenFind f
      .ok ((s.setSym sym).setInterval (m.cumlo sym) (m.cumlo sym + m.cntAt sym) m.wbt)

/-- `EXCL_CLR` (43_witten_bell_exclusion.md R164). -/
def execExclClr (s : State) : Out := .next (s.setExcl 0#256)

/-- `EXCL_ADD` (43_witten_bell_exclusion.md R165). -/
def execExclAdd (slot : Nat) (s : State) : Out :=
  s.settle (.exclAdd slot) do
    let m ← s.getSlot slot true
    .ok (s.setExcl (m.addSeen s.excl))

/-- `M_WB_TOTAL_EX` (43_witten_bell_exclusion.md R166). -/
def execMWbTotalEx (slot : Nat) (s : State) : Out :=
  s.settle (.mWbTotalEx slot) do
    let m ← s.getSlot slot true
    .ok (s.setTot (m.wbtEx s.excl))

/-- `M_WB_CUM_EX` (43_witten_bell_exclusion.md R167). -/
def execMWbCumEx (slot : Nat) (o : SymOperand) (s : State) : Out :=
  s.settle (.mWbCumEx slot o) do
    let m ← s.getSlot slot true
    let sym ← s.getSym o
    if sym = Config.escape then .ok (s.setInterval (m.sumBytesEx s.excl) (m.wbtEx s.excl) (m.wbtEx s.excl))
    else if s.excl.getLsbD sym then
      .ok (s.setInterval (m.cumloEx s.excl sym) (m.cumloEx s.excl sym) (m.wbtEx s.excl))
    else
      .ok (s.setInterval (m.cumloEx s.excl sym) (m.cumloEx s.excl sym + m.cntAt sym) (m.wbtEx s.excl))

/-- `M_WB_FIND_EX` (43_witten_bell_exclusion.md R168). The search runs over the counts of the bytes that are not
excluded, so the position it answers is never an excluded byte. -/
def execMWbFindEx (slot : Nat) (o : FreqOperand) (s : State) : Out :=
  s.settle (.mWbFindEx slot o) do
    let m ← s.getSlot slot true
    let f := s.freqOf o
    if m.wbtEx s.excl ≤ f then .error .badFreq
    else if m.sumBytesEx s.excl ≤ f then
      .ok ((s.setSym Config.escape).setInterval (m.sumBytesEx s.excl) (m.wbtEx s.excl) (m.wbtEx s.excl))
    else
      let sym := locate (m.openCounts s.excl) f
      .ok ((s.setSym sym).setInterval (m.cumloEx s.excl sym) (m.cumloEx s.excl sym + m.cntAt sym)
        (m.wbtEx s.excl))

end Sys2Proof.Machine
end

