-- ==== Sys2Proof/Machine/Dispatch.lean ====
section
/-! DEFINITION. One arm per command: each calls the command's meaning. -/

namespace Sys2Proof.Machine

/-- What command `i` does in state `s` once the block executes it (10_state.md R20). Whether the block executes or
discards a word is decided before, at the command port (60_exceptions.md R203). -/
def exec (i : Instr) (s : State) : Host.Outcome State Fault Refusal :=
  match i with
  | .nop => Sys2Proof.Machine.execNop s
  | .fltClr => Sys2Proof.Machine.execFltClr s
  | .rcEncInit => Sys2Proof.Machine.execRcEncInit s
  | .rcEnc iv => Sys2Proof.Machine.execRcEnc iv s
  | .rcEncFinish => Sys2Proof.Machine.execRcEncFinish s
  | .rcDecInit => Sys2Proof.Machine.execRcDecInit s
  | .rcGetfreq tot => Sys2Proof.Machine.execRcGetfreq tot s
  | .rcDec iv => Sys2Proof.Machine.execRcDec iv s
  | .mInitEsc slot th => Sys2Proof.Machine.execMInitEsc slot th s
  | .mInitUni slot th => Sys2Proof.Machine.execMInitUni slot th s
  | .mCum slot sym => Sys2Proof.Machine.execMCum slot sym s
  | .mFind slot f => Sys2Proof.Machine.execMFind slot f s
  | .mBump slot sym => Sys2Proof.Machine.execMBump slot sym s
  | .mTotal slot => Sys2Proof.Machine.execMTotal slot s
  | .mCnt slot sym => Sys2Proof.Machine.execMCnt slot sym s
  | .mUniq slot => Sys2Proof.Machine.execMUniq slot s
  | .mWbTotal slot => Sys2Proof.Machine.execMWbTotal slot s
  | .mWbCum slot sym => Sys2Proof.Machine.execMWbCum slot sym s
  | .mWbFind slot f => Sys2Proof.Machine.execMWbFind slot f s
  | .mWbTotalEx slot => Sys2Proof.Machine.execMWbTotalEx slot s
  | .mWbCumEx slot sym => Sys2Proof.Machine.execMWbCumEx slot sym s
  | .mWbFindEx slot f => Sys2Proof.Machine.execMWbFindEx slot f s
  | .exclClr => Sys2Proof.Machine.execExclClr s
  | .exclAdd slot => Sys2Proof.Machine.execExclAdd slot s

end Sys2Proof.Machine
end

