-- ==== Sys2Proof/Machine/CommandPort.lean ====
section
/-! DEFINITION. The command port: what the block does with a word it takes (60_exceptions.md R202, R203). -/

namespace Sys2Proof.Machine

/-- What becomes of a command word. -/
inductive Reception where
  /-- Discarded: no state change and no fault. -/
  | discard
  /-- An illegal encoding: `ILLEGAL`. -/
  | illegal
  /-- A legal command, to be executed. -/
  | run (i : Instr)
deriving DecidableEq, Repr

/-- The two exact words that execute while `FAULT = 1` (60_exceptions.md R203). -/
def acceptedInFault (w : CmdWord) : Bool := w == 0x0000000000000000#64 || w == 0x0100000000000000#64

/-- Discard, fault or execute (60_exceptions.md R203, R204: `ILLEGAL` is decided from the word alone, and a discarded
word reports nothing). -/
def State.receive (s : State) (w : CmdWord) : Reception :=
  if s.fault && !acceptedInFault w then .discard
  else
    match decode w with
    | .ok i => .run i
    | .error _ => .illegal

/-- The block takes word `w` while not busy and completes it. -/
def runCommand (w : CmdWord) (s : State) : Out :=
  match s.receive w with
  | .discard => completed (.next s)
  | .illegal => completed (.next (s.enterFault .illegal w))
  | .run i => completed (exec i s)

end Sys2Proof.Machine
end

