-- ==== Sys2Proof/Machine/Flags.lean ====
section
/-! DEFINITION. The status flags as the host sees them: `MODE` and `CAUSE` codes and the STATUS word (10_state.md R28,
R29). Who sets and clears each flag is in the operations that do: `PEND` in `State.srcGet`, `RSC` in `execMBump`, the
fault fields in `State.enterFault` and `State.clearFault`, `BUSY` in `State.accept` and `State.release`. -/

namespace Sys2Proof.Machine

/-- `MODE` codes (10_state.md R26). -/
def Mode.bits : Mode → BitVec 2
  | .idle => 0#2
  | .enc => 1#2
  | .dec => 2#2

/-- STATUS, register 0x00 (10_state.md R29): bits 31:24 and 7:6 read 0. -/
def State.status (s : State) : Word :=
  0#8 ++ s.fopc ++ s.cause.bits ++ 0#2 ++ BitVec.ofBool s.rsc ++ BitVec.ofBool s.pend ++ s.mode.bits ++
    BitVec.ofBool s.fault ++ BitVec.ofBool s.busy

end Sys2Proof.Machine
end

