-- ==== Sys2Proof/Machine/HostPort.lean ====
section
/-! DEFINITION. The host's actions other than issuing a command (20_memory.md R56): the register read port
(10_state.md R36, R37), attach, drain (20_memory.md R55) and reset (70_reset_and_hazards.md R220). Each is applied
to the state from whose port the action has been taken. -/

namespace Sys2Proof.Machine

/-- `NUM_SLOTS`, the constant the PARAM register reads (10_state.md R35). -/
def State.numSlots (s : State) : Nat := s.slots.length

/-- `OUT_COUNT` (10_state.md R34): it wraps modulo 2^32. -/
def State.outCount (s : State) : Word := BitVec.ofNat 32 s.snk.length

/-- `IN_LEN` (10_state.md R33). -/
def State.inLen (s : State) : Word := BitVec.ofNat 32 s.src.length

/-- `EXCLk`, the `k`-th 32 bits of the mask (10_state.md R32). -/
def State.exclWord (s : State) (k : Nat) : Word := s.excl.extractLsb' (32 * k) 32

/-- The register map (10_state.md R36, R37). -/
def State.register (s : State) (n : BitVec 8) : Word :=
  match n.toNat with
  | 0x00 => s.status
  | 0x01 => s.low
  | 0x02 => s.high
  | 0x03 => s.code
  | 0x04 => s.rLo.setWidth 32
  | 0x05 => s.rHi.setWidth 32
  | 0x06 => s.rTot.setWidth 32
  | 0x07 => s.rSym.setWidth 32
  | 0x08 => s.rF.setWidth 32
  | 0x09 => s.rCnt.setWidth 32
  | 0x0A => s.outCount
  | 0x0B => s.inPos
  | 0x0C => s.inLen
  | 0x0D => BitVec.ofNat 32 s.numSlots
  | 0x0E => s.fcmd.extractLsb' 0 32
  | 0x0F => s.fcmd.extractLsb' 32 32
  | k => if k < 0x18 then s.exclWord (k - 0x10) else 0#32

/-- What the read port delivers: the register, or, while `BUSY = 1` and for any register but STATUS, a free value
(70_reset_and_hazards.md R234, log 4). -/
def State.readPort (s : State) (n : BitVec 8) : Word :=
  if s.busy ∧ n ≠ 0#8 then Config.busyRead n s.replies.length else s.register n

/-- Read register `n`: the value joins `replies`, and no other state changes (20_memory.md R56). -/
def hostRead (n : BitVec 8) (s : State) : Out := .next { s with replies := s.replies ++ [(n, s.readPort n)] }

/-- Attach `bytes` (20_memory.md R56, 10_state.md R33). -/
def hostAttach (bytes : List Byte) (s : State) : Out :=
  if s.busy then .refused .attachWhileBusy
  else if 2 ^ 32 ≤ bytes.length then .refused .sourceTooLong
  else .next { s with src := bytes, inPos := 0#32, pend := false }

/-- Drain up to `n` bytes: only the hidden occupancy changes (20_memory.md R55). -/
def hostDrain (n : Nat) (s : State) : Out := .next { s with undrained := s.undrained - n }

/-- Reset (70_reset_and_hazards.md R220): every piece of the block's state takes its reset value; the number of slots
is the block's own, and `port` and `replies` are the host's. -/
def hostReset (s : State) : Out :=
  .next { State.resetWith s.numSlots with port := s.port, replies := s.replies }

end Sys2Proof.Machine
end

