-- ==== Sys2Proof/Machine/Step.lean ====
section
/-! DEFINITION. One step of the machine: the oldest pending action of the host is carried out (20_memory.md R56, R62).
The block fetches nothing (10_state.md R24); the command words it executes are the ones the host issues. -/

namespace Sys2Proof.Machine

/-- One step. With nothing pending the block holds its state (60_exceptions.md R209). A command presented while
`BUSY = 1` waits in the port (20_memory.md R56, log 6). -/
def step (s : State) : Host.Outcome State Fault Refusal :=
  match s.port with
  | [] => .next s
  | .issue w :: rest => if s.busy then .next s else runCommand w (s.accept rest)
  | .read n :: rest => hostRead n { s with port := rest }
  | .attach bytes :: rest => hostAttach bytes { s with port := rest }
  | .drain n :: rest => hostDrain n { s with port := rest }
  | .reset :: rest => hostReset { s with port := rest }

/-- The host issues the word with bits `w` before anything else it has pending (log 1). -/
def State.withFetchWord (s : State) (nbits w : Nat) : State :=
  { s with port := .issue (BitVec.ofNat 64 (w % 2 ^ nbits)) :: s.port }

end Sys2Proof.Machine
end

