-- ==== Sys2Proof/Safety.lean ====
section
/-! DEFINITION. The terms claims are made in: the invariants of 10_state.md R27, R31 and R41, what the tables of
10_state.md R23 and 60_exceptions.md R201 allow each command, runs that meet no fault, coder sessions
(41_range_coder.md R118), and states that differ only where no command can look (10_state.md R40). -/

namespace Sys2Proof.Machine

/-! ### Invariants -/

/-- 10_state.md R41 items 1 to 5 and the Fenwick invariant R31, for one slot record that is valid. -/
abbrev Slot.Inv (m : Slot) : Prop :=
  m.valid = true →
    m.total.toNat = m.cumlo 257 ∧ 1 ≤ m.total.toNat ∧ m.total.toNat < m.thr ∧ 1 ≤ m.cntAt 256 ∧
    m.uniq.toNat = m.seenBytes ∧ (∀ i < 257, m.cntAt i < 2 ^ 15) ∧
    ∀ j < 257, m.fenAt (j + 1) = fenNode m.counts (j + 1)

/-- The interval invariants of 10_state.md R27. -/
abbrev State.CoderInv (s : State) : Prop :=
  (s.mode ≠ .idle → s.low.toNat < s.high.toNat ∧ 2 ^ 24 ≤ (s.low ^^^ s.high).toNat) ∧
  (s.mode = .dec → s.low.toNat ≤ s.code.toNat ∧ s.code.toNat ≤ s.high.toNat)

/-- What holds of every reachable state whether or not a command is executing: the ranges of 00_scope.md R6 and
10_state.md R22, R33, the fault record of 60_exceptions.md R200, and the two invariants above. That no more bytes are
undrained than `SNK` holds rests on the model's reading of reset and `RC_ENC_INIT` (log 7). -/
abbrev State.Sound (s : State) : Prop :=
  1 ≤ s.numSlots ∧ s.numSlots ≤ Config.maxSlots ∧ (∀ m ∈ s.slots, m.Inv) ∧ s.CoderInv ∧ s.rSym.toNat ≤ 256 ∧
  s.inPos.toNat ≤ s.src.length ∧ s.src.length < 2 ^ 32 ∧ s.undrained ≤ s.snk.length ∧
  (s.fault = false → s.cause = .none ∧ s.fopc = 0#8 ∧ s.fcmd = 0#64) ∧ (s.fault = true → s.cause ≠ .none)

/-- What holds at every command boundary: `Sound`, and `BUSY = 0` (10_state.md R38). -/
abbrev State.Inv (s : State) : Prop := s.Sound ∧ s.busy = false

/-! ### What the tables allow -/

/-- The six result registers (10_state.md R22). -/
inductive ResultReg where
  | rLo
  | rHi
  | rTot
  | rSym
  | rF
  | rCnt
deriving DecidableEq, Repr

/-- The value a result register holds. -/
def State.result (s : State) : ResultReg → Nat
  | .rLo => s.rLo.toNat
  | .rHi => s.rHi.toNat
  | .rTot => s.rTot.toNat
  | .rSym => s.rSym.toNat
  | .rF => s.rF.toNat
  | .rCnt => s.rCnt.toNat

end Sys2Proof.Machine

namespace Sys2Proof

open Machine

/-- The causes a command can raise once its word is legal (60_exceptions.md R201 less `ILLEGAL`). -/
def Instr.causes : Instr → List Cause
  | .nop | .fltClr | .rcEncInit | .rcDecInit | .exclClr => []
  | .rcEnc _ => [.badMode, .badOperand, .emptyInterval]
  | .rcEncFinish => [.badMode]
  | .rcGetfreq _ => [.badMode, .badOperand]
  | .rcDec _ => [.badMode, .badOperand, .emptyInterval, .desync]
  | .mInitEsc _ _ | .mInitUni _ _ => [.badSlot]
  | .mCum _ _ | .mBump _ _ | .mCnt _ _ | .mWbCum _ _ | .mWbCumEx _ _ => [.badSlot, .slotInvalid, .badSym]
  | .mFind _ _ | .mWbFind _ _ | .mWbFindEx _ _ => [.badSlot, .slotInvalid, .badFreq]
  | .mTotal _ | .mUniq _ | .mWbTotal _ | .mWbTotalEx _ | .exclAdd _ => [.badSlot, .slotInvalid]

/-- The result registers a command writes (10_state.md R23). -/
def Instr.resultWrites : Instr → List ResultReg
  | .rcGetfreq _ => [.rF]
  | .mCum _ _ | .mWbCum _ _ | .mWbCumEx _ _ => [.rLo, .rHi, .rTot]
  | .mFind _ _ | .mWbFind _ _ | .mWbFindEx _ _ => [.rLo, .rHi, .rTot, .rSym]
  | .mTotal _ | .mWbTotal _ | .mWbTotalEx _ => [.rTot]
  | .mCnt _ _ | .mUniq _ => [.rCnt]
  | .nop | .fltClr | .rcEncInit | .rcEnc _ | .rcEncFinish | .rcDecInit | .rcDec _ | .mInitEsc _ _ | .mInitUni _ _
  | .mBump _ _ | .exclClr | .exclAdd _ => []

/-- The slot whose record a command may write (10_state.md R30, 42_model257.md R130, R131, R135). -/
def Instr.writesSlot : Instr → Option Nat
  | .mInitEsc slot _ | .mInitUni slot _ | .mBump slot _ => some slot
  | .nop | .fltClr | .rcEncInit | .rcEnc _ | .rcEncFinish | .rcDecInit | .rcGetfreq _ | .rcDec _ | .mCum _ _
  | .mFind _ _ | .mTotal _ | .mCnt _ _ | .mUniq _ | .mWbTotal _ | .mWbCum _ _ | .mWbFind _ _ | .mWbTotalEx _
  | .mWbCumEx _ _ | .mWbFindEx _ _ | .exclClr | .exclAdd _ => none

/-- The slot a command names: every format M command names one (30_encoding.md R72, R76). -/
def Instr.slotOperand : Instr → Option Nat
  | .mInitEsc slot _ | .mInitUni slot _ | .mCum slot _ | .mFind slot _ | .mBump slot _ | .mTotal slot | .mCnt slot _
  | .mUniq slot | .mWbTotal slot | .mWbCum slot _ | .mWbFind slot _ | .mWbTotalEx slot | .mWbCumEx slot _
  | .mWbFindEx slot _ | .exclAdd slot => some slot
  | .nop | .fltClr | .rcEncInit | .rcEnc _ | .rcEncFinish | .rcDecInit | .rcGetfreq _ | .rcDec _ | .exclClr => none

/-- The symbol operand of a command that has one (30_encoding.md R74). -/
def Instr.symOperand : Instr → Option SymOperand
  | .mCum _ o | .mBump _ o | .mCnt _ o | .mWbCum _ o | .mWbCumEx _ o => some o
  | .nop | .fltClr | .rcEncInit | .rcEnc _ | .rcEncFinish | .rcDecInit | .rcGetfreq _ | .rcDec _ | .mInitEsc _ _
  | .mInitUni _ _ | .mFind _ _ | .mTotal _ | .mUniq _ | .mWbTotal _ | .mWbFind _ _ | .mWbTotalEx _ | .mWbFindEx _ _
  | .exclClr | .exclAdd _ => none

end Sys2Proof

namespace Sys2Proof.Machine

/-! ### The byte source, read without state -/

/-- The byte the source gives at index `k`: 0 past the end (20_memory.md R52). -/
def State.srcByte (s : State) (k : Nat) : Nat := (s.src.getD k 0#8).toNat

/-- The `k` bytes from `IN_POS` on, read big-endian (20_memory.md R57). -/
def State.srcBytes (s : State) : (k : Nat) → Nat
  | 0 => 0
  | k + 1 => State.srcBytes s k * 256 + s.srcByte (s.inPos.toNat + k)

/-! ### What one renormalization does, in closed form -/

/-- How many leading bytes two 32-bit numbers share: the shift steps `Renorm` takes from them (41_range_coder.md R102,
R103). -/
def leadingBytes (a b : Nat) : Nat :=
  if a / 2 ^ 24 ≠ b / 2 ^ 24 then 0
  else if a / 2 ^ 16 ≠ b / 2 ^ 16 then 1
  else if a / 2 ^ 8 ≠ b / 2 ^ 8 then 2
  else if a ≠ b then 3
  else 4

/-- The first `k` bytes of a 32-bit number, the highest first (20_memory.md R57). -/
def topBytes (v k : Nat) : List Byte := (List.range k).map fun j => BitVec.ofNat 8 (v / 256 ^ (3 - j))

/-- The state after `k` shift steps of the encoder from the narrowed interval `[nl, nh]` (41_range_coder.md R102). -/
def State.encodedBy (s : State) (nl nh k : Nat) : State :=
  { s with
    low := BitVec.ofNat 32 (nl * 256 ^ k), high := BitVec.ofNat 32 (nh * 256 ^ k + (256 ^ k - 1))
    snk := s.snk ++ topBytes nl k, undrained := s.undrained + k }

/-- The state after `k` shift steps of the decoder from the narrowed interval `[nl, nh]` (41_range_coder.md R102,
20_memory.md R52). -/
def State.decodedBy (s : State) (nl nh k : Nat) : State :=
  { s with
    low := BitVec.ofNat 32 (nl * 256 ^ k), high := BitVec.ofNat 32 (nh * 256 ^ k + (256 ^ k - 1))
    code := BitVec.ofNat 32 (s.code.toNat * 256 ^ k + s.srcBytes k)
    inPos := BitVec.ofNat 32 (min (s.inPos.toNat + k) s.src.length)
    pend := s.pend || decide (s.src.length < s.inPos.toNat + k) }

/-! ### Runs and sessions -/

/-- The state after a list of commands of which none faults; `none` when one does. -/
def runClean : List Instr → State → Option State
  | [], s => some s
  | i :: is, s =>
    match exec i s with
    | .next t => if t.fault then none else runClean is t
    | _ => none

/-- An interval `(lo, hi, tot)` as an immediate operand. -/
def immediate (iv : Nat × Nat × Nat) : IvOperand := .imm iv.1 iv.2.1 iv.2.2

/-- An encoder session up to its flush (41_range_coder.md R118). -/
def encoding (ivs : List (Nat × Nat × Nat)) : List Instr :=
  .rcEncInit :: ivs.map fun iv => .rcEnc (immediate iv)

/-- A decoder session with the same intervals (41_range_coder.md R118). -/
def decoding (ivs : List (Nat × Nat × Nat)) : List Instr :=
  .rcDecInit :: ivs.flatMap fun iv => [.rcGetfreq (.imm iv.2.2), .rcDec (immediate iv)]

/-! ### What no command can see -/

/-- Two slot records that no command tells apart: equal, or both invalid (10_state.md R40). -/
def Slot.Alike (m n : Slot) : Prop := m = n ∨ (m.valid = false ∧ n.valid = false)

/-- Two states that differ at most in the contents of invalid slots. -/
def State.Alike (s t : State) : Prop :=
  { s with slots := [] } = { t with slots := [] } ∧ List.Forall₂ Slot.Alike s.slots t.slots

/-- Two answers of the same kind, with next states that are alike and refusals that are equal. -/
def Out.Alike : Out → Out → Prop
  | .next s, .next t => s.Alike t
  | .refused r, .refused q => r = q
  | _, _ => False

end Sys2Proof.Machine
end

