-- ==== Sys2Proof/Certificates/Slice0/Obligations.lean ====
section
/-! DEFINITION. The statements for the provers. Each docstring names the rules of spec/ it rests on. A clause that
rests on a choice of this model names its log entry (notes/assumptions/). -/

open Sys2Proof Sys2Proof.Machine

/-! ### Encoding (30_encoding.md) -/

/-- R71 to R76: every command whose operands fit their fields is read back from its word. -/
def Obligations.DecodeReadsBackEncode : Prop :=
  ∀ i : Instr, i.wellFormed = true → decode (encode i) = .ok i

/-- R70 to R77: a word the decoder accepts is the one word of its command, and the command's operands fit. -/
def Obligations.LegalWordIsItsEncoding : Prop :=
  ∀ (w : CmdWord) (i : Instr), decode w = .ok i → i.wellFormed = true ∧ encode i = w

/-- R77: a word is legal iff its opcode is one of the 24 and every bit outside `used` is 0; the table of masks says
the same, and the decoder accepts exactly the legal words. -/
def Obligations.LegalMeansOnlyUsedBits : Prop :=
  (∀ (op : Nat) (b : Bool), (used op b).isSome = true ↔
    op ∈ [0x00, 0x01, 0x20, 0x21, 0x22, 0x28, 0x29, 0x2A, 0x40, 0x41, 0x42, 0x43, 0x44, 0x45, 0x46, 0x47, 0x48, 0x49,
      0x4A, 0x4C, 0x4D, 0x4E, 0x50, 0x51]) ∧
  ∀ w : CmdWord,
    (legal w = true ↔ ∃ u, used (opc w) (sBit w) = some u ∧ w &&& ~~~u = 0#64) ∧
    ((∃ i, decode w = .ok i) ↔ legal w = true)

/-- R78: the three kinds of illegal words, and that the block faults on one with `ILLEGAL` and writes nothing else. -/
def Obligations.IllegalWordsFault : Prop :=
  (∀ w : CmdWord,
    (decode w = .error .undefinedOpcode ↔
      (0x02 ≤ opc w ∧ opc w ≤ 0x1F) ∨ (0x23 ≤ opc w ∧ opc w ≤ 0x27) ∨ (0x2B ≤ opc w ∧ opc w ≤ 0x3F) ∨ opc w = 0x4B ∨
        opc w = 0x4F ∨ (0x52 ≤ opc w ∧ opc w ≤ 0xFF)) ∧
    (decode w = .error .reservedBit → ∃ u, used (opc w) (sBit w) = some u ∧ w &&& ~~~u ≠ 0#64) ∧
    (decode w = .error .misusedS → sBit w = true ∧ ∃ u, used (opc w) (sBit w) = some u ∧ w &&& ~~~u ≠ 0#64) ∧
    (legal w = false ↔ ∃ e, decode w = .error e)) ∧
  ∀ (s : State) (w : CmdWord) (rest : List HostAction), s.port = .issue w :: rest → s.busy = false → s.fault = false →
    legal w = false →
    step s = .next { s with
      port := rest, fault := true, cause := .illegal, fopc := w.extractLsb' 56 8, fcmd := w }

/-- R79: the word 0 is `NOP`, the only word of `NOP`, and opcode 0 with any other bit set is illegal. -/
def Obligations.NopIsTheOnlyNopWord : Prop :=
  decode 0#64 = .ok .nop ∧ (∀ w : CmdWord, decode w = .ok .nop → w = 0#64) ∧
  ∀ w : CmdWord, opc w = 0x00 → w ≠ 0#64 → ∃ e, decode w = .error e

/-- R80, R82: words written out in the spec, one of each format and operand form, and their commands. -/
def Obligations.SampleWordsDecode : Prop :=
  decode 0x2100010100020001#64 = .ok (.rcEnc (.imm 1 2 257)) ∧
  decode 0x2180000000000000#64 = .ok (.rcEnc .regs) ∧
  decode 0x2900010100000000#64 = .ok (.rcGetfreq (.imm 257)) ∧
  decode 0x2A00010100420041#64 = .ok (.rcDec (.imm 65 66 257)) ∧
  decode 0x4000000180000000#64 = .ok (.mInitEsc 1 true) ∧
  decode 0x4200000000410000#64 = .ok (.mCum 0 (.imm 65)) ∧
  decode 0x4300000200000064#64 = .ok (.mFind 2 (.imm 100)) ∧
  decode 0x4480000000000000#64 = .ok (.mBump 0 .reg) ∧
  decode 0x4700000100000000#64 = .ok (.mUniq 1) ∧
  decode 0x4A80000100000000#64 = .ok (.mWbFind 1 .reg) ∧
  decode 0x5000000000000000#64 = .ok .exclClr ∧
  decode 0x2101000200010000#64 = .error .reservedBit ∧
  decode 0x4580000000000000#64 = .error .misusedS

/-! ### The command port -/

/-- 10_state.md R20, 20_memory.md R56, R62, 30_encoding.md R70: when the host's next action issues a legal word that
the block accepts, the step is `exec` of the decoded command, with the action taken and `BUSY` set while the command
runs, and `BUSY` clear after it. -/
def Obligations.StepRunsTheIssuedCommand : Prop :=
  ∀ (s : State) (w : CmdWord) (rest : List HostAction) (i : Instr),
    s.port = .issue w :: rest → s.busy = false →
    (s.fault = false ∨ w = 0x0000000000000000#64 ∨ w = 0x0100000000000000#64) → decode w = .ok i →
    ∃ t, exec i { s with port := rest, busy := true } = .next t ∧ step s = .next { t with busy := false }

/-- 10_state.md R38, 20_memory.md R56: no command reads or writes `BUSY`, the port or the read port's deliveries, so a
command does the same inside the bracket of a step as outside it. -/
def Obligations.CommandsDoNotSeeThePort : Prop :=
  ∀ (i : Instr) (s t : State), exec i s = .next t →
    t.port = s.port ∧ t.busy = s.busy ∧ t.replies = s.replies ∧
    ∀ (p : List HostAction) (b : Bool) (r : List (BitVec 8 × Word)),
      exec i { s with port := p, busy := b, replies := r } = .next { t with port := p, busy := b, replies := r }

/-- 60_exceptions.md R203: what becomes of a word while `FAULT = 1`. -/
def Obligations.FaultedBlockDiscards : Prop :=
  ∀ (s : State) (w : CmdWord) (rest : List HostAction), s.port = .issue w :: rest → s.busy = false → s.fault = true →
    (w ≠ 0x0100000000000000#64 → step s = .next { s with port := rest }) ∧
    (w = 0x0100000000000000#64 →
      step s = .next { s with port := rest, fault := false, cause := .none, fopc := 0#8, fcmd := 0#64 })

/-- 60_exceptions.md R209, 20_memory.md R56: with no pending action the block holds its state, and a command presented
while `BUSY = 1` waits in the port (log 6). -/
def Obligations.BlockHoldsItsState : Prop :=
  ∀ s : State, (s.port = [] → step s = .next s) ∧
    ∀ (w : CmdWord) (rest : List HostAction), s.port = .issue w :: rest → s.busy = true → step s = .next s

/-! ### Faults -/

/-- 60_exceptions.md R201, R202: a command taken with `FAULT = 0` either faults with a cause of its row, and then the
four fault fields are all that changed, or completes without touching them. -/
def Obligations.FaultsArePreciseAndListed : Prop :=
  ∀ (s : State) (w : CmdWord) (rest : List HostAction),
    s.port = .issue w :: rest → s.busy = false → s.fault = false →
    (∃ c, step s = .next { s with
        port := rest, fault := true, cause := c, fopc := w.extractLsb' 56 8, fcmd := w } ∧
      ((c = .illegal ∧ ∃ e, decode w = .error e) ∨ ∃ i, decode w = .ok i ∧ c ∈ i.causes)) ∨
    ∃ i t, decode w = .ok i ∧ step s = .next t ∧ t.fault = false ∧
      (i ≠ .fltClr → t.cause = s.cause ∧ t.fopc = s.fopc ∧ t.fcmd = s.fcmd)

/-- 60_exceptions.md R205: from `FAULT = 1`, only `FLT_CLR` and reset lead to `FAULT = 0`, `FLT_CLR` changes the fault
fields alone, and until then the fault record keeps its values. -/
def Obligations.OnlyFltClrOrResetEndsAFault : Prop :=
  ∀ s t : State, s.fault = true → step s = .next t →
    (t.fault = true ∧ t.cause = s.cause ∧ t.fopc = s.fopc ∧ t.fcmd = s.fcmd) ∨
    (∃ rest, s.port = .issue 0x0100000000000000#64 :: rest ∧
      t = { s with port := rest, fault := false, cause := .none, fopc := 0#8, fcmd := 0#64 }) ∨
    ∃ rest, s.port = .reset :: rest ∧ t.fault = false ∧ t.cause = .none ∧ t.fopc = 0#8 ∧ t.fcmd = 0#64

/-- 60_exceptions.md R204, first bullet; 41_range_coder.md R111, R112, R114, R115: when and with what each range coder
command faults, one cause at a time in the order of priority. The word recorded is the encoding of the command, for ill-formed operands too
(log 8), and the range of an interval with `HIGH < LOW` is the model's (log 5). -/
def Obligations.CoderFaultPriority : Prop :=
  ∀ (s : State) (iv : IvOperand) (o : TotOperand) (lo hi tot : Nat), s.interval iv = (lo, hi, tot) →
    (s.mode ≠ .enc → exec (.rcEnc iv) s = .next (s.enterFault .badMode (encode (.rcEnc iv))) ∧
      exec .rcEncFinish s = .next (s.enterFault .badMode (encode .rcEncFinish))) ∧
    (s.mode ≠ .dec → exec (.rcDec iv) s = .next (s.enterFault .badMode (encode (.rcDec iv))) ∧
      exec (.rcGetfreq o) s = .next (s.enterFault .badMode (encode (.rcGetfreq o)))) ∧
    (s.mode = .dec → s.totOf o = 0 →
      exec (.rcGetfreq o) s = .next (s.enterFault .badOperand (encode (.rcGetfreq o)))) ∧
    (tot = 0 ∨ hi ≤ lo ∨ tot < hi →
      (s.mode = .enc → exec (.rcEnc iv) s = .next (s.enterFault .badOperand (encode (.rcEnc iv)))) ∧
      (s.mode = .dec → exec (.rcDec iv) s = .next (s.enterFault .badOperand (encode (.rcDec iv))))) ∧
    (tot ≠ 0 → lo < hi → hi ≤ tot → s.range * hi / tot ≤ s.range * lo / tot →
      (s.mode = .enc → exec (.rcEnc iv) s = .next (s.enterFault .emptyInterval (encode (.rcEnc iv)))) ∧
      (s.mode = .dec → exec (.rcDec iv) s = .next (s.enterFault .emptyInterval (encode (.rcDec iv))))) ∧
    (tot ≠ 0 → lo < hi → hi ≤ tot → s.range * lo / tot < s.range * hi / tot → s.mode = .dec →
      (s.code.toNat < s.low.toNat + s.range * lo / tot ∨ s.low.toNat + s.range * hi / tot ≤ s.code.toNat) →
      exec (.rcDec iv) s = .next (s.enterFault .desync (encode (.rcDec iv))))

/-- 60_exceptions.md R204, second bullet; 42_model257.md R132: when and with what each model command faults, one cause
at a time in the order of priority. The word recorded is the encoding of the command, for ill-formed operands too
(log 8). -/
def Obligations.ModelFaultPriority : Prop :=
  ∀ (s : State) (i : Instr) (k : Nat), i.slotOperand = some k →
    (s.slots.length ≤ k → exec i s = .next (s.enterFault .badSlot (encode i))) ∧
    ∀ m, s.slots[k]? = some m →
      (m.valid = false → Cause.slotInvalid ∈ i.causes → exec i s = .next (s.enterFault .slotInvalid (encode i))) ∧
      (m.valid = true →
        (∀ o, i.symOperand = some o → 256 < s.symOf o → exec i s = .next (s.enterFault .badSym (encode i))) ∧
        (∀ o, i = .mFind k o → m.total.toNat ≤ s.freqOf o → exec i s = .next (s.enterFault .badFreq (encode i))) ∧
        (∀ o, i = .mWbFind k o → m.wbt ≤ s.freqOf o → exec i s = .next (s.enterFault .badFreq (encode i))) ∧
        (∀ o, i = .mWbFindEx k o → m.wbtEx s.excl ≤ s.freqOf o →
          exec i s = .next (s.enterFault .badFreq (encode i))))

/-! ### The host's other actions -/

/-- 10_state.md R36, R37: what a read of each register delivers, and that it changes nothing else. `replies` is where
the model keeps what was delivered (log 1). -/
def Obligations.RegisterReadMap : Prop :=
  ∀ (s : State) (n : BitVec 8) (rest : List HostAction), s.Inv → s.port = .read n :: rest →
    ∃ v : Word, step s = .next { s with port := rest, replies := s.replies ++ [(n, v)] } ∧
      (n = 0x00#8 → v = s.status) ∧ (n = 0x01#8 → v = s.low) ∧ (n = 0x02#8 → v = s.high) ∧ (n = 0x03#8 → v = s.code) ∧
      (n = 0x04#8 → v.toNat = s.rLo.toNat) ∧ (n = 0x05#8 → v.toNat = s.rHi.toNat) ∧
      (n = 0x06#8 → v.toNat = s.rTot.toNat) ∧ (n = 0x07#8 → v.toNat = s.rSym.toNat) ∧
      (n = 0x08#8 → v.toNat = s.rF.toNat) ∧ (n = 0x09#8 → v.toNat = s.rCnt.toNat) ∧
      (n = 0x0A#8 → v.toNat = s.snk.length % 2 ^ 32) ∧ (n = 0x0B#8 → v = s.inPos) ∧
      (n = 0x0C#8 → v.toNat = s.src.length) ∧ (n = 0x0D#8 → v.toNat = s.slots.length) ∧
      (n = 0x0E#8 → v.toNat = s.fcmd.toNat % 2 ^ 32) ∧ (n = 0x0F#8 → v.toNat = s.fcmd.toNat / 2 ^ 32) ∧
      (∀ k < 8, n = BitVec.ofNat 8 (0x10 + k) → ∀ j < 32, v.getLsbD j = s.excl.getLsbD (32 * k + j)) ∧
      (0x18 ≤ n.toNat → v = 0#32)

/-- 10_state.md R26, R29, 60_exceptions.md R200: the fields of STATUS and the codes they hold. -/
def Obligations.StatusFields : Prop :=
  ∀ s : State,
    s.status.getLsbD 0 = s.busy ∧ s.status.getLsbD 1 = s.fault ∧
    (s.status.extractLsb' 2 2).toNat = (match s.mode with | .idle => 0 | .enc => 1 | .dec => 2) ∧
    s.status.getLsbD 4 = s.pend ∧ s.status.getLsbD 5 = s.rsc ∧ s.status.extractLsb' 6 2 = 0#2 ∧
    (s.status.extractLsb' 8 8).toNat = (match s.cause with
      | .none => 0 | .illegal => 1 | .badMode => 2 | .badOperand => 3 | .emptyInterval => 4 | .desync => 5
      | .badSlot => 6 | .slotInvalid => 7 | .badSym => 8 | .badFreq => 9) ∧
    s.status.extractLsb' 16 8 = s.fopc ∧ s.status.extractLsb' 24 8 = 0#8

/-- 70_reset_and_hazards.md R234, 10_state.md R38: a read while `BUSY = 1` delivers STATUS as it is and, for every
other register, some value of which nothing is known (log 4). -/
def Obligations.BusyReadDeliversStatusOnly : Prop :=
  ∀ (s : State) (n : BitVec 8) (rest : List HostAction), s.busy = true → s.port = .read n :: rest →
    ∃ v : Word, step s = .next { s with port := rest, replies := s.replies ++ [(n, v)] } ∧
      (n = 0x00#8 → v = s.status ∧ v.getLsbD 0 = true)

/-- 20_memory.md R55, R56, 70_reset_and_hazards.md R235: attach sets the source, its cursor and `PEND` and nothing
else, and is no action of a busy block (a refusal); drain changes the hidden occupancy alone (log 7), busy or not. -/
def Obligations.AttachAndDrain : Prop :=
  ∀ (s : State) (bytes : List Byte) (n : Nat) (rest : List HostAction),
    (s.port = .attach bytes :: rest → s.busy = false → bytes.length < 2 ^ 32 →
      step s = .next { s with port := rest, src := bytes, inPos := 0#32, pend := false }) ∧
    (s.port = .attach bytes :: rest → s.busy = true → step s = .refused .attachWhileBusy) ∧
    (s.port = .drain n :: rest → step s = .next { s with port := rest, undrained := s.undrained - n })

/-- 70_reset_and_hazards.md R220, 10_state.md R40: reset, at any time, gives every piece of state its reset value. The
slots keep their number (log 11); the host's pending actions and what was delivered to it are no state of the block
(log 1); that no byte is left undrained is the model's choice (log 7). -/
def Obligations.ResetAction : Prop :=
  ∀ (s : State) (rest : List HostAction), s.port = .reset :: rest →
    ∃ t, step s = .next t ∧ t.port = rest ∧ t.replies = s.replies ∧ t.slots.length = s.slots.length ∧
      (∀ m ∈ t.slots, m.valid = false) ∧ t.mode = .idle ∧ t.low = 0#32 ∧ t.high = 0#32 ∧ t.code = 0#32 ∧
      (∀ r, t.result r = 0) ∧ t.fault = false ∧ t.cause = .none ∧ t.fopc = 0#8 ∧ t.fcmd = 0#64 ∧ t.pend = false ∧
      t.rsc = false ∧ t.busy = false ∧ t.excl = 0#256 ∧ t.src = [] ∧ t.inPos = 0#32 ∧ t.snk = [] ∧ t.undrained = 0

/-- 10_state.md R40: the values of the state right after reset. The number of slots, 4, is the model's (log 2), and so
are the contents of the invalid slots (log 3), of which nothing is said here, the sink buffer's occupancy (log 7), and
the pending actions and deliveries (log 1). -/
def Obligations.ResetValues : Prop :=
  State.reset.mode = .idle ∧ State.reset.low = 0#32 ∧ State.reset.high = 0#32 ∧ State.reset.code = 0#32 ∧
  (∀ r, State.reset.result r = 0) ∧ State.reset.fault = false ∧ State.reset.cause = .none ∧
  State.reset.fopc = 0#8 ∧ State.reset.fcmd = 0#64 ∧ State.reset.pend = false ∧ State.reset.rsc = false ∧
  State.reset.busy = false ∧ State.reset.slots.length = 4 ∧ (∀ m ∈ State.reset.slots, m.valid = false) ∧
  State.reset.excl = 0#256 ∧ State.reset.src = [] ∧ State.reset.inPos = 0#32 ∧ State.reset.snk = [] ∧
  State.reset.undrained = 0 ∧ State.reset.port = [] ∧ State.reset.replies = []

/-- 20_memory.md R52: `SrcGet()`, inside the source and past its end. -/
def Obligations.SourceReadContract : Prop :=
  ∀ s : State, s.src.length < 2 ^ 32 →
    (∀ h : s.inPos.toNat < s.src.length,
      s.srcGet = (s.src[s.inPos.toNat], { s with inPos := s.inPos + 1#32 }) ∧
      (s.inPos + 1#32).toNat = s.inPos.toNat + 1) ∧
    (s.src.length ≤ s.inPos.toNat → s.srcGet = (0#8, { s with pend := true }))

/-! ### Invariants of the whole machine -/

/-- 10_state.md R27, R31, R38, R41: the state after reset satisfies the invariant, for every number of slots the spec
allows (00_scope.md R6) and for the model's own choice (log 2). Its clause on the sink buffer's occupancy is the
model's (log 7). -/
def Obligations.ResetSatisfiesInvariant : Prop :=
  State.reset.Inv ∧ ∀ n : Nat, 1 ≤ n → n ≤ 65536 → (State.resetWith n).Inv

/-- 10_state.md R27, R31, R38, R41: every step, of a command or of a host action, keeps the invariant: the slot
invariants R41.1 to R41.5, the Fenwick invariant R31, the coder's interval invariants R27, `R_SYM ≤ 256`, the
source cursor inside the source, the fault record consistent, and `BUSY = 0` at a command boundary. One clause more,
that no more bytes are undrained than the sink holds, rests on the model's reading of `RC_ENC_INIT` and of reset
(log 7). -/
def Obligations.StepKeepsInvariant : Prop :=
  ∀ s t : State, s.Inv → step s = .next t → t.Inv

/-- 10_state.md R40: no step tells apart two states that differ in the contents of invalid slots only. -/
def Obligations.InvalidSlotContentsUnobservable : Prop :=
  ∀ s t : State, s.Alike t → Out.Alike (step s) (step t)

/-- 10_state.md R23: a command leaves every result register outside its row as it was, and a command that faults
leaves all six. -/
def Obligations.ResultRegisterWriters : Prop :=
  ∀ (i : Instr) (s t : State) (r : ResultReg), exec i s = .next t →
    (r ∉ i.resultWrites → t.result r = s.result r) ∧ (s.fault = false → t.fault = true → t.result r = s.result r)

/-- 10_state.md R25, R26: which commands write `LOW`, `HIGH`, `CODE` and `MODE`. -/
def Obligations.CoderRegisterWriters : Prop :=
  ∀ (i : Instr) (s t : State), exec i s = .next t →
    (t.low ≠ s.low ∨ t.high ≠ s.high →
      i = .rcEncInit ∨ i = .rcDecInit ∨ (∃ iv, i = .rcEnc iv) ∨ ∃ iv, i = .rcDec iv) ∧
    (t.code ≠ s.code → i = .rcDecInit ∨ ∃ iv, i = .rcDec iv) ∧
    (t.mode ≠ s.mode →
      (i = .rcEncInit ∧ t.mode = .enc) ∨ (i = .rcDecInit ∧ t.mode = .dec) ∨ (i = .rcEncFinish ∧ t.mode = .idle))

/-- 10_state.md R28, R32, 20_memory.md R51, R54: which commands write the byte source's cursor, `PEND`, the sink, `RSC`
and the exclusion mask; no command writes the source. -/
def Obligations.PortAndFlagWriters : Prop :=
  ∀ (i : Instr) (s t : State), exec i s = .next t →
    t.src = s.src ∧
    (t.inPos ≠ s.inPos ∨ t.pend ≠ s.pend → i = .rcDecInit ∨ ∃ iv, i = .rcDec iv) ∧
    (t.snk ≠ s.snk → (i = .rcEncInit ∧ t.snk = []) ∨
      ((i = .rcEncFinish ∨ ∃ iv, i = .rcEnc iv) ∧ ∃ bs, t.snk = s.snk ++ bs ∧ bs.length ≤ 4)) ∧
    (t.rsc ≠ s.rsc → ∃ k o, i = .mBump k o) ∧
    (t.excl ≠ s.excl → i = .exclClr ∨ ∃ k, i = .exclAdd k)

/-- 10_state.md R30, 20_memory.md R62: a command writes at most the record of the one slot it names, and only the two
init commands and `M_BUMP` write one; the number of slots never changes. -/
def Obligations.SlotWriters : Prop :=
  ∀ (i : Instr) (s t : State), exec i s = .next t →
    t.slots.length = s.slots.length ∧
    ∀ j, t.slots[j]? ≠ s.slots[j]? → i.writesSlot = some j

/-- 30_encoding.md R74: a command in the S-form completes exactly as its immediate form does with the result
registers' values for operands. -/
def Obligations.SFormTakesResultRegisters : Prop :=
  ∀ (s t : State) (k : Nat), s.fault = false → t.fault = false →
    (exec (.rcEnc .regs) s = .next t ↔
      exec (.rcEnc (.imm s.rLo.toNat s.rHi.toNat s.rTot.toNat)) s = .next t) ∧
    (exec (.rcDec .regs) s = .next t ↔
      exec (.rcDec (.imm s.rLo.toNat s.rHi.toNat s.rTot.toNat)) s = .next t) ∧
    (exec (.rcGetfreq .reg) s = .next t ↔ exec (.rcGetfreq (.imm s.rTot.toNat)) s = .next t) ∧
    (exec (.mCum k .reg) s = .next t ↔ exec (.mCum k (.imm s.rSym.toNat)) s = .next t) ∧
    (exec (.mBump k .reg) s = .next t ↔ exec (.mBump k (.imm s.rSym.toNat)) s = .next t) ∧
    (exec (.mCnt k .reg) s = .next t ↔ exec (.mCnt k (.imm s.rSym.toNat)) s = .next t) ∧
    (exec (.mWbCum k .reg) s = .next t ↔ exec (.mWbCum k (.imm s.rSym.toNat)) s = .next t) ∧
    (exec (.mWbCumEx k .reg) s = .next t ↔ exec (.mWbCumEx k (.imm s.rSym.toNat)) s = .next t) ∧
    (exec (.mFind k .reg) s = .next t ↔ exec (.mFind k (.imm s.rF.toNat)) s = .next t) ∧
    (exec (.mWbFind k .reg) s = .next t ↔ exec (.mWbFind k (.imm s.rF.toNat)) s = .next t) ∧
    (exec (.mWbFindEx k .reg) s = .next t ↔ exec (.mWbFindEx k (.imm s.rF.toNat)) s = .next t)

/-! ### Control (44_control.md) -/

/-- R180, R181: `NOP` changes nothing, and `FLT_CLR` clears the four fault fields and nothing else, in every state. -/
def Obligations.ControlCommandsComplete : Prop :=
  ∀ s : State, exec .nop s = .next s ∧
    exec .fltClr s = .next { s with fault := false, cause := .none, fopc := 0#8, fcmd := 0#64 }

/-! ### The range coder (41_range_coder.md) -/

/-- R101: `Narrow`, its two checks in their order, and that the interval it answers is not empty and lies inside
`[LOW, HIGH]`. -/
def Obligations.NarrowContract : Prop :=
  ∀ (s : State) (lo hi tot : Nat), s.low.toNat ≤ s.high.toNat →
    s.range = s.high.toNat - s.low.toNat + 1 ∧ 1 ≤ s.range ∧ s.range ≤ 2 ^ 32 ∧
    (tot = 0 ∨ hi ≤ lo ∨ tot < hi → s.narrow lo hi tot = .error .badOperand) ∧
    (tot ≠ 0 → lo < hi → hi ≤ tot → s.range * hi / tot ≤ s.range * lo / tot →
      s.narrow lo hi tot = .error .emptyInterval) ∧
    (tot ≠ 0 → lo < hi → hi ≤ tot → s.range * lo / tot < s.range * hi / tot →
      ∃ nl nh, s.narrow lo hi tot = .ok (nl, nh) ∧ nl = s.low.toNat + s.range * lo / tot ∧
        nh = s.low.toNat + s.range * hi / tot - 1 ∧ s.low.toNat ≤ nl ∧ nl ≤ nh ∧ nh ≤ s.high.toNat)

/-- R102: what `Renorm` does in the encoder from a narrowed interval, in closed form: one byte out for each leading
byte the two ends share, and nothing but `LOW`, `HIGH` and the sink changes. -/
def Obligations.EncoderRenormClosedForm : Prop :=
  ∀ (s : State) (nl nh : Nat), nl < 2 ^ 32 → nh < 2 ^ 32 →
    (s.setCoder nl nh).renorm false = s.encodedBy nl nh (leadingBytes nl nh)

/-- R102, 20_memory.md R52: what `Renorm` does in the decoder from a narrowed interval, in closed form: one byte in
for each leading byte the two ends share, zero bytes past the end of the source. -/
def Obligations.DecoderRenormClosedForm : Prop :=
  ∀ (s : State) (nl nh : Nat), nl < 2 ^ 32 → nh < 2 ^ 32 → s.inPos.toNat ≤ s.src.length → s.src.length < 2 ^ 32 →
    (s.setCoder nl nh).renorm true = s.decodedBy nl nh (leadingBytes nl nh)

/-- R103, R104, R105: how many shift steps a `Renorm` takes, and what holds when it ends; the bound `range ≥ 2` is
tight. -/
def Obligations.RenormEndsUnsettled : Prop :=
  (∀ (s : State) (dec : Bool) (nl nh : Nat), nl ≤ nh → nh < 2 ^ 32 →
    leadingBytes nl nh ≤ 4 ∧ (leadingBytes nl nh = 4 ↔ nl = nh) ∧
    ((s.setCoder nl nh).renorm dec).low.toNat < ((s.setCoder nl nh).renorm dec).high.toNat ∧
    2 ^ 24 ≤ (((s.setCoder nl nh).renorm dec).low ^^^ ((s.setCoder nl nh).renorm dec).high).toNat ∧
    2 ≤ ((s.setCoder nl nh).renorm dec).range ∧
    (∀ x < 2 ^ 16, ((s.setCoder nl nh).renorm dec).range * x < 2 ^ 48) ∧
    (nl = nh → ((s.setCoder nl nh).renorm dec).low = 0x00000000#32 ∧
      ((s.setCoder nl nh).renorm dec).high = 0xFFFFFFFF#32)) ∧
  ∃ s : State, s.low = 0x00FFFFFF#32 ∧ s.high = 0x01000000#32 ∧ 2 ^ 24 ≤ (s.low ^^^ s.high).toNat ∧ s.range = 2

/-- R106: `EMPTY_INTERVAL` needs `range < tot`, which in an unsettled interval needs two ends less than `2^16` apart
whose top bytes are neighbours. -/
def Obligations.EmptyIntervalNeedsStraddle : Prop :=
  ∀ (s : State) (lo hi tot : Nat), s.low.toNat < s.high.toNat → 2 ^ 24 ≤ (s.low ^^^ s.high).toNat → tot < 2 ^ 16 →
    s.narrow lo hi tot = .error .emptyInterval →
    s.range < tot ∧ s.range < 2 ^ 16 ∧ s.high.toNat / 2 ^ 24 = s.low.toNat / 2 ^ 24 + 1

/-- R110: `RC_ENC_INIT` completes in every state. That the hidden sink buffer is empty with the sink is the model's
reading (log 7). -/
def Obligations.EncInitCompletes : Prop :=
  ∀ s : State, exec .rcEncInit s =
    .next { s with mode := .enc, low := 0x00000000#32, high := 0xFFFFFFFF#32, snk := [], undrained := 0 }

/-- R111: `RC_ENC` completes in ENC mode with operands whose narrowed interval is not empty, in either operand form:
`LOW`, `HIGH` and the bytes emitted. The buffer's occupancy grows with them (log 7). -/
def Obligations.EncCompletes : Prop :=
  ∀ (s : State) (iv : IvOperand) (lo hi tot nl nh : Nat), s.mode = .enc → s.interval iv = (lo, hi, tot) →
    s.low.toNat ≤ s.high.toNat → tot ≠ 0 → lo < hi → hi ≤ tot → s.range * lo / tot < s.range * hi / tot →
    nl = s.low.toNat + s.range * lo / tot → nh = s.low.toNat + s.range * hi / tot - 1 →
    exec (.rcEnc iv) s = .next (s.encodedBy nl nh (leadingBytes nl nh))

/-- R112: `RC_ENC_FINISH` completes in ENC mode: the four bytes of `LOW`, the highest first, and IDLE. -/
def Obligations.EncFinishCompletes : Prop :=
  ∀ s : State, s.mode = .enc →
    exec .rcEncFinish s = .next { s with
      mode := .idle
      snk := s.snk ++ [s.low.extractLsb' 24 8, s.low.extractLsb' 16 8, s.low.extractLsb' 8 8, s.low.extractLsb' 0 8]
      undrained := s.undrained + 4 }

/-- R113: `RC_DEC_INIT` completes in every state: the whole interval, `CODE` from the next four bytes with zeros past
the end of the source, and `PEND` iff there were fewer than four. -/
def Obligations.DecInitCompletes : Prop :=
  ∀ s : State, s.inPos.toNat ≤ s.src.length → s.src.length < 2 ^ 32 →
    exec .rcDecInit s = .next { s with
      mode := .dec, low := 0x00000000#32, high := 0xFFFFFFFF#32
      code := BitVec.ofNat 32 (s.srcBytes 4)
      inPos := BitVec.ofNat 32 (min (s.inPos.toNat + 4) s.src.length)
      pend := decide (s.src.length < s.inPos.toNat + 4) }

/-- R114, R116: `RC_GETFREQ` completes in DEC mode with a nonzero total: the scaled frequency, and that it is below
the total and fits `R_F`. -/
def Obligations.GetfreqCompletes : Prop :=
  ∀ (s : State) (o : TotOperand), s.mode = .dec → s.low.toNat ≤ s.code.toNat → s.code.toNat ≤ s.high.toNat →
    s.totOf o ≠ 0 → s.totOf o < 2 ^ 16 →
    ∃ t, exec (.rcGetfreq o) s = .next t ∧ t = { s with rF := t.rF } ∧
      t.rF.toNat = ((s.code.toNat - s.low.toNat + 1) * s.totOf o - 1) / (s.high.toNat - s.low.toNat + 1) ∧
      t.rF.toNat ≤ s.totOf o - 1 ∧ s.totOf o - 1 < 2 ^ 16

/-- R115: `RC_DEC` completes in DEC mode with operands whose narrowed interval holds `CODE`, in either operand form:
`LOW`, `HIGH`, `CODE`, the bytes read, and `PEND` iff one was past the end. -/
def Obligations.DecCompletes : Prop :=
  ∀ (s : State) (iv : IvOperand) (lo hi tot nl nh : Nat), s.mode = .dec → s.interval iv = (lo, hi, tot) →
    s.low.toNat ≤ s.high.toNat → s.inPos.toNat ≤ s.src.length → s.src.length < 2 ^ 32 →
    tot ≠ 0 → lo < hi → hi ≤ tot → s.range * lo / tot < s.range * hi / tot →
    nl = s.low.toNat + s.range * lo / tot → nh = s.low.toNat + s.range * hi / tot - 1 →
    nl ≤ s.code.toNat → s.code.toNat ≤ nh →
    exec (.rcDec iv) s = .next (s.decodedBy nl nh (leadingBytes nl nh))

/-- R117, its first paragraph: after `RC_GETFREQ` with `tot`, an `RC_DEC` of any `(lo, hi, tot)` with `lo ≤ R_F < hi`
raises neither `EMPTY_INTERVAL` nor `DESYNC`, and with `hi ≤ tot` it completes; only the coder registers and the mode
need be as the query left them. -/
def Obligations.DecodeAfterGetfreqNeverDesyncs : Prop :=
  ∀ (s t u v : State) (o : TotOperand) (iv : IvOperand) (lo hi : Nat),
    s.mode = .dec → s.low.toNat ≤ s.code.toNat → s.code.toNat ≤ s.high.toNat → s.totOf o ≠ 0 → s.totOf o < 2 ^ 16 →
    exec (.rcGetfreq o) s = .next t →
    u.mode = .dec → u.low = t.low → u.high = t.high → u.code = t.code → u.fault = false → u.cause = .none →
    u.interval iv = (lo, hi, s.totOf o) → lo ≤ t.rF.toNat → t.rF.toNat < hi →
    exec (.rcDec iv) u = .next v →
    v.cause ≠ .emptyInterval ∧ v.cause ≠ .desync ∧ (hi ≤ s.totOf o → v.fault = false)

/-- R118: an encoder session without a fault and the decoder session with the same intervals on its output, step by
step: the scaled frequency points into the encoded interval, the two coders' `LOW` and `HIGH` agree, the decoder has
read four bytes more than the encoder had emitted, and in the end has read everything and nothing past it. -/
def Obligations.EncodeThenDecodeRoundTrip : Prop :=
  ∀ (s d e f : State) (ivs : List (Nat × Nat × Nat)), s.fault = false → d.fault = false →
    (∀ iv ∈ ivs, (immediate iv).wellFormed = true) →
    runClean (encoding ivs) s = some e → exec .rcEncFinish e = .next f →
    d.src = f.snk → d.inPos = 0#32 → f.snk.length < 2 ^ 32 →
    (∀ before after, ivs = before ++ after →
      ∃ e' d', runClean (encoding before) s = some e' ∧ runClean (decoding before) d = some d' ∧
        d'.low = e'.low ∧ d'.high = e'.high ∧ d'.inPos.toNat = e'.snk.length + 4 ∧ d'.pend = false ∧
        ∀ iv rest, after = iv :: rest →
          ∃ g, exec (.rcGetfreq (.imm iv.2.2)) d' = .next g ∧ g.fault = false ∧ iv.1 ≤ g.rF.toNat ∧
            g.rF.toNat < iv.2.1) ∧
    ∀ d', runClean (decoding ivs) d = some d' → d'.inPos.toNat = f.snk.length ∧ d'.pend = false

/-- R117, its second paragraph; 60_exceptions.md R211, 43_witten_bell_exclusion.md R170: the decode protocols of the
plain, the Witten-Bell and the exclusion view never fault, whatever the source holds and wherever its cursor is, and
leave the block in DEC mode with the slots as they were, ready for the next symbol. -/
def Obligations.DecodingNeverFaultsOnData : Prop :=
  ∀ (s : State) (k : Nat) (m : Slot), s.Sound → s.fault = false → s.mode = .dec → s.slots[k]? = some m →
    m.valid = true →
    ∀ protocol ∈ [[Instr.mTotal k, .rcGetfreq .reg, .mFind k .reg, .rcDec .regs],
        [Instr.mWbTotal k, .rcGetfreq .reg, .mWbFind k .reg, .rcDec .regs],
        [Instr.mWbTotalEx k, .rcGetfreq .reg, .mWbFindEx k .reg, .rcDec .regs]],
      ∃ t, runClean protocol s = some t ∧ t.mode = .dec ∧ t.slots = s.slots ∧ t.excl = s.excl ∧ t.rSym.toNat ≤ 256

/-! ### The model store (00_scope.md R12, 42_model257.md) -/

/-- 00_scope.md R12: the prefix sums the model computes are the sums R12 writes down, over any counts and any mask. -/
def Obligations.PrefixSumsAreSums : Prop :=
  ∀ (m : Slot) (e : ExclMask),
    (∀ i ≤ 257, m.cumlo i = ∑ j ∈ Finset.range i, m.cntAt j) ∧
    m.sumBytes = ∑ j ∈ Finset.range 256, m.cntAt j ∧
    m.seenBytes = ((Finset.range 256).filter fun j => 0 < m.cntAt j).card ∧
    (∀ i ≤ 257, m.cumloEx e i =
      ∑ j ∈ (Finset.range i).filter fun j => j ≤ 255 ∧ e.getLsbD j = false, m.cntAt j) ∧
    m.sumBytesEx e = ∑ j ∈ (Finset.range 256).filter fun j => e.getLsbD j = false, m.cntAt j ∧
    m.seenBytesEx e = ((Finset.range 256).filter fun j => 0 < m.cntAt j ∧ e.getLsbD j = false).card ∧
    m.wbt = m.sumBytes + max m.seenBytes 1 ∧ m.wbtEx e = m.sumBytesEx e + max (m.seenBytesEx e) 1

/-- R130, R131: the two init commands complete on every slot that exists, valid or not, and overwrite its record:
counts, total, unique count, threshold bit and Fenwick array. -/
def Obligations.InitCommandsComplete : Prop :=
  ∀ (s : State) (k : Nat) (th : Bool), k < s.slots.length →
    (∃ m, exec (.mInitEsc k th) s = .next { s with slots := s.slots.set k m } ∧ m.valid = true ∧ m.th = th ∧
      (∀ i < 256, m.cntAt i = 0) ∧ m.cntAt 256 = 1 ∧ m.total = 1#16 ∧ m.uniq = 0#9 ∧
      ∀ j < 257, m.fenAt (j + 1) = fenNode m.counts (j + 1)) ∧
    ∃ m, exec (.mInitUni k th) s = .next { s with slots := s.slots.set k m } ∧ m.valid = true ∧ m.th = th ∧
      (∀ i < 256, m.cntAt i = 1) ∧ m.cntAt 256 = 1 ∧ m.total = 257#16 ∧ m.uniq = 256#9 ∧
      ∀ j < 257, m.fenAt (j + 1) = fenNode m.counts (j + 1)

/-- R133: `M_CUM` completes on a valid slot with a symbol up to 256, in either operand form. -/
def Obligations.CumCompletes : Prop :=
  ∀ (s : State) (k : Nat) (o : SymOperand) (m : Slot), s.Sound → s.slots[k]? = some m → m.valid = true →
    s.symOf o ≤ 256 →
    ∃ t, exec (.mCum k o) s = .next t ∧ t = { s with rLo := t.rLo, rHi := t.rHi, rTot := t.rTot } ∧
      t.rLo.toNat = m.cumlo (s.symOf o) ∧ t.rHi.toNat = m.cumlo (s.symOf o) + m.cntAt (s.symOf o) ∧
      t.rTot = m.total ∧ t.rHi.toNat ≤ t.rTot.toNat ∧ t.rTot.toNat < 2 ^ 15

/-- R134, R140: `M_FIND` completes on a valid slot with a frequency below the total, in either operand form: the
symbol is the only one whose interval holds the frequency, and its interval is written with it. -/
def Obligations.FindCompletes : Prop :=
  ∀ (s : State) (k : Nat) (o : FreqOperand) (m : Slot), s.Sound → s.slots[k]? = some m → m.valid = true →
    s.freqOf o < m.total.toNat →
    ∃ t, exec (.mFind k o) s = .next t ∧
      t = { s with rSym := t.rSym, rLo := t.rLo, rHi := t.rHi, rTot := t.rTot } ∧ t.rSym.toNat ≤ 256 ∧
      t.rLo.toNat = m.cumlo t.rSym.toNat ∧ t.rHi.toNat = m.cumlo t.rSym.toNat + m.cntAt t.rSym.toNat ∧
      t.rTot = m.total ∧ t.rLo.toNat ≤ s.freqOf o ∧ s.freqOf o < t.rHi.toNat ∧
      ∀ j ≤ 256, m.cumlo j ≤ s.freqOf o → s.freqOf o < m.cumlo j + m.cntAt j → j = t.rSym.toNat

/-- R135: `M_BUMP` below the threshold: one more of the symbol, the Fenwick array still exact (R31), `RSC` clear. -/
def Obligations.BumpCompletes : Prop :=
  ∀ (s : State) (k : Nat) (o : SymOperand) (m : Slot), s.Sound → s.slots[k]? = some m → m.valid = true →
    s.symOf o ≤ 256 → m.total.toNat + 1 < m.thr →
    ∃ n, exec (.mBump k o) s = .next { s with slots := s.slots.set k n, rsc := false } ∧ n.valid = true ∧
      n.th = m.th ∧ n.total.toNat = m.total.toNat + 1 ∧
      (∀ i ≤ 256, n.cntAt i = m.cntAt i + if i = s.symOf o then 1 else 0) ∧
      n.uniq.toNat = m.uniq.toNat + (if s.symOf o < 256 ∧ m.cntAt (s.symOf o) = 0 then 1 else 0) ∧
      ∀ j < 257, n.fenAt (j + 1) = fenNode n.counts (j + 1)

/-- R135, R142, R143: `M_BUMP` that reaches the threshold: every count, the bumped one with its extra occurrence, is
halved with rounding up; total, unique count and Fenwick array follow; `RSC` is set and one rescale is enough. -/
def Obligations.BumpRescales : Prop :=
  ∀ (s : State) (k : Nat) (o : SymOperand) (m : Slot), s.Sound → s.slots[k]? = some m → m.valid = true →
    s.symOf o ≤ 256 → m.thr ≤ m.total.toNat + 1 →
    ∃ n, exec (.mBump k o) s = .next { s with slots := s.slots.set k n, rsc := true } ∧ n.valid = true ∧
      n.th = m.th ∧ (∀ i ≤ 256, n.cntAt i = (m.cntAt i + (if i = s.symOf o then 1 else 0) + 1) / 2) ∧
      n.total.toNat = n.cumlo 257 ∧ n.total.toNat ≤ (m.thr + 257) / 2 ∧ (m.thr + 257) / 2 < m.thr ∧
      n.uniq.toNat = n.seenBytes ∧
      n.seenBytes = m.seenBytes + (if s.symOf o < 256 ∧ m.cntAt (s.symOf o) = 0 then 1 else 0) ∧
      (∀ i ≤ 256, 1 ≤ m.cntAt i → 1 ≤ n.cntAt i) ∧ ∀ j < 257, n.fenAt (j + 1) = fenNode n.counts (j + 1)

/-- R136, R137, R138: `M_TOTAL`, `M_CNT` and `M_UNIQ` complete on a valid slot (`M_CNT` with a symbol up to 256). -/
def Obligations.ReadbackCommandsComplete : Prop :=
  ∀ (s : State) (k : Nat) (o : SymOperand) (m : Slot), s.Sound → s.slots[k]? = some m → m.valid = true →
    (exec (.mTotal k) s = .next { s with rTot := m.total } ∧ 1 ≤ m.total.toNat ∧ m.total.toNat < m.thr) ∧
    (s.symOf o ≤ 256 → ∃ t, exec (.mCnt k o) s = .next t ∧ t = { s with rCnt := t.rCnt } ∧
      t.rCnt.toNat = m.cntAt (s.symOf o)) ∧
    ∃ t, exec (.mUniq k) s = .next t ∧ t = { s with rCnt := t.rCnt } ∧ t.rCnt.toNat = m.uniq.toNat ∧
      t.rCnt.toNat = m.seenBytes ∧ t.rCnt.toNat ≤ 256

/-- R139, 43_witten_bell_exclusion.md R160, R169: the intervals of the plain, the Witten-Bell and the exclusion view
follow each other in index order with the escape last, and each frequency below the total lies in exactly one. -/
def Obligations.IntervalsPartition : Prop :=
  ∀ (m : Slot) (e : ExclMask), m.valid = true → m.Inv →
    (m.cumlo 0 = 0 ∧ (∀ i ≤ 256, m.cumlo (i + 1) = m.cumlo i + m.cntAt i) ∧
      m.cumlo 256 + m.cntAt 256 = m.total.toNat ∧
      ∀ f < m.total.toNat, ∃! i, i ≤ 256 ∧ m.cumlo i ≤ f ∧ f < m.cumlo i + m.cntAt i) ∧
    (m.cumlo 256 = m.sumBytes ∧ m.sumBytes < m.wbt ∧
      ∀ f < m.sumBytes, ∃! i, i ≤ 255 ∧ m.cumlo i ≤ f ∧ f < m.cumlo i + m.cntAt i) ∧
    (m.cumloEx e 0 = 0 ∧
      (∀ i ≤ 255, m.cumloEx e (i + 1) = m.cumloEx e i + if e.getLsbD i then 0 else m.cntAt i) ∧
      m.cumloEx e 256 = m.sumBytesEx e ∧ m.sumBytesEx e < m.wbtEx e ∧
      ∀ f < m.sumBytesEx e, ∃! i,
        i ≤ 255 ∧ e.getLsbD i = false ∧ m.cumloEx e i ≤ f ∧ f < m.cumloEx e i + m.cntAt i)

/-! ### The Witten-Bell view and exclusion (43_witten_bell_exclusion.md) -/

/-- R161, R166, 10_state.md R41 item 6: `M_WB_TOTAL` and `M_WB_TOTAL_EX` complete on a valid slot, and both totals fit
their register. -/
def Obligations.WbTotalsComplete : Prop :=
  ∀ (s : State) (k : Nat) (m : Slot), s.Sound → s.slots[k]? = some m → m.valid = true →
    m.wbt ≤ 2 ^ 15 + 254 ∧ m.wbtEx s.excl ≤ m.wbt ∧
    (∃ t, exec (.mWbTotal k) s = .next t ∧ t = { s with rTot := t.rTot } ∧ t.rTot.toNat = m.wbt) ∧
    ∃ t, exec (.mWbTotalEx k) s = .next t ∧ t = { s with rTot := t.rTot } ∧ t.rTot.toNat = m.wbtEx s.excl

/-- R162: `M_WB_CUM` completes on a valid slot with a symbol up to 256, in either operand form. -/
def Obligations.WbCumCompletes : Prop :=
  ∀ (s : State) (k : Nat) (o : SymOperand) (m : Slot), s.Sound → s.slots[k]? = some m → m.valid = true →
    s.symOf o ≤ 256 →
    ∃ t, exec (.mWbCum k o) s = .next t ∧ t = { s with rLo := t.rLo, rHi := t.rHi, rTot := t.rTot } ∧
      t.rTot.toNat = m.wbt ∧ (s.symOf o = 256 → t.rLo.toNat = m.sumBytes ∧ t.rHi.toNat = m.wbt) ∧
      (s.symOf o < 256 →
        t.rLo.toNat = m.cumlo (s.symOf o) ∧ t.rHi.toNat = m.cumlo (s.symOf o) + m.cntAt (s.symOf o))

/-- R163: `M_WB_FIND` completes on a valid slot with a frequency below the view's total, in either operand form: the
escape at or above `S`, else the byte whose interval holds the frequency. -/
def Obligations.WbFindCompletes : Prop :=
  ∀ (s : State) (k : Nat) (o : FreqOperand) (m : Slot), s.Sound → s.slots[k]? = some m → m.valid = true →
    s.freqOf o < m.wbt →
    ∃ t, exec (.mWbFind k o) s = .next t ∧
      t = { s with rSym := t.rSym, rLo := t.rLo, rHi := t.rHi, rTot := t.rTot } ∧ t.rTot.toNat = m.wbt ∧
      t.rLo.toNat ≤ s.freqOf o ∧ s.freqOf o < t.rHi.toNat ∧
      (m.sumBytes ≤ s.freqOf o → t.rSym.toNat = 256 ∧ t.rLo.toNat = m.sumBytes ∧ t.rHi.toNat = m.wbt) ∧
      (s.freqOf o < m.sumBytes → t.rSym.toNat ≤ 255 ∧ t.rLo.toNat = m.cumlo t.rSym.toNat ∧
        t.rHi.toNat = m.cumlo t.rSym.toNat + m.cntAt t.rSym.toNat)

/-- R164, R165: `EXCL_CLR` completes in every state and `EXCL_ADD` on a valid slot, where it sets the bit of every
byte the slot has seen and clears none. -/
def Obligations.ExclusionCommandsComplete : Prop :=
  ∀ s : State, exec .exclClr s = .next { s with excl := 0#256 } ∧
    ∀ (k : Nat) (m : Slot), s.slots[k]? = some m → m.valid = true →
      ∃ e : ExclMask, exec (.exclAdd k) s = .next { s with excl := e } ∧
        ∀ i < 256, e.getLsbD i = (s.excl.getLsbD i || decide (0 < m.cntAt i))

/-- R167: `M_WB_CUM_EX` completes on a valid slot with a symbol up to 256, in either operand form: the escape, an
excluded byte (an empty interval) and any other byte. -/
def Obligations.WbCumExCompletes : Prop :=
  ∀ (s : State) (k : Nat) (o : SymOperand) (m : Slot), s.Sound → s.slots[k]? = some m → m.valid = true →
    s.symOf o ≤ 256 →
    ∃ t, exec (.mWbCumEx k o) s = .next t ∧ t = { s with rLo := t.rLo, rHi := t.rHi, rTot := t.rTot } ∧
      t.rTot.toNat = m.wbtEx s.excl ∧
      (s.symOf o = 256 → t.rLo.toNat = m.sumBytesEx s.excl ∧ t.rHi.toNat = m.wbtEx s.excl) ∧
      (s.symOf o < 256 → s.excl.getLsbD (s.symOf o) = true →
        t.rLo.toNat = m.cumloEx s.excl (s.symOf o) ∧ t.rHi.toNat = m.cumloEx s.excl (s.symOf o)) ∧
      (s.symOf o < 256 → s.excl.getLsbD (s.symOf o) = false →
        t.rLo.toNat = m.cumloEx s.excl (s.symOf o) ∧
        t.rHi.toNat = m.cumloEx s.excl (s.symOf o) + m.cntAt (s.symOf o))

/-- R168: `M_WB_FIND_EX` completes on a valid slot with a frequency below the view's total, in either operand form:
the escape at or above `S_ex`, else the only byte that is not excluded and whose interval holds the frequency. -/
def Obligations.WbFindExCompletes : Prop :=
  ∀ (s : State) (k : Nat) (o : FreqOperand) (m : Slot), s.Sound → s.slots[k]? = some m → m.valid = true →
    s.freqOf o < m.wbtEx s.excl →
    ∃ t, exec (.mWbFindEx k o) s = .next t ∧
      t = { s with rSym := t.rSym, rLo := t.rLo, rHi := t.rHi, rTot := t.rTot } ∧ t.rTot.toNat = m.wbtEx s.excl ∧
      t.rLo.toNat ≤ s.freqOf o ∧ s.freqOf o < t.rHi.toNat ∧
      (m.sumBytesEx s.excl ≤ s.freqOf o →
        t.rSym.toNat = 256 ∧ t.rLo.toNat = m.sumBytesEx s.excl ∧ t.rHi.toNat = m.wbtEx s.excl) ∧
      (s.freqOf o < m.sumBytesEx s.excl →
        t.rSym.toNat ≤ 255 ∧ s.excl.getLsbD t.rSym.toNat = false ∧ 1 ≤ m.cntAt t.rSym.toNat ∧
        t.rLo.toNat = m.cumloEx s.excl t.rSym.toNat ∧
        t.rHi.toNat = m.cumloEx s.excl t.rSym.toNat + m.cntAt t.rSym.toNat ∧
        ∀ j ≤ 255, s.excl.getLsbD j = false → m.cumloEx s.excl j ≤ s.freqOf o →
          s.freqOf o < m.cumloEx s.excl j + m.cntAt j → j = t.rSym.toNat)

/-- R169, last sentence; R166: with an empty mask the `_ex` commands do what the commands of the plain Witten-Bell view
do, although one searches linearly and the other descends the Fenwick array. -/
def Obligations.EmptyMaskGivesTheWbView : Prop :=
  ∀ (s : State) (k : Nat) (m : Slot), s.Sound → s.excl = 0#256 → s.slots[k]? = some m → m.valid = true →
    exec (.mWbTotalEx k) s = exec (.mWbTotal k) s ∧
    (∀ o, s.symOf o ≤ 256 → exec (.mWbCumEx k o) s = exec (.mWbCum k o) s) ∧
    ∀ o, s.freqOf o < m.wbt → exec (.mWbFindEx k o) s = exec (.mWbFind k o) s
end

