-- ==== Sys2Proof/Laws/State.lean ====
section
/-! SUPPORT. One lemma per field per update of the state: what a named update writes and what it leaves. -/

namespace Sys2Proof.Machine.State

section
variable (s : State)

/-! ### `setInterval` -/

@[simp] theorem setInterval_low (lo hi tot : Nat) : (s.setInterval lo hi tot).low = s.low := rfl
@[simp] theorem setInterval_high (lo hi tot : Nat) : (s.setInterval lo hi tot).high = s.high := rfl
@[simp] theorem setInterval_code (lo hi tot : Nat) : (s.setInterval lo hi tot).code = s.code := rfl
@[simp] theorem setInterval_mode (lo hi tot : Nat) : (s.setInterval lo hi tot).mode = s.mode := rfl
@[simp] theorem setInterval_rLo (lo hi tot : Nat) : (s.setInterval lo hi tot).rLo = BitVec.ofNat 16 lo := rfl
@[simp] theorem setInterval_rHi (lo hi tot : Nat) : (s.setInterval lo hi tot).rHi = BitVec.ofNat 16 hi := rfl
@[simp] theorem setInterval_rTot (lo hi tot : Nat) : (s.setInterval lo hi tot).rTot = BitVec.ofNat 16 tot := rfl
@[simp] theorem setInterval_rSym (lo hi tot : Nat) : (s.setInterval lo hi tot).rSym = s.rSym := rfl
@[simp] theorem setInterval_rF (lo hi tot : Nat) : (s.setInterval lo hi tot).rF = s.rF := rfl
@[simp] theorem setInterval_rCnt (lo hi tot : Nat) : (s.setInterval lo hi tot).rCnt = s.rCnt := rfl
@[simp] theorem setInterval_fault (lo hi tot : Nat) : (s.setInterval lo hi tot).fault = s.fault := rfl
@[simp] theorem setInterval_cause (lo hi tot : Nat) : (s.setInterval lo hi tot).cause = s.cause := rfl
@[simp] theorem setInterval_fopc (lo hi tot : Nat) : (s.setInterval lo hi tot).fopc = s.fopc := rfl
@[simp] theorem setInterval_fcmd (lo hi tot : Nat) : (s.setInterval lo hi tot).fcmd = s.fcmd := rfl
@[simp] theorem setInterval_pend (lo hi tot : Nat) : (s.setInterval lo hi tot).pend = s.pend := rfl
@[simp] theorem setInterval_rsc (lo hi tot : Nat) : (s.setInterval lo hi tot).rsc = s.rsc := rfl
@[simp] theorem setInterval_busy (lo hi tot : Nat) : (s.setInterval lo hi tot).busy = s.busy := rfl
@[simp] theorem setInterval_slots (lo hi tot : Nat) : (s.setInterval lo hi tot).slots = s.slots := rfl
@[simp] theorem setInterval_excl (lo hi tot : Nat) : (s.setInterval lo hi tot).excl = s.excl := rfl
@[simp] theorem setInterval_src (lo hi tot : Nat) : (s.setInterval lo hi tot).src = s.src := rfl
@[simp] theorem setInterval_inPos (lo hi tot : Nat) : (s.setInterval lo hi tot).inPos = s.inPos := rfl
@[simp] theorem setInterval_snk (lo hi tot : Nat) : (s.setInterval lo hi tot).snk = s.snk := rfl
@[simp] theorem setInterval_undrained (lo hi tot : Nat) : (s.setInterval lo hi tot).undrained = s.undrained := rfl
@[simp] theorem setInterval_port (lo hi tot : Nat) : (s.setInterval lo hi tot).port = s.port := rfl
@[simp] theorem setInterval_replies (lo hi tot : Nat) : (s.setInterval lo hi tot).replies = s.replies := rfl

/-! ### `setTot` -/

@[simp] theorem setTot_low (tot : Nat) : (s.setTot tot).low = s.low := rfl
@[simp] theorem setTot_high (tot : Nat) : (s.setTot tot).high = s.high := rfl
@[simp] theorem setTot_code (tot : Nat) : (s.setTot tot).code = s.code := rfl
@[simp] theorem setTot_mode (tot : Nat) : (s.setTot tot).mode = s.mode := rfl
@[simp] theorem setTot_rLo (tot : Nat) : (s.setTot tot).rLo = s.rLo := rfl
@[simp] theorem setTot_rHi (tot : Nat) : (s.setTot tot).rHi = s.rHi := rfl
@[simp] theorem setTot_rTot (tot : Nat) : (s.setTot tot).rTot = BitVec.ofNat 16 tot := rfl
@[simp] theorem setTot_rSym (tot : Nat) : (s.setTot tot).rSym = s.rSym := rfl
@[simp] theorem setTot_rF (tot : Nat) : (s.setTot tot).rF = s.rF := rfl
@[simp] theorem setTot_rCnt (tot : Nat) : (s.setTot tot).rCnt = s.rCnt := rfl
@[simp] theorem setTot_fault (tot : Nat) : (s.setTot tot).fault = s.fault := rfl
@[simp] theorem setTot_cause (tot : Nat) : (s.setTot tot).cause = s.cause := rfl
@[simp] theorem setTot_fopc (tot : Nat) : (s.setTot tot).fopc = s.fopc := rfl
@[simp] theorem setTot_fcmd (tot : Nat) : (s.setTot tot).fcmd = s.fcmd := rfl
@[simp] theorem setTot_pend (tot : Nat) : (s.setTot tot).pend = s.pend := rfl
@[simp] theorem setTot_rsc (tot : Nat) : (s.setTot tot).rsc = s.rsc := rfl
@[simp] theorem setTot_busy (tot : Nat) : (s.setTot tot).busy = s.busy := rfl
@[simp] theorem setTot_slots (tot : Nat) : (s.setTot tot).slots = s.slots := rfl
@[simp] theorem setTot_excl (tot : Nat) : (s.setTot tot).excl = s.excl := rfl
@[simp] theorem setTot_src (tot : Nat) : (s.setTot tot).src = s.src := rfl
@[simp] theorem setTot_inPos (tot : Nat) : (s.setTot tot).inPos = s.inPos := rfl
@[simp] theorem setTot_snk (tot : Nat) : (s.setTot tot).snk = s.snk := rfl
@[simp] theorem setTot_undrained (tot : Nat) : (s.setTot tot).undrained = s.undrained := rfl
@[simp] theorem setTot_port (tot : Nat) : (s.setTot tot).port = s.port := rfl
@[simp] theorem setTot_replies (tot : Nat) : (s.setTot tot).replies = s.replies := rfl

/-! ### `setSym` -/

@[simp] theorem setSym_low (sym : Nat) : (s.setSym sym).low = s.low := rfl
@[simp] theorem setSym_high (sym : Nat) : (s.setSym sym).high = s.high := rfl
@[simp] theorem setSym_code (sym : Nat) : (s.setSym sym).code = s.code := rfl
@[simp] theorem setSym_mode (sym : Nat) : (s.setSym sym).mode = s.mode := rfl
@[simp] theorem setSym_rLo (sym : Nat) : (s.setSym sym).rLo = s.rLo := rfl
@[simp] theorem setSym_rHi (sym : Nat) : (s.setSym sym).rHi = s.rHi := rfl
@[simp] theorem setSym_rTot (sym : Nat) : (s.setSym sym).rTot = s.rTot := rfl
@[simp] theorem setSym_rSym (sym : Nat) : (s.setSym sym).rSym = BitVec.ofNat 9 sym := rfl
@[simp] theorem setSym_rF (sym : Nat) : (s.setSym sym).rF = s.rF := rfl
@[simp] theorem setSym_rCnt (sym : Nat) : (s.setSym sym).rCnt = s.rCnt := rfl
@[simp] theorem setSym_fault (sym : Nat) : (s.setSym sym).fault = s.fault := rfl
@[simp] theorem setSym_cause (sym : Nat) : (s.setSym sym).cause = s.cause := rfl
@[simp] theorem setSym_fopc (sym : Nat) : (s.setSym sym).fopc = s.fopc := rfl
@[simp] theorem setSym_fcmd (sym : Nat) : (s.setSym sym).fcmd = s.fcmd := rfl
@[simp] theorem setSym_pend (sym : Nat) : (s.setSym sym).pend = s.pend := rfl
@[simp] theorem setSym_rsc (sym : Nat) : (s.setSym sym).rsc = s.rsc := rfl
@[simp] theorem setSym_busy (sym : Nat) : (s.setSym sym).busy = s.busy := rfl
@[simp] theorem setSym_slots (sym : Nat) : (s.setSym sym).slots = s.slots := rfl
@[simp] theorem setSym_excl (sym : Nat) : (s.setSym sym).excl = s.excl := rfl
@[simp] theorem setSym_src (sym : Nat) : (s.setSym sym).src = s.src := rfl
@[simp] theorem setSym_inPos (sym : Nat) : (s.setSym sym).inPos = s.inPos := rfl
@[simp] theorem setSym_snk (sym : Nat) : (s.setSym sym).snk = s.snk := rfl
@[simp] theorem setSym_undrained (sym : Nat) : (s.setSym sym).undrained = s.undrained := rfl
@[simp] theorem setSym_port (sym : Nat) : (s.setSym sym).port = s.port := rfl
@[simp] theorem setSym_replies (sym : Nat) : (s.setSym sym).replies = s.replies := rfl

/-! ### `setFreq` -/

@[simp] theorem setFreq_low (f : Nat) : (s.setFreq f).low = s.low := rfl
@[simp] theorem setFreq_high (f : Nat) : (s.setFreq f).high = s.high := rfl
@[simp] theorem setFreq_code (f : Nat) : (s.setFreq f).code = s.code := rfl
@[simp] theorem setFreq_mode (f : Nat) : (s.setFreq f).mode = s.mode := rfl
@[simp] theorem setFreq_rLo (f : Nat) : (s.setFreq f).rLo = s.rLo := rfl
@[simp] theorem setFreq_rHi (f : Nat) : (s.setFreq f).rHi = s.rHi := rfl
@[simp] theorem setFreq_rTot (f : Nat) : (s.setFreq f).rTot = s.rTot := rfl
@[simp] theorem setFreq_rSym (f : Nat) : (s.setFreq f).rSym = s.rSym := rfl
@[simp] theorem setFreq_rF (f : Nat) : (s.setFreq f).rF = BitVec.ofNat 16 f := rfl
@[simp] theorem setFreq_rCnt (f : Nat) : (s.setFreq f).rCnt = s.rCnt := rfl
@[simp] theorem setFreq_fault (f : Nat) : (s.setFreq f).fault = s.fault := rfl
@[simp] theorem setFreq_cause (f : Nat) : (s.setFreq f).cause = s.cause := rfl
@[simp] theorem setFreq_fopc (f : Nat) : (s.setFreq f).fopc = s.fopc := rfl
@[simp] theorem setFreq_fcmd (f : Nat) : (s.setFreq f).fcmd = s.fcmd := rfl
@[simp] theorem setFreq_pend (f : Nat) : (s.setFreq f).pend = s.pend := rfl
@[simp] theorem setFreq_rsc (f : Nat) : (s.setFreq f).rsc = s.rsc := rfl
@[simp] theorem setFreq_busy (f : Nat) : (s.setFreq f).busy = s.busy := rfl
@[simp] theorem setFreq_slots (f : Nat) : (s.setFreq f).slots = s.slots := rfl
@[simp] theorem setFreq_excl (f : Nat) : (s.setFreq f).excl = s.excl := rfl
@[simp] theorem setFreq_src (f : Nat) : (s.setFreq f).src = s.src := rfl
@[simp] theorem setFreq_inPos (f : Nat) : (s.setFreq f).inPos = s.inPos := rfl
@[simp] theorem setFreq_snk (f : Nat) : (s.setFreq f).snk = s.snk := rfl
@[simp] theorem setFreq_undrained (f : Nat) : (s.setFreq f).undrained = s.undrained := rfl
@[simp] theorem setFreq_port (f : Nat) : (s.setFreq f).port = s.port := rfl
@[simp] theorem setFreq_replies (f : Nat) : (s.setFreq f).replies = s.replies := rfl

/-! ### `setCnt` -/

@[simp] theorem setCnt_low (n : Nat) : (s.setCnt n).low = s.low := rfl
@[simp] theorem setCnt_high (n : Nat) : (s.setCnt n).high = s.high := rfl
@[simp] theorem setCnt_code (n : Nat) : (s.setCnt n).code = s.code := rfl
@[simp] theorem setCnt_mode (n : Nat) : (s.setCnt n).mode = s.mode := rfl
@[simp] theorem setCnt_rLo (n : Nat) : (s.setCnt n).rLo = s.rLo := rfl
@[simp] theorem setCnt_rHi (n : Nat) : (s.setCnt n).rHi = s.rHi := rfl
@[simp] theorem setCnt_rTot (n : Nat) : (s.setCnt n).rTot = s.rTot := rfl
@[simp] theorem setCnt_rSym (n : Nat) : (s.setCnt n).rSym = s.rSym := rfl
@[simp] theorem setCnt_rF (n : Nat) : (s.setCnt n).rF = s.rF := rfl
@[simp] theorem setCnt_rCnt (n : Nat) : (s.setCnt n).rCnt = BitVec.ofNat 16 n := rfl
@[simp] theorem setCnt_fault (n : Nat) : (s.setCnt n).fault = s.fault := rfl
@[simp] theorem setCnt_cause (n : Nat) : (s.setCnt n).cause = s.cause := rfl
@[simp] theorem setCnt_fopc (n : Nat) : (s.setCnt n).fopc = s.fopc := rfl
@[simp] theorem setCnt_fcmd (n : Nat) : (s.setCnt n).fcmd = s.fcmd := rfl
@[simp] theorem setCnt_pend (n : Nat) : (s.setCnt n).pend = s.pend := rfl
@[simp] theorem setCnt_rsc (n : Nat) : (s.setCnt n).rsc = s.rsc := rfl
@[simp] theorem setCnt_busy (n : Nat) : (s.setCnt n).busy = s.busy := rfl
@[simp] theorem setCnt_slots (n : Nat) : (s.setCnt n).slots = s.slots := rfl
@[simp] theorem setCnt_excl (n : Nat) : (s.setCnt n).excl = s.excl := rfl
@[simp] theorem setCnt_src (n : Nat) : (s.setCnt n).src = s.src := rfl
@[simp] theorem setCnt_inPos (n : Nat) : (s.setCnt n).inPos = s.inPos := rfl
@[simp] theorem setCnt_snk (n : Nat) : (s.setCnt n).snk = s.snk := rfl
@[simp] theorem setCnt_undrained (n : Nat) : (s.setCnt n).undrained = s.undrained := rfl
@[simp] theorem setCnt_port (n : Nat) : (s.setCnt n).port = s.port := rfl
@[simp] theorem setCnt_replies (n : Nat) : (s.setCnt n).replies = s.replies := rfl

/-! ### `setCoder` -/

@[simp] theorem setCoder_low (lo hi : Nat) : (s.setCoder lo hi).low = BitVec.ofNat 32 lo := rfl
@[simp] theorem setCoder_high (lo hi : Nat) : (s.setCoder lo hi).high = BitVec.ofNat 32 hi := rfl
@[simp] theorem setCoder_code (lo hi : Nat) : (s.setCoder lo hi).code = s.code := rfl
@[simp] theorem setCoder_mode (lo hi : Nat) : (s.setCoder lo hi).mode = s.mode := rfl
@[simp] theorem setCoder_rLo (lo hi : Nat) : (s.setCoder lo hi).rLo = s.rLo := rfl
@[simp] theorem setCoder_rHi (lo hi : Nat) : (s.setCoder lo hi).rHi = s.rHi := rfl
@[simp] theorem setCoder_rTot (lo hi : Nat) : (s.setCoder lo hi).rTot = s.rTot := rfl
@[simp] theorem setCoder_rSym (lo hi : Nat) : (s.setCoder lo hi).rSym = s.rSym := rfl
@[simp] theorem setCoder_rF (lo hi : Nat) : (s.setCoder lo hi).rF = s.rF := rfl
@[simp] theorem setCoder_rCnt (lo hi : Nat) : (s.setCoder lo hi).rCnt = s.rCnt := rfl
@[simp] theorem setCoder_fault (lo hi : Nat) : (s.setCoder lo hi).fault = s.fault := rfl
@[simp] theorem setCoder_cause (lo hi : Nat) : (s.setCoder lo hi).cause = s.cause := rfl
@[simp] theorem setCoder_fopc (lo hi : Nat) : (s.setCoder lo hi).fopc = s.fopc := rfl
@[simp] theorem setCoder_fcmd (lo hi : Nat) : (s.setCoder lo hi).fcmd = s.fcmd := rfl
@[simp] theorem setCoder_pend (lo hi : Nat) : (s.setCoder lo hi).pend = s.pend := rfl
@[simp] theorem setCoder_rsc (lo hi : Nat) : (s.setCoder lo hi).rsc = s.rsc := rfl
@[simp] theorem setCoder_busy (lo hi : Nat) : (s.setCoder lo hi).busy = s.busy := rfl
@[simp] theorem setCoder_slots (lo hi : Nat) : (s.setCoder lo hi).slots = s.slots := rfl
@[simp] theorem setCoder_excl (lo hi : Nat) : (s.setCoder lo hi).excl = s.excl := rfl
@[simp] theorem setCoder_src (lo hi : Nat) : (s.setCoder lo hi).src = s.src := rfl
@[simp] theorem setCoder_inPos (lo hi : Nat) : (s.setCoder lo hi).inPos = s.inPos := rfl
@[simp] theorem setCoder_snk (lo hi : Nat) : (s.setCoder lo hi).snk = s.snk := rfl
@[simp] theorem setCoder_undrained (lo hi : Nat) : (s.setCoder lo hi).undrained = s.undrained := rfl
@[simp] theorem setCoder_port (lo hi : Nat) : (s.setCoder lo hi).port = s.port := rfl
@[simp] theorem setCoder_replies (lo hi : Nat) : (s.setCoder lo hi).replies = s.replies := rfl

/-! ### `setMode` -/

@[simp] theorem setMode_low (m : Mode) : (s.setMode m).low = s.low := rfl
@[simp] theorem setMode_high (m : Mode) : (s.setMode m).high = s.high := rfl
@[simp] theorem setMode_code (m : Mode) : (s.setMode m).code = s.code := rfl
@[simp] theorem setMode_mode (m : Mode) : (s.setMode m).mode = m := rfl
@[simp] theorem setMode_rLo (m : Mode) : (s.setMode m).rLo = s.rLo := rfl
@[simp] theorem setMode_rHi (m : Mode) : (s.setMode m).rHi = s.rHi := rfl
@[simp] theorem setMode_rTot (m : Mode) : (s.setMode m).rTot = s.rTot := rfl
@[simp] theorem setMode_rSym (m : Mode) : (s.setMode m).rSym = s.rSym := rfl
@[simp] theorem setMode_rF (m : Mode) : (s.setMode m).rF = s.rF := rfl
@[simp] theorem setMode_rCnt (m : Mode) : (s.setMode m).rCnt = s.rCnt := rfl
@[simp] theorem setMode_fault (m : Mode) : (s.setMode m).fault = s.fault := rfl
@[simp] theorem setMode_cause (m : Mode) : (s.setMode m).cause = s.cause := rfl
@[simp] theorem setMode_fopc (m : Mode) : (s.setMode m).fopc = s.fopc := rfl
@[simp] theorem setMode_fcmd (m : Mode) : (s.setMode m).fcmd = s.fcmd := rfl
@[simp] theorem setMode_pend (m : Mode) : (s.setMode m).pend = s.pend := rfl
@[simp] theorem setMode_rsc (m : Mode) : (s.setMode m).rsc = s.rsc := rfl
@[simp] theorem setMode_busy (m : Mode) : (s.setMode m).busy = s.busy := rfl
@[simp] theorem setMode_slots (m : Mode) : (s.setMode m).slots = s.slots := rfl
@[simp] theorem setMode_excl (m : Mode) : (s.setMode m).excl = s.excl := rfl
@[simp] theorem setMode_src (m : Mode) : (s.setMode m).src = s.src := rfl
@[simp] theorem setMode_inPos (m : Mode) : (s.setMode m).inPos = s.inPos := rfl
@[simp] theorem setMode_snk (m : Mode) : (s.setMode m).snk = s.snk := rfl
@[simp] theorem setMode_undrained (m : Mode) : (s.setMode m).undrained = s.undrained := rfl
@[simp] theorem setMode_port (m : Mode) : (s.setMode m).port = s.port := rfl
@[simp] theorem setMode_replies (m : Mode) : (s.setMode m).replies = s.replies := rfl

/-! ### `setExcl` -/

@[simp] theorem setExcl_low (e : ExclMask) : (s.setExcl e).low = s.low := rfl
@[simp] theorem setExcl_high (e : ExclMask) : (s.setExcl e).high = s.high := rfl
@[simp] theorem setExcl_code (e : ExclMask) : (s.setExcl e).code = s.code := rfl
@[simp] theorem setExcl_mode (e : ExclMask) : (s.setExcl e).mode = s.mode := rfl
@[simp] theorem setExcl_rLo (e : ExclMask) : (s.setExcl e).rLo = s.rLo := rfl
@[simp] theorem setExcl_rHi (e : ExclMask) : (s.setExcl e).rHi = s.rHi := rfl
@[simp] theorem setExcl_rTot (e : ExclMask) : (s.setExcl e).rTot = s.rTot := rfl
@[simp] theorem setExcl_rSym (e : ExclMask) : (s.setExcl e).rSym = s.rSym := rfl
@[simp] theorem setExcl_rF (e : ExclMask) : (s.setExcl e).rF = s.rF := rfl
@[simp] theorem setExcl_rCnt (e : ExclMask) : (s.setExcl e).rCnt = s.rCnt := rfl
@[simp] theorem setExcl_fault (e : ExclMask) : (s.setExcl e).fault = s.fault := rfl
@[simp] theorem setExcl_cause (e : ExclMask) : (s.setExcl e).cause = s.cause := rfl
@[simp] theorem setExcl_fopc (e : ExclMask) : (s.setExcl e).fopc = s.fopc := rfl
@[simp] theorem setExcl_fcmd (e : ExclMask) : (s.setExcl e).fcmd = s.fcmd := rfl
@[simp] theorem setExcl_pend (e : ExclMask) : (s.setExcl e).pend = s.pend := rfl
@[simp] theorem setExcl_rsc (e : ExclMask) : (s.setExcl e).rsc = s.rsc := rfl
@[simp] theorem setExcl_busy (e : ExclMask) : (s.setExcl e).busy = s.busy := rfl
@[simp] theorem setExcl_slots (e : ExclMask) : (s.setExcl e).slots = s.slots := rfl
@[simp] theorem setExcl_excl (e : ExclMask) : (s.setExcl e).excl = e := rfl
@[simp] theorem setExcl_src (e : ExclMask) : (s.setExcl e).src = s.src := rfl
@[simp] theorem setExcl_inPos (e : ExclMask) : (s.setExcl e).inPos = s.inPos := rfl
@[simp] theorem setExcl_snk (e : ExclMask) : (s.setExcl e).snk = s.snk := rfl
@[simp] theorem setExcl_undrained (e : ExclMask) : (s.setExcl e).undrained = s.undrained := rfl
@[simp] theorem setExcl_port (e : ExclMask) : (s.setExcl e).port = s.port := rfl
@[simp] theorem setExcl_replies (e : ExclMask) : (s.setExcl e).replies = s.replies := rfl

/-! ### `setRsc` -/

@[simp] theorem setRsc_low (b : Bool) : (s.setRsc b).low = s.low := rfl
@[simp] theorem setRsc_high (b : Bool) : (s.setRsc b).high = s.high := rfl
@[simp] theorem setRsc_code (b : Bool) : (s.setRsc b).code = s.code := rfl
@[simp] theorem setRsc_mode (b : Bool) : (s.setRsc b).mode = s.mode := rfl
@[simp] theorem setRsc_rLo (b : Bool) : (s.setRsc b).rLo = s.rLo := rfl
@[simp] theorem setRsc_rHi (b : Bool) : (s.setRsc b).rHi = s.rHi := rfl
@[simp] theorem setRsc_rTot (b : Bool) : (s.setRsc b).rTot = s.rTot := rfl
@[simp] theorem setRsc_rSym (b : Bool) : (s.setRsc b).rSym = s.rSym := rfl
@[simp] theorem setRsc_rF (b : Bool) : (s.setRsc b).rF = s.rF := rfl
@[simp] theorem setRsc_rCnt (b : Bool) : (s.setRsc b).rCnt = s.rCnt := rfl
@[simp] theorem setRsc_fault (b : Bool) : (s.setRsc b).fault = s.fault := rfl
@[simp] theorem setRsc_cause (b : Bool) : (s.setRsc b).cause = s.cause := rfl
@[simp] theorem setRsc_fopc (b : Bool) : (s.setRsc b).fopc = s.fopc := rfl
@[simp] theorem setRsc_fcmd (b : Bool) : (s.setRsc b).fcmd = s.fcmd := rfl
@[simp] theorem setRsc_pend (b : Bool) : (s.setRsc b).pend = s.pend := rfl
@[simp] theorem setRsc_rsc (b : Bool) : (s.setRsc b).rsc = b := rfl
@[simp] theorem setRsc_busy (b : Bool) : (s.setRsc b).busy = s.busy := rfl
@[simp] theorem setRsc_slots (b : Bool) : (s.setRsc b).slots = s.slots := rfl
@[simp] theorem setRsc_excl (b : Bool) : (s.setRsc b).excl = s.excl := rfl
@[simp] theorem setRsc_src (b : Bool) : (s.setRsc b).src = s.src := rfl
@[simp] theorem setRsc_inPos (b : Bool) : (s.setRsc b).inPos = s.inPos := rfl
@[simp] theorem setRsc_snk (b : Bool) : (s.setRsc b).snk = s.snk := rfl
@[simp] theorem setRsc_undrained (b : Bool) : (s.setRsc b).undrained = s.undrained := rfl
@[simp] theorem setRsc_port (b : Bool) : (s.setRsc b).port = s.port := rfl
@[simp] theorem setRsc_replies (b : Bool) : (s.setRsc b).replies = s.replies := rfl

/-! ### `putSlot` -/

@[simp] theorem putSlot_low (k : Nat) (m : Slot) : (s.putSlot k m).low = s.low := rfl
@[simp] theorem putSlot_high (k : Nat) (m : Slot) : (s.putSlot k m).high = s.high := rfl
@[simp] theorem putSlot_code (k : Nat) (m : Slot) : (s.putSlot k m).code = s.code := rfl
@[simp] theorem putSlot_mode (k : Nat) (m : Slot) : (s.putSlot k m).mode = s.mode := rfl
@[simp] theorem putSlot_rLo (k : Nat) (m : Slot) : (s.putSlot k m).rLo = s.rLo := rfl
@[simp] theorem putSlot_rHi (k : Nat) (m : Slot) : (s.putSlot k m).rHi = s.rHi := rfl
@[simp] theorem putSlot_rTot (k : Nat) (m : Slot) : (s.putSlot k m).rTot = s.rTot := rfl
@[simp] theorem putSlot_rSym (k : Nat) (m : Slot) : (s.putSlot k m).rSym = s.rSym := rfl
@[simp] theorem putSlot_rF (k : Nat) (m : Slot) : (s.putSlot k m).rF = s.rF := rfl
@[simp] theorem putSlot_rCnt (k : Nat) (m : Slot) : (s.putSlot k m).rCnt = s.rCnt := rfl
@[simp] theorem putSlot_fault (k : Nat) (m : Slot) : (s.putSlot k m).fault = s.fault := rfl
@[simp] theorem putSlot_cause (k : Nat) (m : Slot) : (s.putSlot k m).cause = s.cause := rfl
@[simp] theorem putSlot_fopc (k : Nat) (m : Slot) : (s.putSlot k m).fopc = s.fopc := rfl
@[simp] theorem putSlot_fcmd (k : Nat) (m : Slot) : (s.putSlot k m).fcmd = s.fcmd := rfl
@[simp] theorem putSlot_pend (k : Nat) (m : Slot) : (s.putSlot k m).pend = s.pend := rfl
@[simp] theorem putSlot_rsc (k : Nat) (m : Slot) : (s.putSlot k m).rsc = s.rsc := rfl
@[simp] theorem putSlot_busy (k : Nat) (m : Slot) : (s.putSlot k m).busy = s.busy := rfl
@[simp] theorem putSlot_slots (k : Nat) (m : Slot) : (s.putSlot k m).slots = s.slots.set k m := rfl
@[simp] theorem putSlot_excl (k : Nat) (m : Slot) : (s.putSlot k m).excl = s.excl := rfl
@[simp] theorem putSlot_src (k : Nat) (m : Slot) : (s.putSlot k m).src = s.src := rfl
@[simp] theorem putSlot_inPos (k : Nat) (m : Slot) : (s.putSlot k m).inPos = s.inPos := rfl
@[simp] theorem putSlot_snk (k : Nat) (m : Slot) : (s.putSlot k m).snk = s.snk := rfl
@[simp] theorem putSlot_undrained (k : Nat) (m : Slot) : (s.putSlot k m).undrained = s.undrained := rfl
@[simp] theorem putSlot_port (k : Nat) (m : Slot) : (s.putSlot k m).port = s.port := rfl
@[simp] theorem putSlot_replies (k : Nat) (m : Slot) : (s.putSlot k m).replies = s.replies := rfl

/-! ### `enterFault` -/

@[simp] theorem enterFault_low (c : Cause) (w : CmdWord) : (s.enterFault c w).low = s.low := rfl
@[simp] theorem enterFault_high (c : Cause) (w : CmdWord) : (s.enterFault c w).high = s.high := rfl
@[simp] theorem enterFault_code (c : Cause) (w : CmdWord) : (s.enterFault c w).code = s.code := rfl
@[simp] theorem enterFault_mode (c : Cause) (w : CmdWord) : (s.enterFault c w).mode = s.mode := rfl
@[simp] theorem enterFault_rLo (c : Cause) (w : CmdWord) : (s.enterFault c w).rLo = s.rLo := rfl
@[simp] theorem enterFault_rHi (c : Cause) (w : CmdWord) : (s.enterFault c w).rHi = s.rHi := rfl
@[simp] theorem enterFault_rTot (c : Cause) (w : CmdWord) : (s.enterFault c w).rTot = s.rTot := rfl
@[simp] theorem enterFault_rSym (c : Cause) (w : CmdWord) : (s.enterFault c w).rSym = s.rSym := rfl
@[simp] theorem enterFault_rF (c : Cause) (w : CmdWord) : (s.enterFault c w).rF = s.rF := rfl
@[simp] theorem enterFault_rCnt (c : Cause) (w : CmdWord) : (s.enterFault c w).rCnt = s.rCnt := rfl
@[simp] theorem enterFault_fault (c : Cause) (w : CmdWord) : (s.enterFault c w).fault = true := rfl
@[simp] theorem enterFault_cause (c : Cause) (w : CmdWord) : (s.enterFault c w).cause = c := rfl
@[simp] theorem enterFault_fopc (c : Cause) (w : CmdWord) : (s.enterFault c w).fopc = w.extractLsb' 56 8 := rfl
@[simp] theorem enterFault_fcmd (c : Cause) (w : CmdWord) : (s.enterFault c w).fcmd = w := rfl
@[simp] theorem enterFault_pend (c : Cause) (w : CmdWord) : (s.enterFault c w).pend = s.pend := rfl
@[simp] theorem enterFault_rsc (c : Cause) (w : CmdWord) : (s.enterFault c w).rsc = s.rsc := rfl
@[simp] theorem enterFault_busy (c : Cause) (w : CmdWord) : (s.enterFault c w).busy = s.busy := rfl
@[simp] theorem enterFault_slots (c : Cause) (w : CmdWord) : (s.enterFault c w).slots = s.slots := rfl
@[simp] theorem enterFault_excl (c : Cause) (w : CmdWord) : (s.enterFault c w).excl = s.excl := rfl
@[simp] theorem enterFault_src (c : Cause) (w : CmdWord) : (s.enterFault c w).src = s.src := rfl
@[simp] theorem enterFault_inPos (c : Cause) (w : CmdWord) : (s.enterFault c w).inPos = s.inPos := rfl
@[simp] theorem enterFault_snk (c : Cause) (w : CmdWord) : (s.enterFault c w).snk = s.snk := rfl
@[simp] theorem enterFault_undrained (c : Cause) (w : CmdWord) : (s.enterFault c w).undrained = s.undrained := rfl
@[simp] theorem enterFault_port (c : Cause) (w : CmdWord) : (s.enterFault c w).port = s.port := rfl
@[simp] theorem enterFault_replies (c : Cause) (w : CmdWord) : (s.enterFault c w).replies = s.replies := rfl

/-! ### `clearFault` -/

@[simp] theorem clearFault_low : s.clearFault.low = s.low := rfl
@[simp] theorem clearFault_high : s.clearFault.high = s.high := rfl
@[simp] theorem clearFault_code : s.clearFault.code = s.code := rfl
@[simp] theorem clearFault_mode : s.clearFault.mode = s.mode := rfl
@[simp] theorem clearFault_rLo : s.clearFault.rLo = s.rLo := rfl
@[simp] theorem clearFault_rHi : s.clearFault.rHi = s.rHi := rfl
@[simp] theorem clearFault_rTot : s.clearFault.rTot = s.rTot := rfl
@[simp] theorem clearFault_rSym : s.clearFault.rSym = s.rSym := rfl
@[simp] theorem clearFault_rF : s.clearFault.rF = s.rF := rfl
@[simp] theorem clearFault_rCnt : s.clearFault.rCnt = s.rCnt := rfl
@[simp] theorem clearFault_fault : s.clearFault.fault = false := rfl
@[simp] theorem clearFault_cause : s.clearFault.cause = .none := rfl
@[simp] theorem clearFault_fopc : s.clearFault.fopc = 0#8 := rfl
@[simp] theorem clearFault_fcmd : s.clearFault.fcmd = 0#64 := rfl
@[simp] theorem clearFault_pend : s.clearFault.pend = s.pend := rfl
@[simp] theorem clearFault_rsc : s.clearFault.rsc = s.rsc := rfl
@[simp] theorem clearFault_busy : s.clearFault.busy = s.busy := rfl
@[simp] theorem clearFault_slots : s.clearFault.slots = s.slots := rfl
@[simp] theorem clearFault_excl : s.clearFault.excl = s.excl := rfl
@[simp] theorem clearFault_src : s.clearFault.src = s.src := rfl
@[simp] theorem clearFault_inPos : s.clearFault.inPos = s.inPos := rfl
@[simp] theorem clearFault_snk : s.clearFault.snk = s.snk := rfl
@[simp] theorem clearFault_undrained : s.clearFault.undrained = s.undrained := rfl
@[simp] theorem clearFault_port : s.clearFault.port = s.port := rfl
@[simp] theorem clearFault_replies : s.clearFault.replies = s.replies := rfl

/-! ### `snkPut` -/

@[simp] theorem snkPut_low (b : Byte) : (s.snkPut b).low = s.low := rfl
@[simp] theorem snkPut_high (b : Byte) : (s.snkPut b).high = s.high := rfl
@[simp] theorem snkPut_code (b : Byte) : (s.snkPut b).code = s.code := rfl
@[simp] theorem snkPut_mode (b : Byte) : (s.snkPut b).mode = s.mode := rfl
@[simp] theorem snkPut_rLo (b : Byte) : (s.snkPut b).rLo = s.rLo := rfl
@[simp] theorem snkPut_rHi (b : Byte) : (s.snkPut b).rHi = s.rHi := rfl
@[simp] theorem snkPut_rTot (b : Byte) : (s.snkPut b).rTot = s.rTot := rfl
@[simp] theorem snkPut_rSym (b : Byte) : (s.snkPut b).rSym = s.rSym := rfl
@[simp] theorem snkPut_rF (b : Byte) : (s.snkPut b).rF = s.rF := rfl
@[simp] theorem snkPut_rCnt (b : Byte) : (s.snkPut b).rCnt = s.rCnt := rfl
@[simp] theorem snkPut_fault (b : Byte) : (s.snkPut b).fault = s.fault := rfl
@[simp] theorem snkPut_cause (b : Byte) : (s.snkPut b).cause = s.cause := rfl
@[simp] theorem snkPut_fopc (b : Byte) : (s.snkPut b).fopc = s.fopc := rfl
@[simp] theorem snkPut_fcmd (b : Byte) : (s.snkPut b).fcmd = s.fcmd := rfl
@[simp] theorem snkPut_pend (b : Byte) : (s.snkPut b).pend = s.pend := rfl
@[simp] theorem snkPut_rsc (b : Byte) : (s.snkPut b).rsc = s.rsc := rfl
@[simp] theorem snkPut_busy (b : Byte) : (s.snkPut b).busy = s.busy := rfl
@[simp] theorem snkPut_slots (b : Byte) : (s.snkPut b).slots = s.slots := rfl
@[simp] theorem snkPut_excl (b : Byte) : (s.snkPut b).excl = s.excl := rfl
@[simp] theorem snkPut_src (b : Byte) : (s.snkPut b).src = s.src := rfl
@[simp] theorem snkPut_inPos (b : Byte) : (s.snkPut b).inPos = s.inPos := rfl
@[simp] theorem snkPut_snk (b : Byte) : (s.snkPut b).snk = s.snk ++ [b] := rfl
@[simp] theorem snkPut_undrained (b : Byte) : (s.snkPut b).undrained = s.undrained + 1 := rfl
@[simp] theorem snkPut_port (b : Byte) : (s.snkPut b).port = s.port := rfl
@[simp] theorem snkPut_replies (b : Byte) : (s.snkPut b).replies = s.replies := rfl

/-! ### `snkClear` -/

@[simp] theorem snkClear_low : s.snkClear.low = s.low := rfl
@[simp] theorem snkClear_high : s.snkClear.high = s.high := rfl
@[simp] theorem snkClear_code : s.snkClear.code = s.code := rfl
@[simp] theorem snkClear_mode : s.snkClear.mode = s.mode := rfl
@[simp] theorem snkClear_rLo : s.snkClear.rLo = s.rLo := rfl
@[simp] theorem snkClear_rHi : s.snkClear.rHi = s.rHi := rfl
@[simp] theorem snkClear_rTot : s.snkClear.rTot = s.rTot := rfl
@[simp] theorem snkClear_rSym : s.snkClear.rSym = s.rSym := rfl
@[simp] theorem snkClear_rF : s.snkClear.rF = s.rF := rfl
@[simp] theorem snkClear_rCnt : s.snkClear.rCnt = s.rCnt := rfl
@[simp] theorem snkClear_fault : s.snkClear.fault = s.fault := rfl
@[simp] theorem snkClear_cause : s.snkClear.cause = s.cause := rfl
@[simp] theorem snkClear_fopc : s.snkClear.fopc = s.fopc := rfl
@[simp] theorem snkClear_fcmd : s.snkClear.fcmd = s.fcmd := rfl
@[simp] theorem snkClear_pend : s.snkClear.pend = s.pend := rfl
@[simp] theorem snkClear_rsc : s.snkClear.rsc = s.rsc := rfl
@[simp] theorem snkClear_busy : s.snkClear.busy = s.busy := rfl
@[simp] theorem snkClear_slots : s.snkClear.slots = s.slots := rfl
@[simp] theorem snkClear_excl : s.snkClear.excl = s.excl := rfl
@[simp] theorem snkClear_src : s.snkClear.src = s.src := rfl
@[simp] theorem snkClear_inPos : s.snkClear.inPos = s.inPos := rfl
@[simp] theorem snkClear_snk : s.snkClear.snk = [] := rfl
@[simp] theorem snkClear_undrained : s.snkClear.undrained = 0 := rfl
@[simp] theorem snkClear_port : s.snkClear.port = s.port := rfl
@[simp] theorem snkClear_replies : s.snkClear.replies = s.replies := rfl

/-! ### `accept` -/

@[simp] theorem accept_low (rest : List HostAction) : (s.accept rest).low = s.low := rfl
@[simp] theorem accept_high (rest : List HostAction) : (s.accept rest).high = s.high := rfl
@[simp] theorem accept_code (rest : List HostAction) : (s.accept rest).code = s.code := rfl
@[simp] theorem accept_mode (rest : List HostAction) : (s.accept rest).mode = s.mode := rfl
@[simp] theorem accept_rLo (rest : List HostAction) : (s.accept rest).rLo = s.rLo := rfl
@[simp] theorem accept_rHi (rest : List HostAction) : (s.accept rest).rHi = s.rHi := rfl
@[simp] theorem accept_rTot (rest : List HostAction) : (s.accept rest).rTot = s.rTot := rfl
@[simp] theorem accept_rSym (rest : List HostAction) : (s.accept rest).rSym = s.rSym := rfl
@[simp] theorem accept_rF (rest : List HostAction) : (s.accept rest).rF = s.rF := rfl
@[simp] theorem accept_rCnt (rest : List HostAction) : (s.accept rest).rCnt = s.rCnt := rfl
@[simp] theorem accept_fault (rest : List HostAction) : (s.accept rest).fault = s.fault := rfl
@[simp] theorem accept_cause (rest : List HostAction) : (s.accept rest).cause = s.cause := rfl
@[simp] theorem accept_fopc (rest : List HostAction) : (s.accept rest).fopc = s.fopc := rfl
@[simp] theorem accept_fcmd (rest : List HostAction) : (s.accept rest).fcmd = s.fcmd := rfl
@[simp] theorem accept_pend (rest : List HostAction) : (s.accept rest).pend = s.pend := rfl
@[simp] theorem accept_rsc (rest : List HostAction) : (s.accept rest).rsc = s.rsc := rfl
@[simp] theorem accept_busy (rest : List HostAction) : (s.accept rest).busy = true := rfl
@[simp] theorem accept_slots (rest : List HostAction) : (s.accept rest).slots = s.slots := rfl
@[simp] theorem accept_excl (rest : List HostAction) : (s.accept rest).excl = s.excl := rfl
@[simp] theorem accept_src (rest : List HostAction) : (s.accept rest).src = s.src := rfl
@[simp] theorem accept_inPos (rest : List HostAction) : (s.accept rest).inPos = s.inPos := rfl
@[simp] theorem accept_snk (rest : List HostAction) : (s.accept rest).snk = s.snk := rfl
@[simp] theorem accept_undrained (rest : List HostAction) : (s.accept rest).undrained = s.undrained := rfl
@[simp] theorem accept_port (rest : List HostAction) : (s.accept rest).port = rest := rfl
@[simp] theorem accept_replies (rest : List HostAction) : (s.accept rest).replies = s.replies := rfl

/-! ### `release` -/

@[simp] theorem release_low : s.release.low = s.low := rfl
@[simp] theorem release_high : s.release.high = s.high := rfl
@[simp] theorem release_code : s.release.code = s.code := rfl
@[simp] theorem release_mode : s.release.mode = s.mode := rfl
@[simp] theorem release_rLo : s.release.rLo = s.rLo := rfl
@[simp] theorem release_rHi : s.release.rHi = s.rHi := rfl
@[simp] theorem release_rTot : s.release.rTot = s.rTot := rfl
@[simp] theorem release_rSym : s.release.rSym = s.rSym := rfl
@[simp] theorem release_rF : s.release.rF = s.rF := rfl
@[simp] theorem release_rCnt : s.release.rCnt = s.rCnt := rfl
@[simp] theorem release_fault : s.release.fault = s.fault := rfl
@[simp] theorem release_cause : s.release.cause = s.cause := rfl
@[simp] theorem release_fopc : s.release.fopc = s.fopc := rfl
@[simp] theorem release_fcmd : s.release.fcmd = s.fcmd := rfl
@[simp] theorem release_pend : s.release.pend = s.pend := rfl
@[simp] theorem release_rsc : s.release.rsc = s.rsc := rfl
@[simp] theorem release_busy : s.release.busy = false := rfl
@[simp] theorem release_slots : s.release.slots = s.slots := rfl
@[simp] theorem release_excl : s.release.excl = s.excl := rfl
@[simp] theorem release_src : s.release.src = s.src := rfl
@[simp] theorem release_inPos : s.release.inPos = s.inPos := rfl
@[simp] theorem release_snk : s.release.snk = s.snk := rfl
@[simp] theorem release_undrained : s.release.undrained = s.undrained := rfl
@[simp] theorem release_port : s.release.port = s.port := rfl
@[simp] theorem release_replies : s.release.replies = s.replies := rfl

end

end Sys2Proof.Machine.State
end

