-- ==== Sys2Proof/Laws/Coder.lean ====
section
/-! SUPPORT. The range coder's procedures: what `SrcGet`, `Narrow` and `Renorm` do, once each. -/

namespace Sys2Proof.Machine

/-! ### Words -/

theorem shl8_toNat (v : Word) : (shl8 v).toNat = v.toNat % 2 ^ 24 * 256 := by
  rw [shl8, BitVec.toNat_shiftLeft, Nat.shiftLeft_eq]
  omega

theorem topByte_toNat (v : Word) : (v.extractLsb' 24 8).toNat = v.toNat / 2 ^ 24 := by
  have := v.isLt
  rw [BitVec.extractLsb'_toNat, Nat.shiftRight_eq_div_pow]
  omega

/-- `LOW xor HIGH < 2^24` says that the top bytes agree (41_range_coder.md R102). -/
theorem settled_iff (s : State) : s.settled = true ↔ s.low.toNat / 2 ^ 24 = s.high.toNat / 2 ^ 24 := by
  rw [State.settled, decide_eq_true_iff, BitVec.toNat_xor, ← Nat.div_eq_zero_iff_lt (by norm_num),
    ← Nat.shiftRight_eq_div_pow, Nat.shiftRight_xor_distrib, Nat.xor_eq_zero_iff, Nat.shiftRight_eq_div_pow,
    Nat.shiftRight_eq_div_pow]

theorem not_settled_iff (s : State) : s.settled = false ↔ 2 ^ 24 ≤ (s.low ^^^ s.high).toNat := by
  rw [State.settled, decide_eq_false_iff_not]; omega

/-! ### `SrcGet` (20_memory.md R52) -/

/-- `SrcGet` changes the cursor and `PEND` only. -/
theorem srcGet_frame (s : State) :
    s.srcGet.2 = { s with
      inPos := if s.inPos.toNat < s.src.length then s.inPos + 1#32 else s.inPos
      pend := s.pend || decide (s.src.length ≤ s.inPos.toNat) } := by
  unfold State.srcGet
  split
  · rename_i b h
    have hl : s.inPos.toNat < s.src.length := by
      by_contra hn
      rw [List.getElem?_eq_none (by omega)] at h
      exact absurd h (by simp)
    simp [hl]
  · rename_i h
    have hl : s.src.length ≤ s.inPos.toNat := List.getElem?_eq_none_iff.1 h
    simp [hl]

/-- The byte `SrcGet` answers. -/
theorem srcGet_byte (s : State) : s.srcGet.1.toNat = s.srcByte s.inPos.toNat := by
  unfold State.srcGet State.srcByte List.getD
  split <;> rename_i h <;> rw [h] <;> rfl

/-- `CODE <- shl8(CODE) + SrcGet()`. -/
theorem shiftCode_code (s : State) :
    s.shiftCode.code.toNat = s.code.toNat % 2 ^ 24 * 256 + s.srcByte s.inPos.toNat := by
  have hb : s.srcGet.1.toNat < 2 ^ 8 := s.srcGet.1.isLt
  have hv : s.code.toNat < 2 ^ 32 := s.code.isLt
  have e : s.shiftCode.code = shl8 s.code + s.srcGet.1.setWidth 32 := rfl
  rw [e, BitVec.toNat_add, shl8_toNat, BitVec.toNat_setWidth, srcGet_byte]
  rw [srcGet_byte] at hb
  omega

/-- `shiftCode` changes `CODE`, the cursor and `PEND` only. -/
theorem shiftCode_frame (s : State) :
    s.shiftCode = { s with
      code := s.shiftCode.code
      inPos := if s.inPos.toNat < s.src.length then s.inPos + 1#32 else s.inPos
      pend := s.pend || decide (s.src.length ≤ s.inPos.toNat) } := by
  have h := srcGet_frame s
  have e : s.shiftCode = { s.srcGet.2 with code := s.shiftCode.code } := rfl
  rw [e, h]

/-! `shiftCode` field by field. -/

@[simp] theorem shiftCode_low (s : State) : s.shiftCode.low = s.low := by
  unfold State.shiftCode State.srcGet; split <;> rfl
@[simp] theorem shiftCode_high (s : State) : s.shiftCode.high = s.high := by
  unfold State.shiftCode State.srcGet; split <;> rfl
@[simp] theorem shiftCode_mode (s : State) : s.shiftCode.mode = s.mode := by
  unfold State.shiftCode State.srcGet; split <;> rfl
@[simp] theorem shiftCode_rLo (s : State) : s.shiftCode.rLo = s.rLo := by
  unfold State.shiftCode State.srcGet; split <;> rfl
@[simp] theorem shiftCode_rHi (s : State) : s.shiftCode.rHi = s.rHi := by
  unfold State.shiftCode State.srcGet; split <;> rfl
@[simp] theorem shiftCode_rTot (s : State) : s.shiftCode.rTot = s.rTot := by
  unfold State.shiftCode State.srcGet; split <;> rfl
@[simp] theorem shiftCode_rSym (s : State) : s.shiftCode.rSym = s.rSym := by
  unfold State.shiftCode State.srcGet; split <;> rfl
@[simp] theorem shiftCode_rF (s : State) : s.shiftCode.rF = s.rF := by
  unfold State.shiftCode State.srcGet; split <;> rfl
@[simp] theorem shiftCode_rCnt (s : State) : s.shiftCode.rCnt = s.rCnt := by
  unfold State.shiftCode State.srcGet; split <;> rfl
@[simp] theorem shiftCode_fault (s : State) : s.shiftCode.fault = s.fault := by
  unfold State.shiftCode State.srcGet; split <;> rfl
@[simp] theorem shiftCode_cause (s : State) : s.shiftCode.cause = s.cause := by
  unfold State.shiftCode State.srcGet; split <;> rfl
@[simp] theorem shiftCode_fopc (s : State) : s.shiftCode.fopc = s.fopc := by
  unfold State.shiftCode State.srcGet; split <;> rfl
@[simp] theorem shiftCode_fcmd (s : State) : s.shiftCode.fcmd = s.fcmd := by
  unfold State.shiftCode State.srcGet; split <;> rfl
@[simp] theorem shiftCode_rsc (s : State) : s.shiftCode.rsc = s.rsc := by
  unfold State.shiftCode State.srcGet; split <;> rfl
@[simp] theorem shiftCode_busy (s : State) : s.shiftCode.busy = s.busy := by
  unfold State.shiftCode State.srcGet; split <;> rfl
@[simp] theorem shiftCode_slots (s : State) : s.shiftCode.slots = s.slots := by
  unfold State.shiftCode State.srcGet; split <;> rfl
@[simp] theorem shiftCode_excl (s : State) : s.shiftCode.excl = s.excl := by
  unfold State.shiftCode State.srcGet; split <;> rfl
@[simp] theorem shiftCode_src (s : State) : s.shiftCode.src = s.src := by
  unfold State.shiftCode State.srcGet; split <;> rfl
@[simp] theorem shiftCode_snk (s : State) : s.shiftCode.snk = s.snk := by
  unfold State.shiftCode State.srcGet; split <;> rfl
@[simp] theorem shiftCode_undrained (s : State) : s.shiftCode.undrained = s.undrained := by
  unfold State.shiftCode State.srcGet; split <;> rfl
@[simp] theorem shiftCode_port (s : State) : s.shiftCode.port = s.port := by
  unfold State.shiftCode State.srcGet; split <;> rfl
@[simp] theorem shiftCode_replies (s : State) : s.shiftCode.replies = s.replies := by
  unfold State.shiftCode State.srcGet; split <;> rfl

theorem State.srcByte_lt (s : State) (k : Nat) : s.srcByte k < 256 := (s.src.getD k 0#8).isLt

/-- The cursor after `SrcGet`: it stops at the end of the source. -/
theorem cursor_toNat (s : State) (h : s.inPos.toNat ≤ s.src.length) (hl : s.src.length < 2 ^ 32) :
    (if s.inPos.toNat < s.src.length then s.inPos + 1#32 else s.inPos).toNat =
      min (s.inPos.toNat + 1) s.src.length := by
  split
  · rw [BitVec.toNat_add]; simp; omega
  · omega

/-! ### `Narrow` (41_range_coder.md R101) -/

/-- The operand check of `Narrow`. -/
def GoodOperands (lo hi tot : Nat) : Prop := tot ≠ 0 ∧ lo < hi ∧ hi ≤ tot

/-- Everything `Narrow` can answer. -/
theorem narrow_cases (s : State) (lo hi tot : Nat) :
    (¬ GoodOperands lo hi tot ∧ s.narrow lo hi tot = .error .badOperand) ∨
    (GoodOperands lo hi tot ∧ s.range * hi / tot ≤ s.range * lo / tot ∧ s.narrow lo hi tot = .error .emptyInterval) ∨
    (GoodOperands lo hi tot ∧ s.range * lo / tot < s.range * hi / tot ∧
      s.narrow lo hi tot = .ok (s.low.toNat + s.range * lo / tot, s.low.toNat + s.range * hi / tot - 1)) := by
  unfold State.narrow GoodOperands
  split
  · exact .inl ⟨by omega, rfl⟩
  · dsimp only
    split
    · exact .inr (.inl ⟨by omega, by omega, rfl⟩)
    · exact .inr (.inr ⟨by omega, by omega, rfl⟩)

/-- A narrowed interval is a non-empty part of `[LOW, HIGH]` (41_range_coder.md R101). -/
theorem narrow_ok (s : State) {lo hi tot nl nh : Nat} (h : s.narrow lo hi tot = .ok (nl, nh))
    (hs : s.low.toNat ≤ s.high.toNat) : s.low.toNat ≤ nl ∧ nl ≤ nh ∧ nh ≤ s.high.toNat := by
  rcases narrow_cases s lo hi tot with ⟨-, e⟩ | ⟨-, -, e⟩ | ⟨g, hq, e⟩ <;> rw [e] at h <;> cases h
  have h1 : s.range * hi / tot ≤ s.range :=
    Nat.div_le_of_le_mul (by rw [Nat.mul_comm]; exact Nat.mul_le_mul_right _ g.2.2)
  have h2 : s.range = s.high.toNat - s.low.toNat + 1 := rfl
  generalize s.range * lo / tot = ql at *
  generalize s.range * hi / tot = qh at *
  omega

/-! ### `Renorm` (41_range_coder.md R102) -/

theorem shl8_add_ff (v : Word) : (shl8 v + 0xFF#32).toNat = v.toNat % 2 ^ 24 * 256 + 255 := by
  rw [BitVec.toNat_add, shl8_toNat]; simp; omega

/-- An encoder's shift step. -/
theorem shiftOut_enc (s : State) :
    s.shiftOut false = { s with
      low := shl8 s.low, high := shl8 s.high + 0xFF#32
      snk := s.snk ++ [s.low.extractLsb' 24 8], undrained := s.undrained + 1 } := rfl

/-- A decoder's shift step. -/
theorem shiftOut_dec (s : State) :
    s.shiftOut true = { s with
      low := shl8 s.low, high := shl8 s.high + 0xFF#32
      code := s.shiftCode.code
      inPos := if s.inPos.toNat < s.src.length then s.inPos + 1#32 else s.inPos
      pend := s.pend || decide (s.src.length ≤ s.inPos.toNat) } := by
  have e : s.shiftOut true = { s.shiftCode with low := shl8 s.low, high := shl8 s.high + 0xFF#32 } := by
    simp only [State.shiftOut, State.shiftCode, State.srcGet, if_true]
    split <;> rfl
  rw [e, shiftCode_frame]

theorem shiftOut_low (s : State) (dec : Bool) : (s.shiftOut dec).low.toNat = s.low.toNat % 2 ^ 24 * 256 := by
  cases dec
  · rw [shiftOut_enc]; exact shl8_toNat s.low
  · rw [shiftOut_dec]; exact shl8_toNat s.low

theorem shiftOut_high (s : State) (dec : Bool) :
    (s.shiftOut dec).high.toNat = s.high.toNat % 2 ^ 24 * 256 + 255 := by
  cases dec
  · rw [shiftOut_enc]; exact shl8_add_ff s.high
  · rw [shiftOut_dec]; exact shl8_add_ff s.high

theorem shiftOut_code (s : State) :
    (s.shiftOut true).code.toNat = s.code.toNat % 2 ^ 24 * 256 + s.srcByte s.inPos.toNat := by
  rw [shiftOut_dec]; exact shiftCode_code s

/-- The interval is ordered, and for a decoder `CODE` is in it. -/
def State.Ordered (dec : Bool) (s : State) : Prop :=
  s.low.toNat ≤ s.high.toNat ∧ (dec = true → s.low.toNat ≤ s.code.toNat ∧ s.code.toNat ≤ s.high.toNat)

/-- A shift step keeps the interval ordered (41_range_coder.md R104). -/
theorem shiftOut_ordered {dec : Bool} {s : State} (hs : s.settled = true) (h : s.Ordered dec) :
    (s.shiftOut dec).Ordered dec := by
  have e := (settled_iff s).1 hs
  have h1 := s.low.isLt
  have h2 := s.high.isLt
  have h3 := s.code.isLt
  obtain ⟨ho, hc⟩ := h
  refine ⟨by rw [shiftOut_low, shiftOut_high]; omega, fun hd => ?_⟩
  subst hd
  obtain ⟨hc1, hc2⟩ := hc rfl
  have hb := s.srcByte_lt s.inPos.toNat
  rw [shiftOut_low, shiftOut_high, shiftOut_code]
  omega

/-- `k` shift steps. -/
def State.shifts (dec : Bool) : Nat → State → State
  | 0, s => s
  | k + 1, s => State.shifts dec k (s.shiftOut dec)

/-- After `k` shift steps the low `8 k` bits of `LOW` are 0. -/
theorem shifts_low (dec : Bool) (k : Nat) (hk : k ≤ 4) (s : State) :
    (State.shifts dec k s).low.toNat = s.low.toNat % 2 ^ (32 - 8 * k) * 256 ^ k ∧
    (State.shifts dec k s).high.toNat = s.high.toNat % 2 ^ (32 - 8 * k) * 256 ^ k + (256 ^ k - 1) := by
  have h1 := s.low.isLt
  have h2 := s.high.isLt
  have a := fun t => shiftOut_low t dec
  have b := fun t => shiftOut_high t dec
  interval_cases k <;> simp only [State.shifts, a, b] <;> omega

/-- What `Renorm` does: the least number of shift steps, at most 4, after which the top bytes differ
(41_range_coder.md R102, R103). -/
theorem renorm_spec (s : State) (dec : Bool) :
    ∃ k ≤ 4, s.renorm dec = State.shifts dec k s ∧ (∀ j < k, (State.shifts dec j s).settled = true) ∧
      (State.shifts dec k s).settled = false := by
  have go : ∀ (n : Nat) (t : State),
      ∃ k ≤ n, State.renormLoop dec n t = State.shifts dec k t ∧ (∀ j < k, (State.shifts dec j t).settled = true) ∧
        (k < n → (State.shifts dec k t).settled = false) := by
    intro n
    induction n with
    | zero => exact fun t => ⟨0, Nat.le_refl _, rfl, by simp, by simp⟩
    | succ n ih =>
      intro t
      unfold State.renormLoop
      split
      · rename_i ht
        obtain ⟨k, h1, h2, h3, h4⟩ := ih (t.shiftOut dec)
        refine ⟨k + 1, by omega, h2, ?_, fun h => h4 (by omega)⟩
        intro j hj
        cases j with
        | zero => exact ht
        | succ j => exact h3 j (by omega)
      · rename_i ht
        exact ⟨0, by omega, rfl, by simp, fun _ => by simpa [State.shifts] using ht⟩
  obtain ⟨k, h1, h2, h3, h4⟩ := go 4 s
  refine ⟨k, h1, h2, h3, ?_⟩
  rcases Nat.lt_or_ge k 4 with c | c
  · exact h4 c
  · have hk : k = 4 := by omega
    subst hk
    obtain ⟨e1, e2⟩ := shifts_low dec 4 (by omega) s
    by_contra hn
    have := (settled_iff _).1 (by simpa using hn)
    rw [e1, e2] at this
    omega

/-- Shift steps keep the interval ordered. -/
theorem shifts_ordered {dec : Bool} {k : Nat} {s : State} (hs : ∀ j < k, (State.shifts dec j s).settled = true)
    (h : s.Ordered dec) : (State.shifts dec k s).Ordered dec := by
  induction k generalizing s with
  | zero => exact h
  | succ k ih =>
    exact ih (fun j hj => hs (j + 1) (by omega)) (shiftOut_ordered (hs 0 (by omega)) h)

/-- After `Renorm` the top bytes differ and the interval is ordered (41_range_coder.md R104). -/
theorem renorm_ordered {dec : Bool} {s : State} (h : s.Ordered dec) :
    (s.renorm dec).Ordered dec ∧ (s.renorm dec).settled = false ∧
      (s.renorm dec).low.toNat < (s.renorm dec).high.toNat := by
  obtain ⟨k, -, e, h1, h2⟩ := renorm_spec s dec
  rw [e]
  have ho := shifts_ordered h1 h
  refine ⟨ho, h2, ?_⟩
  rcases Nat.lt_or_ge (State.shifts dec k s).low.toNat (State.shifts dec k s).high.toNat with c | c
  · exact c
  · have := ho.1
    have hn := (settled_iff (State.shifts dec k s)).2 (by rw [show
      (State.shifts dec k s).low.toNat = (State.shifts dec k s).high.toNat by omega])
    rw [h2] at hn
    exact absurd hn (by simp)

/-- What an encoder's shift steps leave alone: all but `LOW`, `HIGH`, the sink and its buffer. -/
theorem shifts_enc_frame (k : Nat) (s : State) :
    State.shifts false k s = { s with
      low := (State.shifts false k s).low, high := (State.shifts false k s).high
      snk := (State.shifts false k s).snk, undrained := s.undrained + k } ∧
    ∃ bs : List Byte, bs.length = k ∧ (State.shifts false k s).snk = s.snk ++ bs := by
  induction k generalizing s with
  | zero => exact ⟨rfl, [], rfl, by simp [State.shifts]⟩
  | succ k ih =>
    obtain ⟨h1, bs, h2, h3⟩ := ih (s.shiftOut false)
    refine ⟨?_, s.low.extractLsb' 24 8 :: bs, by simp [h2], ?_⟩
    · simp only [State.shifts]
      conv_lhs => rw [h1]
      simp only [shiftOut_enc, Nat.add_assoc, Nat.add_comm 1 k]
    · rw [State.shifts, h3, shiftOut_enc, List.append_assoc]; rfl

/-- What a decoder's shift steps leave alone: all but `LOW`, `HIGH`, `CODE`, the cursor and `PEND`. -/
theorem shifts_dec_frame (k : Nat) (s : State) :
    State.shifts true k s = { s with
      low := (State.shifts true k s).low, high := (State.shifts true k s).high
      code := (State.shifts true k s).code, inPos := (State.shifts true k s).inPos
      pend := (State.shifts true k s).pend } := by
  induction k generalizing s with
  | zero => rfl
  | succ k ih =>
    simp only [State.shifts]
    conv_lhs => rw [ih]
    simp only [shiftOut_dec]

/-- The cursor after a decoder's shift steps: one byte each, stopping at the end of the source. -/
theorem shifts_dec_cursor (k : Nat) (s : State) (h : s.inPos.toNat ≤ s.src.length) (hl : s.src.length < 2 ^ 32) :
    (State.shifts true k s).inPos.toNat = min (s.inPos.toNat + k) s.src.length ∧
    (State.shifts true k s).pend = (s.pend || decide (s.src.length < s.inPos.toNat + k)) := by
  induction k generalizing s with
  | zero => simp only [State.shifts]; refine ⟨by omega, by simp; omega⟩
  | succ k ih =>
    have hc := cursor_toNat s h hl
    have e1 : (s.shiftOut true).src = s.src := by rw [shiftOut_dec]
    have e2 : (s.shiftOut true).inPos.toNat = min (s.inPos.toNat + 1) s.src.length := by rw [shiftOut_dec]; exact hc
    have e3 : (s.shiftOut true).pend = (s.pend || decide (s.src.length ≤ s.inPos.toNat)) := by rw [shiftOut_dec]
    obtain ⟨h1, h2⟩ := ih (s.shiftOut true) (by rw [e1, e2]; omega) (by rw [e1]; exact hl)
    simp only [State.shifts]
    refine ⟨by rw [h1, e1, e2]; omega, ?_⟩
    rw [h2, e1, e2, e3, Bool.or_assoc]
    congr 1
    rw [← Bool.decide_or]
    exact decide_eq_decide.2 (by omega)

end Sys2Proof.Machine
end

