-- ==== Sys2Proof/Laws/Sums.lean ====
section
/-! SUPPORT. Prefix sums of count lists (00_scope.md R12): successor, monotonicity, point updates, the counts of a
slot record, the counts open under a mask, and the linear search. -/

namespace Sys2Proof.Machine

/-! ### Lists -/

@[simp] theorem prefixSum_zero (l : List Nat) : prefixSum l 0 = 0 := by simp [prefixSum]

theorem prefixSum_succ (l : List Nat) (i : Nat) : prefixSum l (i + 1) = prefixSum l i + l.getD i 0 := by
  unfold prefixSum
  rcases Nat.lt_or_ge i l.length with h | h
  · rw [List.take_succ_eq_append_getElem h]
    simp [h]
  · rw [List.take_of_length_le h, List.take_of_length_le (by omega)]
    simp [h]

theorem prefixSum_mono (l : List Nat) {i j : Nat} (h : i ≤ j) : prefixSum l i ≤ prefixSum l j := by
  induction h with
  | refl => exact Nat.le_refl _
  | step _ ih => rw [prefixSum_succ]; omega

theorem prefixSum_of_length_le (l : List Nat) {i : Nat} (h : l.length ≤ i) : prefixSum l i = l.sum := by
  rw [prefixSum, List.take_of_length_le h]

theorem prefixSum_take (l : List Nat) {i n : Nat} (h : i ≤ n) : prefixSum (l.take n) i = prefixSum l i := by
  simp [prefixSum, List.take_take, Nat.min_eq_left h]

theorem sum_take_drop (l : List Nat) (a n : Nat) :
    prefixSum l a + ((l.drop a).take n).sum = prefixSum l (a + n) := by
  simp [prefixSum, List.take_add]

/-- Adding 1 at index `i` raises the prefix sums beyond `i` by 1. -/
theorem prefixSum_set (l : List Nat) (i j : Nat) (h : i < l.length) :
    prefixSum (l.set i (l.getD i 0 + 1)) j = prefixSum l j + if i < j then 1 else 0 := by
  induction j with
  | zero => simp
  | succ j ih =>
    rw [prefixSum_succ, prefixSum_succ, ih]
    rcases Nat.lt_trichotomy i j with c | c | c
    · simp [List.getD, c, Nat.ne_of_lt c, Nat.le_of_lt c]; omega
    · subst c; simp [List.getD, h]; omega
    · simp [List.getD, Nat.ne_of_gt c, Nat.not_lt_of_gt c, show ¬ i < j + 1 by omega]

theorem seen_le_length (l : List Nat) : seen l ≤ l.length := List.countP_le_length

/-- The position `locate` answers holds `f`. -/
theorem locate_spec (l : List Nat) (f : Nat) (h : f < l.sum) :
    locate l f < l.length ∧ prefixSum l (locate l f) ≤ f ∧
      f < prefixSum l (locate l f) + l.getD (locate l f) 0 := by
  induction l generalizing f with
  | nil => simp at h
  | cons c l ih =>
    unfold locate
    split
    · rename_i hc
      simp [hc]
    · rename_i hc
      have h' : f - c < l.sum := by simp at h; omega
      obtain ⟨h1, h2, h3⟩ := ih (f - c) h'
      have e : prefixSum (c :: l) (locate l (f - c) + 1) = c + prefixSum l (locate l (f - c)) := by
        simp [prefixSum]
      refine ⟨by simp; omega, by rw [e]; omega, ?_⟩
      rw [e]
      simp only [List.getD_cons_succ]
      omega

/-- Intervals of a count list do not overlap: the position that holds `f` is unique. -/
theorem interval_unique (l : List Nat) (f : Nat) {i j : Nat}
    (hi : prefixSum l i ≤ f ∧ f < prefixSum l i + l.getD i 0)
    (hj : prefixSum l j ≤ f ∧ f < prefixSum l j + l.getD j 0) : i = j := by
  rw [← prefixSum_succ] at hi hj
  rcases Nat.lt_trichotomy i j with c | c | c
  · have := prefixSum_mono l (show i + 1 ≤ j by omega); omega
  · exact c
  · have := prefixSum_mono l (show j + 1 ≤ i by omega); omega

/-! ### Counts of a slot record -/

@[simp] theorem Slot.counts_length (m : Slot) : m.counts.length = 257 := by simp [Slot.counts]

@[simp] theorem Slot.byteCounts_length (m : Slot) : m.byteCounts.length = 256 := by simp [Slot.byteCounts]

@[simp] theorem Slot.openCounts_length (m : Slot) (e : ExclMask) : (m.openCounts e).length = 256 := by
  simp [Slot.openCounts]

theorem tableAt_toNat (t : Table) (i : Nat) : (tableAt t i).toNat = (t.toList.map BitVec.toNat).getD i 0 := by
  simp only [tableAt, List.getD, List.getElem?_map]
  cases t.toList[i]? <;> rfl

theorem Slot.cntAt_eq (m : Slot) (i : Nat) : m.cntAt i = (tableAt m.cnt i).toNat := (tableAt_toNat m.cnt i).symm

theorem Slot.cumlo_zero (m : Slot) : m.cumlo 0 = 0 := prefixSum_zero _

theorem Slot.cumlo_succ (m : Slot) (i : Nat) : m.cumlo (i + 1) = m.cumlo i + m.cntAt i := prefixSum_succ _ i

theorem Slot.cumlo_mono (m : Slot) {i j : Nat} (h : i ≤ j) : m.cumlo i ≤ m.cumlo j := prefixSum_mono _ h

theorem Slot.sumBytes_add_escape (m : Slot) : m.sumBytes + m.cntAt 256 = m.cumlo 257 := (m.cumlo_succ 256).symm

theorem Slot.seenBytes_le (m : Slot) : m.seenBytes ≤ 256 := by
  have := seen_le_length m.byteCounts
  simpa [Slot.seenBytes] using this

/-- A byte's count, or 0 when the mask excludes it. -/
theorem Slot.openCounts_getD (m : Slot) (e : ExclMask) (i : Nat) :
    (m.openCounts e).getD i 0 = if i < 256 ∧ e.getLsbD i = false then m.cntAt i else 0 := by
  by_cases h : i < 256
  · have h1 : m.byteCounts[i]? = some (m.cntAt i) := by
      have hl : i < m.counts.length := by simp; omega
      simp [Slot.byteCounts, h, Slot.cntAt, List.getD, List.getElem?_eq_getElem hl]
    rw [List.getD, Slot.openCounts, List.getElem?_map, List.getElem?_zipIdx, h1]
    simp only [Option.map_some, Option.getD_some, Nat.zero_add, h, true_and]
    cases e.getLsbD i <;> rfl
  · simp [List.getD, h]

theorem Slot.cumloEx_zero (m : Slot) (e : ExclMask) : m.cumloEx e 0 = 0 := prefixSum_zero _

theorem Slot.cumloEx_succ (m : Slot) (e : ExclMask) (i : Nat) :
    m.cumloEx e (i + 1) = m.cumloEx e i + if i < 256 ∧ e.getLsbD i = false then m.cntAt i else 0 := by
  rw [Slot.cumloEx, prefixSum_succ, Slot.openCounts_getD]; rfl

theorem Slot.cumloEx_mono (m : Slot) (e : ExclMask) {i j : Nat} (h : i ≤ j) : m.cumloEx e i ≤ m.cumloEx e j :=
  prefixSum_mono _ h

theorem Slot.cumloEx_le (m : Slot) (e : ExclMask) (i : Nat) : m.cumloEx e i ≤ m.cumlo i := by
  induction i with
  | zero => simp [Slot.cumloEx_zero]
  | succ i ih => rw [Slot.cumloEx_succ, Slot.cumlo_succ]; split <;> omega

/-- With an empty mask nothing is excluded. -/
theorem Slot.openCounts_empty (m : Slot) : m.openCounts 0#256 = m.byteCounts := by
  apply List.ext_getElem?
  intro i
  simp only [Slot.openCounts, List.getElem?_map, List.getElem?_zipIdx]
  cases m.byteCounts[i]? <;> simp

theorem Slot.cumloEx_empty (m : Slot) {i : Nat} (h : i ≤ 256) : m.cumloEx 0#256 i = m.cumlo i := by
  rw [Slot.cumloEx, Slot.openCounts_empty, Slot.byteCounts, prefixSum_take _ h]; rfl

theorem seen_openCounts_le (l : List Nat) (e : ExclMask) (n : Nat) :
    seen ((l.zipIdx n).map fun p => if e.getLsbD p.2 then 0 else p.1) ≤ seen l := by
  induction l generalizing n with
  | nil => simp [seen]
  | cons c l ih =>
    have := ih (n + 1)
    simp only [seen, List.zipIdx_cons, List.map_cons, List.countP_cons] at this ⊢
    cases he : e.getLsbD n <;> simp only [Bool.false_eq_true, if_false, if_true] <;> (split <;> simp_all <;> omega)

theorem Slot.seenBytesEx_le (m : Slot) (e : ExclMask) : m.seenBytesEx e ≤ m.seenBytes :=
  seen_openCounts_le _ _ 0

/-- The excluded view's total is at most the view's (10_state.md R41 item 6). -/
theorem Slot.wbtEx_le (m : Slot) (e : ExclMask) : m.wbtEx e ≤ m.wbt := by
  have h1 := m.cumloEx_le e 256
  have h2 := m.seenBytesEx_le e
  simp only [Slot.wbtEx, Slot.wbt, Slot.sumBytesEx, Slot.sumBytes]
  omega

/-! ### Tables -/

@[simp] theorem tabulate_toList (f : Nat → Half) : (tabulate f).toList = (List.range 257).map f := rfl

@[simp] theorem tableSet_toList (t : Table) (i : Nat) (v : Half) : (tableSet t i v).toList = t.toList.set i v := rfl

@[simp] theorem tableMap_toList (f : Half → Half) (t : Table) : (tableMap f t).toList = t.toList.map f := rfl

theorem tableAt_tabulate (f : Nat → Half) {i : Nat} (h : i < 257) : tableAt (tabulate f) i = f i := by
  simp [tableAt, List.getD, h]

theorem tableAt_set_self (t : Table) {i : Nat} (v : Half) (h : i < 257) : tableAt (tableSet t i v) i = v := by
  simp [tableAt, List.getD, h]

theorem tableAt_set_ne (t : Table) {i j : Nat} (v : Half) (h : i ≠ j) : tableAt (tableSet t i v) j = tableAt t j := by
  simp [tableAt, List.getD, h]

theorem tableAt_map (f : Half → Half) (t : Table) {i : Nat} (h : i < 257) :
    tableAt (tableMap f t) i = f (tableAt t i) := by
  have hl : i < t.toList.length := by simp; omega
  simp only [tableAt, tableMap_toList, List.getD, List.getElem?_map, List.getElem?_eq_getElem hl, Option.map_some,
    Option.getD_some]

end Sys2Proof.Machine
end

