-- ==== Sys2Proof/Laws/Fenwick.lean ====
section
/-! SUPPORT. The Fenwick procedures (10_state.md R31, 42_model257.md R140, R141): what each does, once. -/

namespace Sys2Proof.Machine

theorem lowbit_odd (k : Nat) : lowbit (2 * k + 1) = 1 := by
  have : (2 * k + 1) &&& (2 * k) = 2 * k := by
    apply Nat.eq_of_testBit_eq
    intro i
    cases i with
    | zero => simp
    | succ i => rw [Nat.testBit_and]; simp [Nat.testBit_succ, show (2 * k + 1) / 2 = k by omega]
  simp [lowbit, this]

theorem lowbit_even {k : Nat} (h : 0 < k) : lowbit (2 * k) = 2 * lowbit k := by
  have : (2 * k) &&& (2 * k - 1) = 2 * (k &&& (k - 1)) := by
    apply Nat.eq_of_testBit_eq
    intro i
    cases i with
    | zero => simp
    | succ i => rw [Nat.testBit_and]; simp [Nat.testBit_succ, show (2 * k - 1) / 2 = k - 1 by omega]
  simp only [lowbit, this]; omega

/-- The lowest set bit of a positive number lies between 1 and the number. -/
theorem lowbit_bounds {k : Nat} (h : 0 < k) : 1 ≤ lowbit k ∧ lowbit k ≤ k := by
  induction k using Nat.strong_induction_on with
  | _ k ih =>
    rcases Nat.even_or_odd' k with ⟨j, rfl | rfl⟩
    · have := ih j (by omega) (by omega)
      rw [lowbit_even (by omega)]; omega
    · rw [lowbit_odd]; omega

/-- Node `k` of the Fenwick array counts the symbol of index `i - 1` (10_state.md R31). -/
def Covers (k i : Nat) : Prop := k - lowbit k < i ∧ i ≤ k

/-- The path of a point update visits exactly the nodes that cover the updated index. -/
theorem covers_step {i k : Nat} (hi : 0 < i) (hk : 0 < k) :
    Covers k i ↔ k = i ∨ Covers k (i + lowbit i) := by
  induction i using Nat.strong_induction_on generalizing k with
  | _ i ih =>
    have hb := lowbit_bounds hk
    unfold Covers at *
    rcases Nat.even_or_odd' i with ⟨i', rfl | rfl⟩
    · rcases Nat.even_or_odd' k with ⟨k', rfl | rfl⟩
      · have := ih i' (by omega) (k := k') (by omega) (by omega)
        rw [lowbit_even (by omega), lowbit_even (by omega)]
        have hb' := lowbit_bounds (k := k') (by omega)
        have hb' := lowbit_bounds (k := i') (by omega)
        omega
      · have hb' := lowbit_bounds (k := i') (by omega)
        rw [lowbit_odd, lowbit_even (by omega)]; omega
    · rw [lowbit_odd]
      rcases Nat.even_or_odd' k with ⟨k', rfl | rfl⟩
      · rw [lowbit_even (by omega)] at *; omega
      · rw [lowbit_odd] at *; omega

theorem Covers.le {k i : Nat} (h : Covers k i) : i ≤ k := h.2

/-- What the loop of `FenAdd` does: `d` joins every node that covers index `i`, and no other. -/
theorem fenAddFrom_at (d : Half) {fuel i k : Nat} (t : Table) (hi : 0 < i) (hf : 258 ≤ fuel + i) (hk : 0 < k)
    (hk' : k ≤ 257) [Decidable (Covers k i)] :
    tableAt (fenAddFrom d fuel i t) (k - 1) = tableAt t (k - 1) + if Covers k i then d else 0#16 := by
  induction fuel generalizing i t with
  | zero =>
    have : ¬ Covers k i := fun h => by have := h.le; omega
    simp [fenAddFrom, this]
  | succ fuel ih =>
    unfold fenAddFrom
    have hb := lowbit_bounds hi
    split
    · rename_i hle
      have : Decidable (Covers k (i + lowbit i)) := Classical.propDecidable _
      rw [ih (tableSet t (i - 1) (tableAt t (i - 1) + d)) (by omega) (by omega)]
      have hc := covers_step hi hk
      rcases Nat.lt_trichotomy k i with c | c | c
      · have h1 : ¬ Covers k i := fun h => by have := h.le; omega
        have h2 : ¬ Covers k (i + lowbit i) := fun h => by have := h.le; omega
        rw [tableAt_set_ne _ _ (by omega)]
        simp [h1, h2]
      · subst c
        have h2 : ¬ Covers k (k + lowbit k) := fun h => by have := h.le; omega
        have h1 : Covers k k := hc.2 (.inl rfl)
        rw [tableAt_set_self _ _ (by omega)]
        simp [h1, h2]
      · rw [tableAt_set_ne _ _ (by omega)]
        by_cases h2 : Covers k (i + lowbit i)
        · simp [h2, hc.2 (.inr h2)]
        · have h1 : ¬ Covers k i := fun h => by
            rcases hc.1 h with h | h
            · omega
            · exact h2 h
          simp [h1, h2]
    · rename_i hle
      have : ¬ Covers k i := fun h => by have := h.le; omega
      simp [this]

/-! ### Nodes and prefix sums -/

theorem fenNode_add (l : List Nat) {k : Nat} (h : 0 < k) :
    prefixSum l (k - lowbit k) + fenNode l k = prefixSum l k := by
  have hb := lowbit_bounds h
  rw [fenNode, sum_take_drop, show k - lowbit k + lowbit k = k by omega]

theorem fenNode_le (l : List Nat) {k : Nat} (h : 0 < k) : fenNode l k ≤ prefixSum l k := by
  have := fenNode_add l h; omega

/-- Counting one more at index `i` raises exactly the nodes that cover it. -/
theorem fenNode_set (l : List Nat) {i k : Nat} (hi : i < l.length) (hk : 0 < k) [Decidable (Covers k (i + 1))] :
    fenNode (l.set i (l.getD i 0 + 1)) k = fenNode l k + if Covers k (i + 1) then 1 else 0 := by
  have h1 := fenNode_add l hk
  have h2 := fenNode_add (l.set i (l.getD i 0 + 1)) hk
  have hb := lowbit_bounds hk
  rw [prefixSum_set _ _ _ hi, prefixSum_set _ _ _ hi] at h2
  by_cases h : Covers k (i + 1)
  · have ha : ¬ i < k - lowbit k := by have := h.1; omega
    have hb : i < k := h.2
    simp only [h, if_true, ha, hb, if_false] at h2 ⊢; omega
  · simp only [h, if_false]
    by_cases hc : i < k
    · have ha : i < k - lowbit k := by
        by_contra hn
        exact h ⟨by omega, by omega⟩
      simp only [hc, ha, if_true] at h2; omega
    · have ha : ¬ i < k - lowbit k := by omega
      simp only [hc, ha, if_false] at h2; omega

/-- The Fenwick invariant of 10_state.md R31. -/
def Slot.FenOk (m : Slot) : Prop := ∀ j < 257, m.fenAt (j + 1) = fenNode m.counts (j + 1)

/-- `FenRebuild` establishes the Fenwick invariant, sums being below 2^16. -/
theorem fenRebuild_ok (m : Slot) (h : m.cumlo 257 < 2 ^ 16) : m.fenRebuild.FenOk := by
  intro j hj
  have h1 : m.fenRebuild.counts = m.counts := rfl
  have h2 := fenNode_le m.counts (show 0 < j + 1 by omega)
  have h3 := m.cumlo_mono (show j + 1 ≤ 257 by omega)
  simp only [Slot.cumlo] at h3 h
  rw [h1, Slot.fenAt, Nat.add_sub_cancel, Slot.fenRebuild, tableAt_tabulate _ hj, BitVec.toNat_ofNat,
    Nat.mod_eq_of_lt (by omega)]

/-- `FenAdd` keeps the Fenwick invariant when the count it stands for is raised. -/
theorem fenAdd_ok (m n : Slot) {sym : Nat} (hs : sym < 257) (hm : m.FenOk) (hfen : n.fen = m.fen)
    (hcnt : n.counts = m.counts.set sym (m.cntAt sym + 1)) (hsum : n.cumlo 257 < 2 ^ 16) :
    (n.fenAdd sym 1#16).FenOk := by
  intro j hj
  have : Decidable (Covers (j + 1) (sym + 1)) := Classical.propDecidable _
  have h1 : (n.fenAdd sym 1#16).counts = n.counts := rfl
  have h2 : fenNode n.counts (j + 1) = fenNode m.counts (j + 1) + if Covers (j + 1) (sym + 1) then 1 else 0 := by
    rw [hcnt]; exact fenNode_set m.counts (by simpa using hs) (by omega)
  have h3 := fenNode_le n.counts (show 0 < j + 1 by omega)
  have h4 := n.cumlo_mono (show j + 1 ≤ 257 by omega)
  simp only [Slot.cumlo] at h4 hsum
  have h5 := hm j hj
  have h6 := fenAddFrom_at 1#16 (fuel := 257) (k := j + 1) n.fen (show 0 < sym + 1 by omega) (by omega) (by omega)
    (by omega)
  rw [h1, h2, Slot.fenAt, Slot.fenAdd, h6, hfen, BitVec.toNat_add]
  rw [Slot.fenAt] at h5
  rw [h5]
  split at h2 <;> simp_all <;> omega

/-! ### The descent (42_model257.md R140) -/

/-- Where a descent stands before its step of size `step`: at a multiple of `2 * step`, with `f` between the prefix
sums there and `2 * step` further on (or at the end). -/
def Slot.Descending (m : Slot) (f step : Nat) (p : Nat × Nat) : Prop :=
  (2 * step) ∣ p.1 ∧ p.1 ≤ 257 ∧ m.cumlo p.1 ≤ f ∧ p.2 = f - m.cumlo p.1 ∧
    f < m.cumlo (min (p.1 + 2 * step) 257)

theorem lowbit_odd_mul (a : Nat) (t : Nat) : lowbit ((2 * a + 1) * 2 ^ t) = 2 ^ t := by
  induction t with
  | zero => simpa using lowbit_odd a
  | succ t ih =>
    rw [show (2 * a + 1) * 2 ^ (t + 1) = 2 * ((2 * a + 1) * 2 ^ t) by ring, lowbit_even (by positivity), ih]
    ring

/-- One step of the descent halves the distance. -/
theorem fenStep_descending (m : Slot) (hm : m.FenOk) {f t : Nat} {p : Nat × Nat}
    (h : m.Descending f (2 ^ t) p) :
    (m.fenStep p (2 ^ t)).1 ≤ 257 ∧ (2 ^ t) ∣ (m.fenStep p (2 ^ t)).1 ∧ m.cumlo (m.fenStep p (2 ^ t)).1 ≤ f ∧
      (m.fenStep p (2 ^ t)).2 = f - m.cumlo (m.fenStep p (2 ^ t)).1 ∧
      f < m.cumlo (min ((m.fenStep p (2 ^ t)).1 + 2 ^ t) 257) := by
  obtain ⟨⟨a, ha⟩, h2, h3, h4, h5⟩ := h
  have hpos : 0 < 2 ^ t := by positivity
  have hd : (2 ^ t) ∣ p.1 := ⟨2 * a, by rw [ha]; ring⟩
  unfold Slot.fenStep
  by_cases hle : p.1 + 2 ^ t ≤ 257
  · have hlb : lowbit (p.1 + 2 ^ t) = 2 ^ t := by
      rw [show p.1 + 2 ^ t = (2 * a + 1) * 2 ^ t by rw [ha]; ring]
      exact lowbit_odd_mul a t
    have hn := fenNode_add m.counts (show 0 < p.1 + 2 ^ t by omega)
    have hf := hm (p.1 + 2 ^ t - 1) (by omega)
    rw [show p.1 + 2 ^ t - 1 + 1 = p.1 + 2 ^ t by omega] at hf
    rw [hlb, Nat.add_sub_cancel] at hn
    simp only [← hf, ← Slot.cumlo.eq_1] at hn
    split
    · rename_i hc
      refine ⟨hle, Dvd.dvd.add hd (dvd_refl _), by simp only; omega, by simp only; omega, ?_⟩
      simpa [Nat.add_assoc, Nat.two_mul] using h5
    · rename_i hc
      refine ⟨h2, hd, h3, h4, ?_⟩
      rw [Nat.min_eq_left hle]
      have : ¬ m.fenAt (p.1 + 2 ^ t) ≤ p.2 := fun hh => hc ⟨hle, hh⟩
      omega
  · have hc : ¬ (p.1 + 2 ^ t ≤ 257 ∧ m.fenAt (p.1 + 2 ^ t) ≤ p.2) := fun hh => hle hh.1
    rw [if_neg hc]
    refine ⟨h2, hd, h3, h4, ?_⟩
    rw [Nat.min_eq_right (by omega)] at h5 ⊢
    exact h5

/-- `FenFind(s, f)` answers the symbol whose interval holds `f` (42_model257.md R140). -/
theorem fenFind_spec (m : Slot) (hm : m.FenOk) {f : Nat} (h : f < m.cumlo 257) :
    m.fenFind f ≤ 256 ∧ m.cumlo (m.fenFind f) ≤ f ∧ f < m.cumlo (m.fenFind f) + m.cntAt (m.fenFind f) := by
  have go : ∀ (t : Nat) (p : Nat × Nat), m.Descending f (2 ^ (t + 1)) p → m.Descending f (2 ^ t) (m.fenStep p (2 ^ (t + 1))) := by
    intro t p hp
    obtain ⟨h1, h2, h3, h4, h5⟩ := fenStep_descending m hm hp
    rw [show 2 ^ (t + 1) = 2 * 2 ^ t by ring] at *
    exact ⟨h2, h1, h3, h4, h5⟩
  have s0 : m.Descending f (2 ^ 8) (0, f) :=
    ⟨dvd_zero _, by simp, by simp [Slot.cumlo_zero], by simp [Slot.cumlo_zero], by simpa using h⟩
  have s8 := fenStep_descending m hm (go 0 _ (go 1 _ (go 2 _ (go 3 _ (go 4 _ (go 5 _ (go 6 _ (go 7 _ s0))))))))
  obtain ⟨h1, -, h3, -, h5⟩ := s8
  have hdef : m.fenFind f = (m.fenStep (m.fenStep (m.fenStep (m.fenStep (m.fenStep (m.fenStep (m.fenStep (m.fenStep
      (m.fenStep (0, f) (2 ^ 8)) (2 ^ 7)) (2 ^ 6)) (2 ^ 5)) (2 ^ 4)) (2 ^ 3)) (2 ^ 2)) (2 ^ 1)) (2 ^ 0)).1 := by
    simp only [Slot.fenFind, List.foldl_cons, List.foldl_nil, Nat.reducePow]
  simp only [Nat.zero_add, Nat.reduceAdd] at h1 h3 h5
  rw [← hdef] at h1 h3 h5
  rw [← Slot.cumlo_succ]
  rcases Nat.lt_or_ge (m.fenFind f) 257 with c | c
  · rw [Nat.min_eq_left (by simpa using c)] at h5
    exact ⟨by omega, h3, by simpa using h5⟩
  · rw [Nat.min_eq_right (by omega)] at h5
    have : m.fenFind f = 257 := by omega
    rw [this] at h3
    omega

end Sys2Proof.Machine
end

