-- ==== Sys2Proof/Laws/Slots.lean ====
section
/-! SUPPORT. Slot records: what the initial states, a count, a rescale and a bump do, once each, and that they keep
the invariant of 10_state.md R41 and R31. -/

namespace Sys2Proof.Machine

/-! ### Thresholds and counts -/

theorem Slot.thr_cases (m : Slot) : m.thr = 2 ^ 14 ∨ m.thr = 2 ^ 15 := by unfold Slot.thr; split <;> simp

theorem Slot.cntAt_le_cumlo (m : Slot) {i : Nat} (h : i < 257) : m.cntAt i ≤ m.cumlo 257 := by
  have h1 := m.cumlo_succ i
  have h2 := m.cumlo_mono (show i + 1 ≤ 257 by omega)
  omega

theorem Slot.counts_getD (m : Slot) (i : Nat) : m.counts.getD i 0 = m.cntAt i := rfl

theorem Slot.byteCounts_getD (m : Slot) {i : Nat} (h : i < 256) : m.byteCounts.getD i 0 = m.cntAt i := by
  rw [Slot.byteCounts, Slot.cntAt, List.getD, List.getD, List.getElem?_take, if_pos h]

/-- The invariant of a valid slot, from its parts. -/
theorem Slot.Inv.mk' {m : Slot} (h1 : m.total.toNat = m.cumlo 257) (h2 : 1 ≤ m.cntAt 256) (h3 : m.cumlo 257 < m.thr)
    (h4 : m.uniq.toNat = m.seenBytes) (h5 : m.FenOk) : m.Inv := fun _ => by
  have hc := m.cntAt_le_cumlo (i := 256) (by omega)
  refine ⟨h1, by omega, by omega, h2, h4, fun i hi => ?_, h5⟩
  have := m.cntAt_le_cumlo hi
  have := m.thr_cases
  omega

/-! ### Initial states (42_model257.md R130, R131) -/

theorem fresh_fenOk (th : Bool) (cnt : Table) (total uniq : Nat) (h : (Slot.fresh th cnt total uniq).cumlo 257 < 2 ^ 16) :
    (Slot.fresh th cnt total uniq).FenOk :=
  fenRebuild_ok (Slot.fresh th cnt total uniq) h

@[simp] theorem escapeOnly_valid (th : Bool) : (Slot.escapeOnly th).valid = true := rfl
@[simp] theorem escapeOnly_th (th : Bool) : (Slot.escapeOnly th).th = th := rfl
@[simp] theorem uniform_valid (th : Bool) : (Slot.uniform th).valid = true := rfl
@[simp] theorem uniform_th (th : Bool) : (Slot.uniform th).th = th := rfl

theorem escapeOnly_sum (th : Bool) : (Slot.escapeOnly th).cumlo 257 = 1 := by cases th <;> decide +kernel

theorem uniform_sum (th : Bool) : (Slot.uniform th).cumlo 257 = 257 := by cases th <;> decide +kernel

theorem escapeOnly_cntAt (th : Bool) {i : Nat} (h : i < 257) :
    (Slot.escapeOnly th).cntAt i = if i = 256 then 1 else 0 := by
  rw [Slot.cntAt_eq, Slot.escapeOnly, Slot.fresh, tableAt_tabulate _ h]
  by_cases c : i = 256 <;> simp [Config.escape, c]

theorem uniform_cntAt (th : Bool) {i : Nat} (h : i < 257) : (Slot.uniform th).cntAt i = 1 := by
  rw [Slot.cntAt_eq, Slot.uniform, Slot.fresh, tableAt_tabulate _ h]; rfl

theorem thr_gt (m : Slot) : 257 < m.thr := by have := m.thr_cases; omega

/-- The escape-only state satisfies the invariant. -/
theorem escapeOnly_inv (th : Bool) : (Slot.escapeOnly th).Inv := by
  have hs := escapeOnly_sum th
  have ht := thr_gt (Slot.escapeOnly th)
  refine Slot.Inv.mk' ?_ ?_ (by omega) ?_ (fresh_fenOk _ _ _ _ (by simpa [Slot.escapeOnly] using hs.trans_lt (by norm_num)))
  · rw [hs]; rfl
  · rw [escapeOnly_cntAt th (by omega)]; simp
  · cases th <;> decide +kernel

/-- The uniform-256 state satisfies the invariant. -/
theorem uniform_inv (th : Bool) : (Slot.uniform th).Inv := by
  have hs := uniform_sum th
  have ht := thr_gt (Slot.uniform th)
  refine Slot.Inv.mk' ?_ ?_ (by omega) ?_ (fresh_fenOk _ _ _ _ (by simpa [Slot.uniform] using hs.trans_lt (by norm_num)))
  · rw [hs]; rfl
  · rw [uniform_cntAt th (by omega)]
  · cases th <;> decide +kernel

/-! ### Counting one occurrence (42_model257.md R135) -/

@[simp] theorem count_valid (m : Slot) (sym : Nat) : (m.count sym).valid = m.valid := rfl
@[simp] theorem count_th (m : Slot) (sym : Nat) : (m.count sym).th = m.th := rfl
@[simp] theorem count_thr (m : Slot) (sym : Nat) : (m.count sym).thr = m.thr := rfl

theorem count_total (m : Slot) (sym : Nat) : (m.count sym).total = m.total + 1#16 := rfl

theorem map_toNat_set (t : Table) (i : Nat) (v : Half) :
    (tableSet t i v).toList.map BitVec.toNat = (t.toList.map BitVec.toNat).set i v.toNat := by
  rw [tableSet_toList, List.map_set]

/-- The counts after one more occurrence of `sym`. -/
theorem count_counts (m : Slot) {sym : Nat} (h : m.cntAt sym + 1 < 2 ^ 16) :
    (m.count sym).counts = m.counts.set sym (m.cntAt sym + 1) := by
  have h1 : (m.count sym).counts = (tableSet m.cnt sym (tableAt m.cnt sym + 1#16)).toList.map BitVec.toNat := rfl
  rw [h1, map_toNat_set, BitVec.toNat_add, ← Slot.cntAt_eq]
  simp only [BitVec.toNat_ofNat, Slot.counts]
  rw [show (m.cntAt sym + 1 % 2 ^ 16) % 2 ^ 16 = m.cntAt sym + 1 by omega]

theorem count_cumlo (m : Slot) {sym : Nat} (hs : sym < 257) (h : m.cntAt sym + 1 < 2 ^ 16) (i : Nat) :
    (m.count sym).cumlo i = m.cumlo i + if sym < i then 1 else 0 := by
  rw [Slot.cumlo, count_counts m h]
  exact prefixSum_set _ _ _ (by simpa using hs)

theorem count_cntAt (m : Slot) {sym : Nat} (hs : sym < 257) (h : m.cntAt sym + 1 < 2 ^ 16) (i : Nat) :
    (m.count sym).cntAt i = m.cntAt i + if i = sym then 1 else 0 := by
  have hl : sym < m.counts.length := by simpa using hs
  rw [Slot.cntAt, count_counts m h]
  by_cases c : i = sym
  · subst c; rw [List.getD, List.getElem?_set_self hl]; simp
  · have c' : sym ≠ i := fun h => c h.symm
    simp [List.getD, c, c', Slot.cntAt]

theorem count_seenBytes (m : Slot) {sym : Nat} (hs : sym < 257) (h : m.cntAt sym + 1 < 2 ^ 16) :
    (m.count sym).seenBytes = m.seenBytes + if sym < 256 ∧ m.cntAt sym = 0 then 1 else 0 := by
  have h1 : (m.count sym).byteCounts = m.byteCounts.set sym (m.cntAt sym + 1) := by
    rw [Slot.byteCounts, count_counts m h, List.take_set]; rfl
  rw [Slot.seenBytes, h1, Slot.seenBytes]
  by_cases c : sym < 256
  · have hl : sym < m.byteCounts.length := by simpa using c
    have hv : m.byteCounts[sym] = m.cntAt sym := by
      have := m.byteCounts_getD c
      rwa [List.getD, List.getElem?_eq_getElem hl, Option.getD_some] at this
    rw [seen, List.countP_set hl, hv]
    have hp : 0 < m.cntAt sym → 0 < seen m.byteCounts := fun hp => by
      rw [seen, List.countP_pos_iff]
      exact ⟨m.byteCounts[sym], List.getElem_mem hl, by simp [hv, hp]⟩
    rw [seen] at *
    by_cases h0 : m.cntAt sym = 0
    · simp [h0, c]
    · have := hp (by omega)
      simp only [h0, c, and_false, if_false, Nat.add_zero]
      simp [show 0 < m.cntAt sym by omega]
      omega
  · rw [List.set_eq_of_length_le (by simp; omega)]
    simp [c]

/-! ### Rescale (42_model257.md R142, R143) -/

/-- Halving with rounding up (42_model257.md R142). -/
def halve (c : Nat) : Nat := (c + 1) / 2

theorem sum_halve (l : List Nat) : 2 * (l.map halve).sum ≤ l.sum + l.length := by
  induction l with
  | nil => simp
  | cons c l ih => simp only [List.map_cons, List.sum_cons, List.length_cons, halve] at *; omega

theorem sum_halve_ge (l : List Nat) : l.sum ≤ 2 * (l.map halve).sum := by
  induction l with
  | nil => simp
  | cons c l ih => simp only [List.map_cons, List.sum_cons, halve] at *; omega

theorem seen_halve (l : List Nat) : seen (l.map halve) = seen l := by
  simp only [seen, List.countP_map]
  congr 1
  funext c
  exact decide_eq_decide.2 (by unfold halve; omega)

@[simp] theorem rescale_valid (m : Slot) : m.rescale.valid = m.valid := rfl
@[simp] theorem rescale_th (m : Slot) : m.rescale.th = m.th := rfl
@[simp] theorem rescale_thr (m : Slot) : m.rescale.thr = m.thr := rfl

/-- The counts after a rescale; the escape's clamp is not taken (42_model257.md R143). -/
theorem rescale_counts (m : Slot) (h : 1 ≤ m.cntAt 256) : m.rescale.counts = m.counts.map halve := by
  have h0 : tableAt (tableMap (fun c => BitVec.ofNat 16 ((c.toNat + 1) / 2)) m.cnt) Config.escape ≠ 0#16 := by
    rw [tableAt_map _ _ (by decide)]
    intro hz
    have hz := congrArg BitVec.toNat hz
    rw [Slot.cntAt_eq] at h
    have hlt := (tableAt m.cnt 256).isLt
    simp only [Config.escape, BitVec.toNat_ofNat] at hz
    omega
  have h1 : m.rescale.counts = (halvedCounts m.cnt).toList.map BitVec.toNat := rfl
  rw [h1, halvedCounts, if_neg h0, tableMap_toList, Slot.counts, List.map_map, List.map_map]
  apply List.map_congr_left
  intro c _
  have hlt := c.isLt
  simp only [Function.comp, halve, BitVec.toNat_ofNat]
  omega

theorem rescale_cntAt (m : Slot) (h : 1 ≤ m.cntAt 256) (i : Nat) : m.rescale.cntAt i = halve (m.cntAt i) := by
  rw [Slot.cntAt, rescale_counts m h, Slot.cntAt, List.getD, List.getD, List.getElem?_map]
  cases m.counts[i]? <;> rfl

theorem cumlo_257 (m : Slot) : m.cumlo 257 = m.counts.sum := prefixSum_of_length_le _ (by simp)

theorem rescale_sum (m : Slot) (h : 1 ≤ m.cntAt 256) : 2 * m.rescale.cumlo 257 ≤ m.cumlo 257 + 257 := by
  have := sum_halve m.counts
  rw [cumlo_257, cumlo_257, rescale_counts m h]
  simpa using this

theorem rescale_seenBytes (m : Slot) (h : 1 ≤ m.cntAt 256) : m.rescale.seenBytes = m.seenBytes := by
  rw [Slot.seenBytes, Slot.byteCounts, rescale_counts m h, ← List.map_take, seen_halve]; rfl

theorem rescale_total (m : Slot) : m.rescale.total = BitVec.ofNat 16 (m.rescale.cumlo 257) := rfl

theorem rescale_uniq (m : Slot) : m.rescale.uniq = BitVec.ofNat 9 m.rescale.seenBytes := rfl

theorem rescale_fenOk (m : Slot) (h : m.rescale.cumlo 257 < 2 ^ 16) : m.rescale.FenOk :=
  fenRebuild_ok { m with
    cnt := halvedCounts m.cnt
    total := BitVec.ofNat 16 (m.rescale.cumlo 257)
    uniq := BitVec.ofNat 9 m.rescale.seenBytes } h

/-! ### Bump (42_model257.md R135) -/

/-- The count alone, from a valid slot that satisfies the invariant: the sums are exact and the Fenwick array holds. -/
theorem count_spec (m : Slot) (hv : m.valid = true) (hm : m.Inv) {sym : Nat} (hs : sym < 257) :
    (m.count sym).total.toNat = m.total.toNat + 1 ∧ (m.count sym).cumlo 257 = m.cumlo 257 + 1 ∧
      m.cntAt sym + 1 < 2 ^ 16 ∧ (m.count sym).uniq.toNat = (m.count sym).seenBytes ∧ (m.count sym).FenOk ∧
      1 ≤ (m.count sym).cntAt 256 := by
  obtain ⟨h1, h2, h3, h4, h5, h6, h7⟩ := hm hv
  have ht := m.thr_cases
  have hc : m.cntAt sym + 1 < 2 ^ 16 := by have := h6 sym hs; omega
  have hsum : (m.count sym).cumlo 257 = m.cumlo 257 + 1 := by rw [count_cumlo m hs hc]; simp [hs]
  refine ⟨?_, hsum, hc, ?_, ?_, ?_⟩
  · rw [count_total, BitVec.toNat_add]; simp; omega
  · rw [count_seenBytes m hs hc, ← h5]
    have hu : m.seenBytes ≤ 256 := m.seenBytes_le
    have e : (m.count sym).uniq = if sym < Config.escape ∧ m.cntAt sym = 0 then m.uniq + 1#9 else m.uniq := rfl
    rw [e]
    by_cases c : sym < 256 ∧ m.cntAt sym = 0
    · rw [if_pos c, if_pos c, BitVec.toNat_add]; simp; omega
    · rw [if_neg c, if_neg c]; rfl
  · exact fenAdd_ok m _ hs h7 rfl (count_counts m hc) (by
      have : (m.count sym).cumlo 257 < 2 ^ 16 := by omega
      exact this)
  · rw [count_cntAt m hs hc]; omega

/-- What a bump does to a valid slot that satisfies the invariant: either the count alone, below the threshold, or,
at the threshold, the count and one rescale. -/
theorem bump_cases (m : Slot) (hv : m.valid = true) (hm : m.Inv) {sym : Nat} (hs : sym < 257) :
    (m.total.toNat + 1 < m.thr ∧ m.bump sym = (m.count sym, false)) ∨
      (m.total.toNat + 1 = m.thr ∧ m.bump sym = ((m.count sym).rescale, true)) := by
  obtain ⟨h1, h2, h3, -⟩ := hm hv
  have ht := (count_spec m hv hm hs).1
  unfold Slot.bump
  rw [count_thr, ht]
  split
  · exact .inr ⟨by omega, rfl⟩
  · exact .inl ⟨by omega, rfl⟩

theorem bump_valid (m : Slot) (sym : Nat) : (m.bump sym).1.valid = m.valid := by unfold Slot.bump; split <;> rfl

theorem bump_th (m : Slot) (sym : Nat) : (m.bump sym).1.th = m.th := by unfold Slot.bump; split <;> rfl

/-- A bump keeps the invariant (42_model257.md R143). -/
theorem bump_inv (m : Slot) (hv : m.valid = true) (hm : m.Inv) {sym : Nat} (hs : sym < 257) : (m.bump sym).1.Inv := by
  obtain ⟨c1, c2, c3, c4, c5, c6⟩ := count_spec m hv hm hs
  obtain ⟨h1, -⟩ := hm hv
  have ht := m.thr_cases
  rcases bump_cases m hv hm hs with ⟨hlt, e⟩ | ⟨heq, e⟩ <;> rw [e]
  · exact Slot.Inv.mk' (by rw [c1, c2, h1]) c6 (by rw [c2, count_thr]; omega) c4 c5
  · have r1 := rescale_sum (m.count sym) c6
    have r2 := (m.count sym).rescale.seenBytes_le
    have r3 : 1 ≤ (m.count sym).rescale.cntAt 256 := by rw [rescale_cntAt _ c6]; unfold halve; omega
    refine Slot.Inv.mk' (m := (m.count sym).rescale) ?_ r3 ?_ ?_ (rescale_fenOk _ (by omega))
    · rw [rescale_total, BitVec.toNat_ofNat]; omega
    · rw [rescale_thr, count_thr]; omega
    · rw [rescale_uniq, BitVec.toNat_ofNat]; omega

/-! ### Bounds -/

/-- A Witten-Bell total is at most `2^15 + 254` (10_state.md R41 item 6). -/
theorem wbt_le (m : Slot) (hv : m.valid = true) (hm : m.Inv) : m.wbt ≤ 2 ^ 15 + 254 := by
  obtain ⟨h1, h2, h3, h4, -⟩ := hm hv
  have ht := m.thr_cases
  have hs := m.sumBytes_add_escape
  have hu := m.seenBytes_le
  simp only [Slot.wbt]
  omega

theorem sumBytes_lt_wbt (m : Slot) : m.sumBytes < m.wbt := by simp only [Slot.wbt]; omega

theorem sumBytesEx_lt_wbtEx (m : Slot) (e : ExclMask) : m.sumBytesEx e < m.wbtEx e := by
  simp only [Slot.wbtEx]; omega

/-- `FenFind` on a valid slot that satisfies the invariant (42_model257.md R134, R140). -/
theorem fenFind_inv (m : Slot) (hv : m.valid = true) (hm : m.Inv) {f : Nat} (h : f < m.total.toNat) :
    m.fenFind f ≤ 256 ∧ m.cumlo (m.fenFind f) ≤ f ∧ f < m.cumlo (m.fenFind f) + m.cntAt (m.fenFind f) := by
  obtain ⟨h1, -, -, -, -, -, h7⟩ := hm hv
  exact fenFind_spec m h7 (by omega)

/-- Below the sum of the byte counts, `FenFind` answers a byte (43_witten_bell_exclusion.md R163). -/
theorem fenFind_byte (m : Slot) (hm : m.FenOk) {f : Nat} (h : f < m.sumBytes) : m.fenFind f < 256 := by
  have h1 := m.sumBytes_add_escape
  obtain ⟨h2, h3, h4⟩ := fenFind_spec m hm (f := f) (by omega)
  by_contra hn
  have : m.fenFind f = 256 := by omega
  rw [this] at h3
  simp only [Slot.sumBytes] at h
  omega

/-! ### The exclusion mask (43_witten_bell_exclusion.md R165) -/

theorem foldl_addSeen (l : List Nat) (n : Nat) (e : ExclMask) (i : Nat) :
    ((l.zipIdx n).foldl (fun e p => if 0 < p.1 then e ||| BitVec.twoPow 256 p.2 else e) e).getLsbD i =
      (e.getLsbD i || (decide (i < 256) && decide (n ≤ i) && decide (0 < l.getD (i - n) 0))) := by
  induction l generalizing n e with
  | nil => simp
  | cons c l ih =>
    rw [List.zipIdx_cons, List.foldl_cons, ih (n + 1)]
    rcases Nat.lt_trichotomy i n with h | h | h
    · have h1 : ¬ n + 1 ≤ i := by omega
      have h2 : ¬ n ≤ i := by omega
      simp only [h1, h2, decide_false, Bool.and_false, Bool.false_and, Bool.or_false]
      split
      · rw [BitVec.getLsbD_or, BitVec.getLsbD_twoPow]
        simp [show ¬ n = i by omega]
      · rfl
    · subst h
      have h1 : ¬ i + 1 ≤ i := by omega
      simp only [h1, decide_false, Bool.and_false, Bool.false_and, Bool.or_false, Nat.sub_self, List.getD_cons_zero,
        Nat.le_refl, decide_true, Bool.and_true]
      split
      · rename_i hc
        rw [BitVec.getLsbD_or, BitVec.getLsbD_twoPow]
        simp only [hc, decide_true, Bool.and_true]
      · rename_i hc
        simp [hc]
    · have h1 : n + 1 ≤ i := h
      have h2 : n ≤ i := by omega
      have h3 : (c :: l).getD (i - n) 0 = l.getD (i - (n + 1)) 0 := by
        rw [show i - n = i - (n + 1) + 1 by omega, List.getD_cons_succ]
      rw [h3]
      simp only [h1, h2, decide_true, Bool.and_true]
      split
      · rw [BitVec.getLsbD_or, BitVec.getLsbD_twoPow]
        simp [show ¬ n = i by omega]
      · rfl

/-- Bit `i` of the mask after a slot's seen bytes are added. -/
theorem addSeen_getLsbD (m : Slot) (e : ExclMask) {i : Nat} (h : i < 256) :
    (m.addSeen e).getLsbD i = (e.getLsbD i || decide (0 < m.cntAt i)) := by
  rw [Slot.addSeen, foldl_addSeen, Nat.sub_zero, m.byteCounts_getD h]
  simp [h]

end Sys2Proof.Machine
end

