-- ==== Sys2Proof/Laws/Ops.lean ====
section
/-! SUPPORT. Operand fetch and the end of a command: everything each can answer, once. -/

namespace Sys2Proof.Machine

@[simp] theorem settle_ok (s : State) (i : Instr) (t : State) : s.settle i (.ok t) = .next t := rfl

@[simp] theorem settle_error (s : State) (i : Instr) (c : Cause) :
    s.settle i (.error c) = .next (s.enterFault c (encode i)) := rfl

@[simp] theorem bind_ok {α β : Type} (a : α) (f : α → Except Cause β) : (Except.ok a >>= f) = f a := rfl

@[simp] theorem bind_error {α β : Type} (c : Cause) (f : α → Except Cause β) :
    ((Except.error c : Except Cause α) >>= f) = .error c := rfl

/-- Everything `GetSlot` can answer (42_model257.md R132). -/
theorem getSlot_cases (s : State) (k : Nat) (v : Bool) :
    (s.slots.length ≤ k ∧ s.getSlot k v = .error .badSlot) ∨
    (∃ m, s.slots[k]? = some m ∧ v = true ∧ m.valid = false ∧ s.getSlot k v = .error .slotInvalid) ∨
    (∃ m, s.slots[k]? = some m ∧ (v = true → m.valid = true) ∧ s.getSlot k v = .ok m) := by
  unfold State.getSlot
  cases h : s.slots[k]? with
  | none => exact .inl ⟨List.getElem?_eq_none_iff.1 h, rfl⟩
  | some m => cases hv : v <;> cases hm : m.valid <;> simp_all

theorem getSlot_ok {s : State} {k : Nat} {m : Slot} (h : s.slots[k]? = some m) (hv : m.valid = true) (v : Bool) :
    s.getSlot k v = .ok m := by
  unfold State.getSlot; rw [h]; simp [hv]

/-- Everything `GetSym` can answer (42_model257.md R132). -/
theorem getSym_cases (s : State) (o : SymOperand) :
    (256 < s.symOf o ∧ s.getSym o = .error .badSym) ∨ (s.symOf o ≤ 256 ∧ s.getSym o = .ok (s.symOf o)) := by
  unfold State.getSym
  split
  · rename_i h; exact .inl ⟨h, rfl⟩
  · rename_i h; exact .inr ⟨by simpa using h, rfl⟩

theorem getSym_ok {s : State} {o : SymOperand} (h : s.symOf o ≤ 256) : s.getSym o = .ok (s.symOf o) := by
  rcases getSym_cases s o with ⟨h1, -⟩ | ⟨-, h2⟩
  · omega
  · exact h2

/-- Everything the check of `MODE` can answer (10_state.md R26). -/
theorem needMode_cases (s : State) (m : Mode) :
    (s.mode ≠ m ∧ s.needMode m = .error .badMode) ∨ (s.mode = m ∧ s.needMode m = .ok ()) := by
  unfold State.needMode
  split
  · rename_i h; exact .inr ⟨h, rfl⟩
  · rename_i h; exact .inl ⟨h, rfl⟩

/-- The slot a successful `GetSlot` answers is in the store. -/
theorem getSlot_mem {s : State} {k : Nat} {m : Slot} (h : s.slots[k]? = some m) : m ∈ s.slots :=
  List.mem_of_getElem? h

end Sys2Proof.Machine
end

