-- ==== Sys2Proof/Laws/Effects.lean ====
section
/-! SUPPORT. Everything a command can do, once: it faults with a cause of its row, or it writes the fields listed for
it here and no other (10_state.md R23, R25, R26, R28, R30; 60_exceptions.md R201, R202). -/

namespace Sys2Proof.Machine

/-- What a command that does not fault leaves: which fields of the state it may have written. -/
def Effect (i : Instr) (s t : State) : Prop :=
  match i with
  | .nop => t = s
  | .fltClr => t = s.clearFault
  | .rcEncInit => t = { s with mode := .enc, low := t.low, high := t.high, snk := [], undrained := 0 }
  | .rcEnc _ => t = { s with low := t.low, high := t.high, snk := t.snk, undrained := t.undrained } ∧
      ∃ bs : List Byte, bs.length ≤ 4 ∧ t.snk = s.snk ++ bs
  | .rcEncFinish => t = { s with mode := .idle, snk := t.snk, undrained := t.undrained } ∧
      ∃ bs : List Byte, bs.length ≤ 4 ∧ t.snk = s.snk ++ bs
  | .rcDecInit => t = { s with
      mode := .dec, low := t.low, high := t.high, code := t.code, inPos := t.inPos, pend := t.pend }
  | .rcGetfreq _ => t = { s with rF := t.rF }
  | .rcDec _ => t = { s with low := t.low, high := t.high, code := t.code, inPos := t.inPos, pend := t.pend }
  | .mInitEsc k _ | .mInitUni k _ => ∃ m, t = { s with slots := s.slots.set k m }
  | .mBump k _ => ∃ m, t = { s with slots := s.slots.set k m, rsc := t.rsc }
  | .mCum _ _ | .mWbCum _ _ | .mWbCumEx _ _ => t = { s with rLo := t.rLo, rHi := t.rHi, rTot := t.rTot }
  | .mFind _ _ | .mWbFind _ _ | .mWbFindEx _ _ =>
      t = { s with rSym := t.rSym, rLo := t.rLo, rHi := t.rHi, rTot := t.rTot }
  | .mTotal _ | .mWbTotal _ | .mWbTotalEx _ => t = { s with rTot := t.rTot }
  | .mCnt _ _ | .mUniq _ => t = { s with rCnt := t.rCnt }
  | .exclClr | .exclAdd _ => t = { s with excl := t.excl }

/-- A command that faults with a cause of its row leaves its fault entry. -/
def Faulted (i : Instr) (s t : State) : Prop := ∃ c ∈ i.causes, t = s.enterFault c (encode i)

/-! ### The parts of a meaning -/

theorem settle_cases {s t : State} {i : Instr} {r : Except Cause State} (h : s.settle i r = .next t) :
    (∃ c, r = .error c ∧ t = s.enterFault c (encode i)) ∨ r = .ok t := by
  cases r with
  | ok u => exact .inr (by rw [Host.Outcome.next.inj h])
  | error c => exact .inl ⟨c, rfl, (Host.Outcome.next.inj h).symm⟩

/-- A meaning that settles does what its body answers. -/
theorem effect_settle {s t : State} {i : Instr} {r : Except Cause State} (h : s.settle i r = .next t)
    (herr : ∀ c, r = .error c → c ∈ i.causes) (hok : ∀ u, r = .ok u → Effect i s u) : Faulted i s t ∨ Effect i s t := by
  rcases settle_cases h with ⟨c, hc, ht⟩ | hu
  · exact .inl ⟨c, herr c hc, ht⟩
  · exact .inr (hok t hu)

/-- The slot check before a body: its errors and its success. -/
theorem slot_error {s : State} {k : Nat} {v : Bool} {f : Slot → Except Cause State} {c : Cause} {P : Cause → Prop}
    (h : (s.getSlot k v >>= f) = .error c) (h1 : P .badSlot) (h2 : v = true → P .slotInvalid)
    (hf : ∀ m c, f m = .error c → P c) : P c := by
  rcases getSlot_cases s k v with ⟨-, e⟩ | ⟨m, -, hv, -, e⟩ | ⟨m, -, -, e⟩ <;> rw [e] at h
  · cases h; exact h1
  · cases h; exact h2 hv
  · exact hf m c h

theorem slot_ok {s u : State} {k : Nat} {v : Bool} {f : Slot → Except Cause State} {P : State → Prop}
    (h : (s.getSlot k v >>= f) = .ok u) (hf : ∀ m u, f m = .ok u → P u) : P u := by
  rcases getSlot_cases s k v with ⟨-, e⟩ | ⟨m, -, -, -, e⟩ | ⟨m, -, -, e⟩ <;> rw [e] at h
  · cases h
  · cases h
  · exact hf m u h

/-- The symbol check before a body. -/
theorem sym_error {s : State} {o : SymOperand} {f : Nat → Except Cause State} {c : Cause} {P : Cause → Prop}
    (h : (s.getSym o >>= f) = .error c) (h1 : P .badSym) (hf : ∀ j c, f j = .error c → P c) : P c := by
  rcases getSym_cases s o with ⟨-, e⟩ | ⟨-, e⟩ <;> rw [e] at h
  · cases h; exact h1
  · exact hf _ c h

theorem sym_ok {s u : State} {o : SymOperand} {f : Nat → Except Cause State} {P : State → Prop}
    (h : (s.getSym o >>= f) = .ok u) (hf : ∀ j u, f j = .ok u → P u) : P u := by
  rcases getSym_cases s o with ⟨-, e⟩ | ⟨-, e⟩ <;> rw [e] at h
  · cases h
  · exact hf _ u h

/-! ### The coder -/

/-- What the flush changes. -/
theorem finish_frame (s : State) : Effect .rcEncFinish s
    (((((s.snkPut (s.low.extractLsb' 24 8)).snkPut (s.low.extractLsb' 16 8)).snkPut
      (s.low.extractLsb' 8 8)).snkPut (s.low.extractLsb' 0 8)).setMode .idle) := by
  refine ⟨by simp only [State.snkPut, State.setMode],
    [s.low.extractLsb' 24 8, s.low.extractLsb' 16 8, s.low.extractLsb' 8 8, s.low.extractLsb' 0 8], by simp, ?_⟩
  simp only [State.snkPut, State.setMode, List.append_assoc, List.cons_append, List.nil_append]

/-- What `Renorm` changes in the encoder. -/
theorem renorm_enc_frame (x : State) :
    x.renorm false = { x with
      low := (x.renorm false).low, high := (x.renorm false).high, snk := (x.renorm false).snk
      undrained := (x.renorm false).undrained } ∧
    ∃ bs : List Byte, bs.length ≤ 4 ∧ (x.renorm false).snk = x.snk ++ bs := by
  obtain ⟨k, hk, e, -, -⟩ := renorm_spec x false
  rw [e]
  obtain ⟨f, bs, hb, hs⟩ := shifts_enc_frame k x
  generalize State.shifts false k x = t at *
  refine ⟨?_, bs, by omega, hs⟩
  rw [f]

/-- What `Renorm` changes in the decoder. -/
theorem renorm_dec_frame (x : State) :
    x.renorm true = { x with
      low := (x.renorm true).low, high := (x.renorm true).high, code := (x.renorm true).code
      inPos := (x.renorm true).inPos, pend := (x.renorm true).pend } := by
  obtain ⟨k, -, e, -, -⟩ := renorm_spec x true
  rw [e]
  exact shifts_dec_frame k x

/-- An inverse lookup writes four result registers. -/
theorem find_frame (s : State) (sym lo hi tot : Nat) :
    (s.setSym sym).setInterval lo hi tot = { s with
      rSym := ((s.setSym sym).setInterval lo hi tot).rSym, rLo := ((s.setSym sym).setInterval lo hi tot).rLo
      rHi := ((s.setSym sym).setInterval lo hi tot).rHi, rTot := ((s.setSym sym).setInterval lo hi tot).rTot } := rfl

theorem execRcEncFinish_effect {s t : State} (h : execRcEncFinish s = .next t) :
    Faulted .rcEncFinish s t ∨ Effect .rcEncFinish s t := by
  refine effect_settle h (fun c hc => ?_) (fun u hu => ?_)
  · rcases needMode_cases s .enc with ⟨-, e⟩ | ⟨-, e⟩ <;> rw [e] at hc <;> cases hc; simp [Instr.causes]
  · rcases needMode_cases s .enc with ⟨-, e⟩ | ⟨-, e⟩ <;> rw [e] at hu <;> cases hu
    exact finish_frame s

theorem execRcEnc_effect {iv : IvOperand} {s t : State} (h : execRcEnc iv s = .next t) :
    Faulted (.rcEnc iv) s t ∨ Effect (.rcEnc iv) s t := by
  refine effect_settle h (fun c hc => ?_) (fun u hu => ?_)
  · rcases needMode_cases s .enc with ⟨-, e⟩ | ⟨-, e⟩ <;> rw [e] at hc
    · cases hc; simp [Instr.causes]
    · rcases narrow_cases s (s.interval iv).1 (s.interval iv).2.1 (s.interval iv).2.2 with ⟨-, hn⟩ | ⟨-, -, hn⟩ | ⟨-, -, hn⟩ <;>
        simp [hn] at hc <;> simp [← hc, Instr.causes]
  · rcases needMode_cases s .enc with ⟨-, e⟩ | ⟨-, e⟩ <;> rw [e] at hu
    · cases hu
    · rcases narrow_cases s (s.interval iv).1 (s.interval iv).2.1 (s.interval iv).2.2 with ⟨-, hn⟩ | ⟨-, -, hn⟩ | ⟨-, -, hn⟩
      · simp [hn] at hu
      · simp [hn] at hu
      · simp only [bind_ok, hn, Except.ok.injEq] at hu
        rw [← hu]
        exact renorm_enc_frame (s.setCoder _ _)

theorem execRcDec_effect {iv : IvOperand} {s t : State} (h : execRcDec iv s = .next t) :
    Faulted (.rcDec iv) s t ∨ Effect (.rcDec iv) s t := by
  refine effect_settle h (fun c hc => ?_) (fun u hu => ?_)
  · rcases needMode_cases s .dec with ⟨-, e⟩ | ⟨-, e⟩ <;> rw [e] at hc
    · cases hc; simp [Instr.causes]
    · rcases narrow_cases s (s.interval iv).1 (s.interval iv).2.1 (s.interval iv).2.2 with ⟨-, hn⟩ | ⟨-, -, hn⟩ | ⟨-, -, hn⟩ <;>
        simp only [bind_ok, bind_error, hn] at hc
      · cases hc; simp [Instr.causes]
      · cases hc; simp [Instr.causes]
      · split at hc <;> cases hc; simp [Instr.causes]
  · rcases needMode_cases s .dec with ⟨-, e⟩ | ⟨-, e⟩ <;> rw [e] at hu
    · cases hu
    · rcases narrow_cases s (s.interval iv).1 (s.interval iv).2.1 (s.interval iv).2.2 with ⟨-, hn⟩ | ⟨-, -, hn⟩ | ⟨-, -, hn⟩ <;>
        simp only [bind_ok, bind_error, hn] at hu
      · cases hu
      · cases hu
      · split at hu
        · cases hu
        · rw [Except.ok.injEq] at hu
          rw [← hu]
          exact renorm_dec_frame (s.setCoder _ _)

theorem execRcGetfreq_effect {o : TotOperand} {s t : State} (h : execRcGetfreq o s = .next t) :
    Faulted (.rcGetfreq o) s t ∨ Effect (.rcGetfreq o) s t := by
  refine effect_settle h (fun c hc => ?_) (fun u hu => ?_)
  · rcases needMode_cases s .dec with ⟨-, e⟩ | ⟨-, e⟩ <;> rw [e] at hc
    · cases hc; simp [Instr.causes]
    · simp only [bind_ok] at hc
      split at hc <;> cases hc; simp [Instr.causes]
  · rcases needMode_cases s .dec with ⟨-, e⟩ | ⟨-, e⟩ <;> rw [e] at hu
    · cases hu
    · simp only [bind_ok] at hu
      split at hu <;> cases hu; rfl

/-- Four reads change `CODE`, the cursor and `PEND` only. -/
theorem fill_frame (u : State) : u.shiftCode.shiftCode.shiftCode.shiftCode = { u with
    code := u.shiftCode.shiftCode.shiftCode.shiftCode.code, inPos := u.shiftCode.shiftCode.shiftCode.shiftCode.inPos
    pend := u.shiftCode.shiftCode.shiftCode.shiftCode.pend } := by
  have f : ∀ v : State, v.shiftCode =
      { v with code := v.shiftCode.code, inPos := v.shiftCode.inPos, pend := v.shiftCode.pend } := by
    intro v
    conv_lhs => rw [shiftCode_frame]
    conv_rhs => rw [shiftCode_frame]
  rw [f u.shiftCode.shiftCode.shiftCode, f u.shiftCode.shiftCode, f u.shiftCode, f u]

theorem execRcDecInit_effect {s t : State} (h : execRcDecInit s = .next t) : Effect .rcDecInit s t := by
  obtain ⟨u, e, hu⟩ : ∃ u : State, execRcDecInit s = .next u.shiftCode.shiftCode.shiftCode.shiftCode ∧
      u = { (s.setMode .dec).setCoder 0 0xFFFFFFFF with pend := false, code := 0#32 } := ⟨_, rfl, rfl⟩
  rw [e, Host.Outcome.next.injEq] at h
  have f := fill_frame u
  rw [h] at f
  have hl : t.low = u.low := by rw [f]
  have hh : t.high = u.high := by rw [f]
  show t = _
  rw [hl, hh]
  conv_lhs => rw [f]
  rw [hu]
  rfl

/-! ### All commands -/

/-- Everything a command can do. -/
theorem exec_effect {i : Instr} {s t : State} (h : exec i s = .next t) : Faulted i s t ∨ Effect i s t := by
  cases i with
  | nop => cases h; exact .inr rfl
  | fltClr => cases h; exact .inr rfl
  | rcEncInit => cases h; exact .inr rfl
  | rcEnc => exact execRcEnc_effect h
  | rcEncFinish => exact execRcEncFinish_effect h
  | rcDecInit => exact .inr (execRcDecInit_effect h)
  | rcGetfreq => exact execRcGetfreq_effect h
  | rcDec => exact execRcDec_effect h
  | exclClr => cases h; exact .inr rfl
  | mInitEsc | mInitUni =>
    exact effect_settle h (fun c hc => slot_error hc (by simp [Instr.causes]) (by simp) (by simp))
      (fun u hu => slot_ok hu fun m u hu => by cases hu; exact ⟨_, rfl⟩)
  | mTotal | mUniq | mWbTotal | mWbTotalEx | exclAdd =>
    exact effect_settle h (fun c hc => slot_error hc (by simp [Instr.causes]) (by simp [Instr.causes]) (by simp))
      (fun u hu => slot_ok hu fun m u hu => by cases hu; rfl)
  | mCum | mCnt =>
    exact effect_settle h
      (fun c hc => slot_error hc (by simp [Instr.causes]) (by simp [Instr.causes])
        fun m c hc => sym_error hc (by simp [Instr.causes]) (by simp))
      (fun u hu => slot_ok hu fun m u hu => sym_ok hu fun j u hu => by cases hu; rfl)
  | mBump =>
    exact effect_settle h
      (fun c hc => slot_error hc (by simp [Instr.causes]) (by simp [Instr.causes])
        fun m c hc => sym_error hc (by simp [Instr.causes]) (by simp))
      (fun u hu => slot_ok hu fun m u hu => sym_ok hu fun j u hu => by cases hu; exact ⟨_, rfl⟩)
  | mWbCum =>
    exact effect_settle h
      (fun c hc => slot_error hc (by simp [Instr.causes]) (by simp [Instr.causes])
        fun m c hc => sym_error hc (by simp [Instr.causes]) fun j c hc => by split at hc <;> cases hc)
      (fun u hu => slot_ok hu fun m u hu => sym_ok hu fun j u hu => by split at hu <;> cases hu <;> rfl)
  | mWbCumEx =>
    exact effect_settle h
      (fun c hc => slot_error hc (by simp [Instr.causes]) (by simp [Instr.causes])
        fun m c hc => sym_error hc (by simp [Instr.causes]) fun j c hc => by split_ifs at hc)
      (fun u hu => slot_ok hu fun m u hu => sym_ok hu fun j u hu => by split_ifs at hu <;> cases hu <;> rfl)
  | mFind =>
    exact effect_settle h
      (fun c hc => slot_error hc (by simp [Instr.causes]) (by simp [Instr.causes])
        fun m c hc => by dsimp only at hc; split at hc <;> cases hc; simp [Instr.causes])
      (fun u hu => slot_ok hu fun m u hu => by dsimp only at hu; split at hu <;> cases hu; exact find_frame _ _ _ _ _)
  | mWbFind | mWbFindEx =>
    exact effect_settle h
      (fun c hc => slot_error hc (by simp [Instr.causes]) (by simp [Instr.causes])
        fun m c hc => by dsimp only at hc; split_ifs at hc; cases hc; simp [Instr.causes])
      (fun u hu => slot_ok hu fun m u hu => by dsimp only at hu; split_ifs at hu <;> cases hu <;> exact find_frame _ _ _ _ _)

end Sys2Proof.Machine
end

