-- ==== Sys2Proof/Laws/Encoding.lean ====
section
/-! SUPPORT. The fields of a command word read as numbers, and the fields of the words the encoder builds
(30_encoding.md R71 to R75). -/

namespace Sys2Proof

/-- A field is a run of binary digits of the word. -/
theorem field_eq (w : CmdWord) (lo len : Nat) : field w lo len = w.toNat / 2 ^ lo % 2 ^ len := by
  rw [field, BitVec.extractLsb'_toNat, Nat.shiftRight_eq_div_pow]

theorem sBit_eq (w : CmdWord) : sBit w = decide (w.toNat / 2 ^ 55 % 2 = 1) := by
  rw [sBit, ← BitVec.testBit_toNat, Nat.testBit_eq_decide_div_mod_eq]

theorem thField_eq (w : CmdWord) : thField w = decide (w.toNat / 2 ^ 31 % 2 = 1) := by
  rw [thField, ← BitVec.testBit_toNat, Nat.testBit_eq_decide_div_mod_eq]

/-- Appending words is adding their digits. -/
theorem append_toNat {m n : Nat} (x : BitVec m) (y : BitVec n) : (x ++ y).toNat = x.toNat * 2 ^ n + y.toNat := by
  rw [BitVec.toNat_append, ← Nat.shiftLeft_add_eq_or_of_lt y.isLt, Nat.shiftLeft_eq]

theorem wordC_toNat (op : Nat) : (wordC op).toNat = op % 256 * 2 ^ 56 := by
  simp only [wordC, append_toNat, BitVec.toNat_ofNat]; omega

theorem wordR_toNat (op : Nat) (s : Bool) (tot hi lo : Nat) :
    (wordR op s tot hi lo).toNat =
      op % 256 * 2 ^ 56 + s.toNat * 2 ^ 55 + tot % 2 ^ 16 * 2 ^ 32 + hi % 2 ^ 16 * 2 ^ 16 + lo % 2 ^ 16 := by
  simp only [wordR, append_toNat, BitVec.toNat_ofNat, BitVec.toNat_ofBool]; omega

theorem wordM_toNat (op : Nat) (s : Bool) (slot : Nat) (th : Bool) (sym f : Nat) :
    (wordM op s slot th sym f).toNat =
      op % 256 * 2 ^ 56 + s.toNat * 2 ^ 55 + slot % 2 ^ 16 * 2 ^ 32 + th.toNat * 2 ^ 31 + sym % 2 ^ 9 * 2 ^ 16 +
        f % 2 ^ 16 := by
  simp only [wordM, append_toNat, BitVec.toNat_ofNat, BitVec.toNat_ofBool]; omega

/-- The opcode byte is the word's leading byte, and recording it as `FOPC` keeps it (60_exceptions.md R202). -/
theorem opc_toNat (w : CmdWord) : opc w = (w.extractLsb' 56 8).toNat := rfl

theorem opc_lt (w : CmdWord) : opc w < 256 := (w.extractLsb' 56 8).isLt

@[simp] theorem opc_wordC (op : Nat) : opc (wordC op) = op % 256 := by
  rw [opc, field_eq, wordC_toNat]; omega

@[simp] theorem opc_wordR (op : Nat) (s : Bool) (tot hi lo : Nat) : opc (wordR op s tot hi lo) = op % 256 := by
  rw [opc, field_eq, wordR_toNat]; have := s.toNat_le; omega

@[simp] theorem opc_wordM (op : Nat) (s : Bool) (slot : Nat) (th : Bool) (sym f : Nat) :
    opc (wordM op s slot th sym f) = op % 256 := by
  rw [opc, field_eq, wordM_toNat]; have := s.toNat_le; have := th.toNat_le; omega

@[simp] theorem sBit_wordC (op : Nat) : sBit (wordC op) = false := by
  rw [sBit_eq, wordC_toNat, decide_eq_false_iff_not]; omega

@[simp] theorem sBit_wordR (op : Nat) (s : Bool) (tot hi lo : Nat) : sBit (wordR op s tot hi lo) = s := by
  rw [sBit_eq, wordR_toNat]; cases s <;> simp <;> omega

@[simp] theorem sBit_wordM (op : Nat) (s : Bool) (slot : Nat) (th : Bool) (sym f : Nat) :
    sBit (wordM op s slot th sym f) = s := by
  rw [sBit_eq, wordM_toNat]; cases s <;> cases th <;> simp <;> omega

@[simp] theorem thField_wordM (op : Nat) (s : Bool) (slot : Nat) (th : Bool) (sym f : Nat) :
    thField (wordM op s slot th sym f) = th := by
  rw [thField_eq, wordM_toNat]; cases s <;> cases th <;> simp <;> omega

/-! The opcode of a word with operands. -/

@[simp] theorem opc_wordIv (op : Nat) (iv : IvOperand) : opc (wordIv op iv) = op % 256 := by
  cases iv <;> simp [wordIv]

@[simp] theorem opc_wordTot (op : Nat) (o : TotOperand) : opc (wordTot op o) = op % 256 := by
  cases o <;> simp [wordTot]

@[simp] theorem opc_wordSym (op slot : Nat) (o : SymOperand) : opc (wordSym op slot o) = op % 256 := by
  cases o <;> simp [wordSym]

@[simp] theorem opc_wordFreq (op slot : Nat) (o : FreqOperand) : opc (wordFreq op slot o) = op % 256 := by
  cases o <;> simp [wordFreq]

/-! The operand fields of a word the encoder builds. -/

theorem totField_wordR (op : Nat) (s : Bool) {tot hi lo : Nat} (h : tot < 2 ^ 16) :
    totField (wordR op s tot hi lo) = tot := by
  rw [totField, field_eq, wordR_toNat]; have := s.toNat_le; omega

theorem hiField_wordR (op : Nat) (s : Bool) {tot hi lo : Nat} (h : hi < 2 ^ 16) :
    hiField (wordR op s tot hi lo) = hi := by
  rw [hiField, field_eq, wordR_toNat]; have := s.toNat_le; omega

theorem loField_wordR (op : Nat) (s : Bool) {tot hi lo : Nat} (h : lo < 2 ^ 16) :
    loField (wordR op s tot hi lo) = lo := by
  rw [loField, field_eq, wordR_toNat]; have := s.toNat_le; omega

theorem slotField_wordM (op : Nat) (s : Bool) {slot : Nat} (th : Bool) {sym f : Nat} (h : slot < 2 ^ 16) :
    slotField (wordM op s slot th sym f) = slot := by
  rw [slotField, field_eq, wordM_toNat]; have := s.toNat_le; have := th.toNat_le; omega

theorem symField_wordM (op : Nat) (s : Bool) {slot : Nat} (th : Bool) {sym f : Nat} (h : sym < 2 ^ 9) :
    symField (wordM op s slot th sym f) = sym := by
  rw [symField, field_eq, wordM_toNat]; have := s.toNat_le; have := th.toNat_le; omega

theorem fField_wordM (op : Nat) (s : Bool) {slot : Nat} (th : Bool) {sym f : Nat} (h : f < 2 ^ 16) :
    fField (wordM op s slot th sym f) = f := by
  rw [fField, field_eq, wordM_toNat]; have := s.toNat_le; have := th.toNat_le; omega

/-- Bits 54:48 of a word the encoder builds are 0. -/
theorem reserved_wordR (op : Nat) (s : Bool) (tot hi lo : Nat) : field (wordR op s tot hi lo) 48 7 = 0 := by
  rw [field_eq, wordR_toNat]; have := s.toNat_le; omega

theorem reserved_wordM (op : Nat) (s : Bool) (slot : Nat) (th : Bool) (sym f : Nat) :
    field (wordM op s slot th sym f) 48 7 = 0 := by
  rw [field_eq, wordM_toNat]; have := s.toNat_le; have := th.toNat_le; omega

end Sys2Proof
end

