-- ==== Sys2Proof/Laws/Keeps.lean ====
section
/-! SUPPORT. Each meaning, fault entry and return keep `State.Sound` (10_state.md R27, R41). -/

namespace Sys2Proof.Machine

/-- Fault entry keeps soundness. -/
theorem sound_enterFault {s : State} (h : s.Sound) {c : Cause} (hc : c ≠ .none) (w : CmdWord) :
    (s.enterFault c w).Sound := by
  obtain ⟨h1, h2, h3, h4, h5, h6, h7, h8, -, -⟩ := h
  exact ⟨h1, h2, h3, h4, h5, h6, h7, h8, by simp, fun _ => hc⟩

/-- A command that settles keeps soundness if its successful outcome does and no check raises `NONE`. -/
theorem sound_settle {s t : State} {i : Instr} {r : Except Cause State} (h : s.Sound)
    (hok : ∀ u : State, r = .ok u → u.Sound) (herr : ∀ c, r = .error c → c ≠ .none) (e : s.settle i r = .next t) :
    t.Sound := by
  cases r with
  | ok u => exact Host.Outcome.next.inj e ▸ hok u rfl
  | error c => exact Host.Outcome.next.inj e ▸ sound_enterFault h (herr c rfl) _

/-- Writing result registers keeps soundness, `R_SYM` to at most 256. -/
theorem sound_results {s t : State} (h : s.Sound) (e : t = { s with
    rLo := t.rLo, rHi := t.rHi, rTot := t.rTot, rSym := t.rSym, rF := t.rF, rCnt := t.rCnt })
    (hs : t.rSym.toNat ≤ 256) : t.Sound := by
  obtain ⟨h1, h2, h3, h4, h5, h6, h7, h8, h9, h10⟩ := h
  rw [e]
  exact ⟨h1, h2, h3, h4, hs, h6, h7, h8, h9, h10⟩

/-- Writing a slot that satisfies its invariant keeps soundness. -/
theorem sound_putSlot {s : State} (h : s.Sound) (k : Nat) {m : Slot} (hm : m.Inv) : (s.putSlot k m).Sound := by
  obtain ⟨h1, h2, h3, h4, h5, h6, h7, h8, h9, h10⟩ := h
  refine ⟨?_, ?_, ?_, h4, h5, h6, h7, h8, h9, h10⟩
  · simpa [State.numSlots] using h1
  · simpa [State.numSlots] using h2
  · intro n hn
    rcases List.mem_or_eq_of_mem_set hn with hn | hn
    · exact h3 n hn
    · rw [hn]; exact hm

theorem setSym_toNat {s : State} {k : Nat} (h : k ≤ 256) : (s.setSym k).rSym.toNat ≤ 256 := by
  simp only [State.setSym_rSym, BitVec.toNat_ofNat]; omega

/-- What an inverse lookup writes keeps soundness. -/
theorem sound_find {s : State} (h : s.Sound) {sym lo hi tot : Nat} (hs : sym ≤ 256) :
    ((s.setSym sym).setInterval lo hi tot).Sound :=
  sound_results h rfl (by rw [State.setInterval_rSym]; exact setSym_toNat hs)

theorem execNop_sound {s t : State} (h : s.Sound) (e : execNop s = .next t) : t.Sound := by cases e; exact h

theorem execFltClr_sound {s t : State} (h : s.Sound) (e : execFltClr s = .next t) : t.Sound := by
  cases e
  obtain ⟨h1, h2, h3, h4, h5, h6, h7, h8, -, -⟩ := h
  exact ⟨h1, h2, h3, h4, h5, h6, h7, h8, fun _ => ⟨rfl, rfl, rfl⟩, by simp⟩

/-! ### The coder -/

theorem execRcEncInit_sound {s t : State} (h : s.Sound) (e : execRcEncInit s = .next t) : t.Sound := by
  cases e
  obtain ⟨h1, h2, h3, h4, h5, h6, h7, h8, h9, h10⟩ := h
  exact ⟨h1, h2, h3, ⟨fun _ => by simp, by simp⟩, h5, h6, h7, Nat.le_refl 0, h9, h10⟩

/-- A narrowed and renormalized interval keeps soundness. -/
theorem sound_coded {s : State} {nl nh : Nat} (dec : Bool) (h : s.Sound) (hmode : s.mode = if dec then .dec else .enc)
    (h1 : nl ≤ nh) (h2 : nh < 2 ^ 32) (h3 : dec = true → nl ≤ s.code.toNat ∧ s.code.toNat ≤ nh) :
    ((s.setCoder nl nh).renorm dec).Sound := by
  obtain ⟨a1, a2, a3, -, a5, a6, a7, a8, a9, a10⟩ := h
  have ho : (s.setCoder nl nh).Ordered dec := by
    simp only [State.Ordered, State.setCoder_low, State.setCoder_high, State.setCoder_code, BitVec.toNat_ofNat]
    rw [Nat.mod_eq_of_lt (by omega), Nat.mod_eq_of_lt h2]
    exact ⟨h1, h3⟩
  obtain ⟨o1, o2, o3⟩ := renorm_ordered ho
  have o4 := (not_settled_iff _).1 o2
  obtain ⟨k, -, e, -, -⟩ := renorm_spec (s.setCoder nl nh) dec
  rw [e] at o1 o3 o4 ⊢
  cases dec with
  | false =>
    obtain ⟨f, bs, hb, hsnk⟩ := shifts_enc_frame k (s.setCoder nl nh)
    have hm : (State.shifts false k (s.setCoder nl nh)).mode = .enc := by rw [f]; simpa using hmode
    refine ⟨?_, ?_, ?_, ⟨fun _ => ⟨o3, o4⟩, fun hd => ?_⟩, ?_, ?_, ?_, ?_, ?_, ?_⟩
    · rw [f]; exact a1
    · rw [f]; exact a2
    · rw [f]; exact a3
    · rw [hm] at hd; exact absurd hd (by simp)
    · rw [f]; exact a5
    · rw [f]; exact a6
    · rw [f]; exact a7
    · rw [hsnk, f]; simp; omega
    · rw [f]; exact a9
    · rw [f]; exact a10
  | true =>
    have f := shifts_dec_frame k (s.setCoder nl nh)
    obtain ⟨c1, -⟩ := shifts_dec_cursor k (s.setCoder nl nh) a6 a7
    refine ⟨?_, ?_, ?_, ⟨fun _ => ⟨o3, o4⟩, fun _ => o1.2 rfl⟩, ?_, ?_, ?_, ?_, ?_, ?_⟩
    · rw [f]; exact a1
    · rw [f]; exact a2
    · rw [f]; exact a3
    · rw [f]; exact a5
    · rw [c1, f]; simp
    · rw [f]; exact a7
    · rw [f]; exact a8
    · rw [f]; exact a9
    · rw [f]; exact a10

theorem execRcEnc_sound {iv : IvOperand} {s t : State} (h : s.Sound) (e : execRcEnc iv s = .next t) : t.Sound := by
  unfold execRcEnc at e
  rcases needMode_cases s .enc with ⟨-, hm⟩ | ⟨hmode, hm⟩ <;> rw [hm] at e
  · exact sound_settle h (by simp) (by simp) e
  · have hc := h.2.2.2.1.1 (by simp [hmode])
    refine sound_settle h ?_ ?_ e
    · intro u hu
      rcases narrow_cases s (s.interval iv).1 (s.interval iv).2.1 (s.interval iv).2.2 with ⟨-, hn⟩ | ⟨-, -, hn⟩ | ⟨-, -, hn⟩
      · simp [hn] at hu
      · simp [hn] at hu
      · have hb := narrow_ok s hn (by omega)
        have hh := s.high.isLt
        simp only [bind_ok, hn, Except.ok.injEq] at hu
        rw [← hu]
        exact sound_coded false h (by simpa using hmode) hb.2.1 (by omega) (by simp)
    · intro c hc
      rcases narrow_cases s (s.interval iv).1 (s.interval iv).2.1 (s.interval iv).2.2 with ⟨-, hn⟩ | ⟨-, -, hn⟩ | ⟨-, -, hn⟩ <;>
        simp [hn] at hc <;> simp [← hc]

theorem execRcEncFinish_sound {s t : State} (h : s.Sound) (e : execRcEncFinish s = .next t) : t.Sound := by
  unfold execRcEncFinish at e
  rcases needMode_cases s .enc with ⟨-, hm⟩ | ⟨-, hm⟩ <;> rw [hm] at e
  · exact sound_settle h (by simp) (by simp) e
  · cases e
    obtain ⟨h1, h2, h3, h4, h5, h6, h7, h8, h9, h10⟩ := h
    refine ⟨?_, ?_, ?_, ⟨by simp, by simp⟩, ?_, ?_, ?_, ?_, ?_, ?_⟩ <;> simp [State.numSlots] at * <;> assumption

/-- Four bytes read into `CODE`, from the state `RC_DEC_INIT` reads them in. -/
theorem shiftCode_keeps {s : State} (h : s.inPos.toNat ≤ s.src.length ∧ s.src.length < 2 ^ 32) :
    s.shiftCode.inPos.toNat ≤ s.shiftCode.src.length ∧ s.shiftCode.src.length < 2 ^ 32 := by
  have hc := cursor_toNat s h.1 h.2
  rw [shiftCode_frame]
  exact ⟨by rw [hc]; exact Nat.min_le_right _ _, h.2⟩

/-- The four reads of `RC_DEC_INIT` keep soundness, from the whole interval in DEC mode. -/
theorem sound_fill {u : State} (h : u.Sound) (hl : u.low = 0#32) (hh : u.high = 0xFFFFFFFF#32) :
    (u.shiftCode.shiftCode.shiftCode.shiftCode).Sound := by
  obtain ⟨h1, h2, h3, h4, h5, h6, h7, h8, h9, h10⟩ := h
  have k1 := shiftCode_keeps (s := u) ⟨h6, h7⟩
  have k2 := shiftCode_keeps k1
  have k3 := shiftCode_keeps k2
  have k := shiftCode_keeps k3
  refine ⟨?_, ?_, ?_, ⟨fun _ => ?_, fun _ => ?_⟩, ?_, k.1, k.2, ?_, ?_, ?_⟩
  · simpa [State.numSlots] using h1
  · simpa [State.numSlots] using h2
  · simpa using h3
  · simp [hl, hh]
  · have := (u.shiftCode.shiftCode.shiftCode.shiftCode).code.isLt
    simp only [shiftCode_low, shiftCode_high, hl, hh]
    simp
    omega
  · simpa using h5
  · simpa using h8
  · simpa using h9
  · simpa using h10

theorem execRcDecInit_sound {s t : State} (h : s.Sound) (e : execRcDecInit s = .next t) : t.Sound := by
  rw [execRcDecInit, Host.Outcome.next.injEq] at e
  rw [← e]
  obtain ⟨h1, h2, h3, h4, h5, h6, h7, h8, h9, h10⟩ := h
  refine sound_fill ⟨h1, h2, h3, ⟨fun _ => by simp, fun _ => by simp⟩, h5, h6, h7, h8, h9, h10⟩ rfl rfl

theorem execRcGetfreq_sound {o : TotOperand} {s t : State} (h : s.Sound) (e : execRcGetfreq o s = .next t) : t.Sound := by
  unfold execRcGetfreq at e
  rcases needMode_cases s .dec with ⟨-, hm⟩ | ⟨-, hm⟩ <;> rw [hm] at e <;> simp only [bind_ok, bind_error] at e
  · exact sound_settle h (by simp) (by simp) e
  · split at e
    · exact sound_settle h (by simp) (by simp) e
    · cases e; exact sound_results h rfl h.2.2.2.2.1

theorem execRcDec_sound {iv : IvOperand} {s t : State} (h : s.Sound) (e : execRcDec iv s = .next t) : t.Sound := by
  unfold execRcDec at e
  rcases needMode_cases s .dec with ⟨-, hm⟩ | ⟨hmode, hm⟩ <;> rw [hm] at e
  · exact sound_settle h (by simp) (by simp) e
  · have hc := h.2.2.2.1.1 (by simp [hmode])
    rcases narrow_cases s (s.interval iv).1 (s.interval iv).2.1 (s.interval iv).2.2 with ⟨-, hn⟩ | ⟨-, -, hn⟩ | ⟨-, -, hn⟩ <;>
      simp only [bind_ok, hn, bind_error] at e
    · exact sound_settle h (by simp) (by simp) e
    · exact sound_settle h (by simp) (by simp) e
    · have hb := narrow_ok s hn (by omega)
      have hh := s.high.isLt
      split at e
      · exact sound_settle h (by simp) (by simp) e
      · rename_i hd
        cases e
        exact sound_coded true h (by simpa using hmode) hb.2.1 (by omega) (fun _ => by omega)

/-! ### The model commands -/

/-- A command that fetches a valid slot keeps soundness if what it does with the record does. -/
theorem sound_slot {s t : State} {i : Instr} {k : Nat} {v : Bool} {f : Slot → Except Cause State} (h : s.Sound)
    (hok : ∀ m u, m ∈ s.slots → (v = true → m.valid = true) → f m = .ok u → u.Sound)
    (herr : ∀ m c, f m = .error c → c ≠ .none) (e : s.settle i (s.getSlot k v >>= f) = .next t) : t.Sound := by
  rcases getSlot_cases s k v with ⟨-, hg⟩ | ⟨m, -, -, -, hg⟩ | ⟨m, hm, hv, hg⟩ <;> rw [hg] at e
  · exact sound_settle h (by simp) (by simp) e
  · exact sound_settle h (by simp) (by simp) e
  · exact sound_settle h (fun u hu => hok m u (getSlot_mem hm) hv hu) (fun c hc => herr m c hc) e

/-- The same with a symbol operand. -/
theorem sound_sym {s u : State} {o : SymOperand} {f : Nat → Except Cause State}
    (hok : ∀ k, k ≤ 256 → f k = .ok u → u.Sound) (e : (s.getSym o >>= f) = .ok u) : u.Sound := by
  rcases getSym_cases s o with ⟨-, hg⟩ | ⟨hk, hg⟩ <;> rw [hg] at e
  · simp at e
  · exact hok _ hk e

theorem sym_err {s : State} {o : SymOperand} {f : Nat → Except Cause State} {c : Cause}
    (hf : ∀ k c, f k = .error c → c ≠ .none) (e : (s.getSym o >>= f) = .error c) : c ≠ .none := by
  rcases getSym_cases s o with ⟨-, hg⟩ | ⟨-, hg⟩ <;> rw [hg] at e
  · cases e; simp
  · exact hf _ _ e

theorem execMInitEsc_sound {k : Nat} {th : Bool} {s t : State} (h : s.Sound) (e : execMInitEsc k th s = .next t) :
    t.Sound :=
  sound_slot h (fun _ u _ _ hu => by cases hu; exact sound_putSlot h k (escapeOnly_inv th)) (by simp) e

theorem execMInitUni_sound {k : Nat} {th : Bool} {s t : State} (h : s.Sound) (e : execMInitUni k th s = .next t) :
    t.Sound :=
  sound_slot h (fun _ u _ _ hu => by cases hu; exact sound_putSlot h k (uniform_inv th)) (by simp) e

theorem execMCum_sound {k : Nat} {o : SymOperand} {s t : State} (h : s.Sound) (e : execMCum k o s = .next t) : t.Sound :=
  sound_slot h (fun _ _ _ _ hu => sound_sym (fun _ _ hk => by cases hk; exact sound_results h rfl h.2.2.2.2.1) hu)
    (fun _ _ hc => sym_err (by simp) hc) e

theorem execMFind_sound {k : Nat} {o : FreqOperand} {s t : State} (h : s.Sound) (e : execMFind k o s = .next t) :
    t.Sound := by
  refine sound_slot h (fun m u hm hv hu => ?_) (fun m c hc => ?_) e
  · dsimp only at hu
    split at hu
    · simp at hu
    · rename_i hf
      cases hu
      have := fenFind_inv m (hv rfl) (h.2.2.1 m hm) (f := s.freqOf o) (by omega)
      exact sound_find h this.1
  · dsimp only at hc
    split at hc
    · cases hc; simp
    · simp at hc

theorem execMBump_sound {k : Nat} {o : SymOperand} {s t : State} (h : s.Sound) (e : execMBump k o s = .next t) :
    t.Sound := by
  refine sound_slot h (fun m u hm hv hu => sound_sym (fun j hj hk => ?_) hu) (fun _ _ hc => sym_err (by simp) hc) e
  cases hk
  exact sound_putSlot h k (bump_inv m (hv rfl) (h.2.2.1 m hm) (by omega))

theorem execMTotal_sound {k : Nat} {s t : State} (h : s.Sound) (e : execMTotal k s = .next t) : t.Sound :=
  sound_slot h (fun _ _ _ _ hu => by cases hu; exact sound_results h rfl h.2.2.2.2.1) (by simp) e

theorem execMCnt_sound {k : Nat} {o : SymOperand} {s t : State} (h : s.Sound) (e : execMCnt k o s = .next t) : t.Sound :=
  sound_slot h (fun _ _ _ _ hu => sound_sym (fun _ _ hk => by cases hk; exact sound_results h rfl h.2.2.2.2.1) hu)
    (fun _ _ hc => sym_err (by simp) hc) e

theorem execMUniq_sound {k : Nat} {s t : State} (h : s.Sound) (e : execMUniq k s = .next t) : t.Sound :=
  sound_slot h (fun _ _ _ _ hu => by cases hu; exact sound_results h rfl h.2.2.2.2.1) (by simp) e

/-! ### The Witten-Bell view and the mask -/

theorem execMWbTotal_sound {k : Nat} {s t : State} (h : s.Sound) (e : execMWbTotal k s = .next t) : t.Sound :=
  sound_slot h (fun _ _ _ _ hu => by cases hu; exact sound_results h rfl h.2.2.2.2.1) (by simp) e

theorem execMWbCum_sound {k : Nat} {o : SymOperand} {s t : State} (h : s.Sound) (e : execMWbCum k o s = .next t) :
    t.Sound := by
  refine sound_slot h (fun _ _ _ _ hu => sound_sym (fun _ _ hk => ?_) hu) (fun _ _ hc => sym_err ?_ hc) e
  · split at hk <;> cases hk <;> exact sound_results h rfl h.2.2.2.2.1
  · intro j c hj; split at hj <;> simp at hj

theorem execMWbFind_sound {k : Nat} {o : FreqOperand} {s t : State} (h : s.Sound) (e : execMWbFind k o s = .next t) :
    t.Sound := by
  refine sound_slot h (fun m u hm hv hu => ?_) (fun m c hc => ?_) e
  · dsimp only at hu
    split at hu
    · simp at hu
    · split at hu
      · cases hu; exact sound_find h (Nat.le_refl 256)
      · rename_i hf
        cases hu
        have := fenFind_byte m (h.2.2.1 m hm (hv rfl)).2.2.2.2.2.2 (f := s.freqOf o) (by omega)
        exact sound_find h (by omega)
  · dsimp only at hc
    split at hc
    · cases hc; simp
    · split at hc <;> simp at hc

theorem execExclClr_sound {s t : State} (h : s.Sound) (e : execExclClr s = .next t) : t.Sound := by cases e; exact h

theorem execExclAdd_sound {k : Nat} {s t : State} (h : s.Sound) (e : execExclAdd k s = .next t) : t.Sound :=
  sound_slot h (fun _ _ _ _ hu => by cases hu; exact h) (by simp) e

theorem execMWbTotalEx_sound {k : Nat} {s t : State} (h : s.Sound) (e : execMWbTotalEx k s = .next t) : t.Sound :=
  sound_slot h (fun _ _ _ _ hu => by cases hu; exact sound_results h rfl h.2.2.2.2.1) (by simp) e

theorem execMWbCumEx_sound {k : Nat} {o : SymOperand} {s t : State} (h : s.Sound) (e : execMWbCumEx k o s = .next t) :
    t.Sound := by
  refine sound_slot h (fun _ _ _ _ hu => sound_sym (fun _ _ hk => ?_) hu) (fun _ _ hc => sym_err ?_ hc) e
  · split at hk
    · cases hk; exact sound_results h rfl h.2.2.2.2.1
    · split at hk <;> cases hk <;> exact sound_results h rfl h.2.2.2.2.1
  · intro j c hj
    split at hj
    · simp at hj
    · split at hj <;> simp at hj

theorem execMWbFindEx_sound {k : Nat} {o : FreqOperand} {s t : State} (h : s.Sound)
    (e : execMWbFindEx k o s = .next t) : t.Sound := by
  refine sound_slot h (fun m u hm hv hu => ?_) (fun m c hc => ?_) e
  · dsimp only at hu
    split at hu
    · simp at hu
    · split at hu
      · cases hu; exact sound_find h (Nat.le_refl 256)
      · rename_i hf
        cases hu
        have hl : s.freqOf o < (m.openCounts s.excl).sum := by
          rw [← prefixSum_of_length_le (i := 256) _ (by simp)]
          simpa [Slot.sumBytesEx, Slot.cumloEx] using hf
        have := (locate_spec _ _ hl).1
        exact sound_find h (by simp at this; omega)
  · dsimp only at hc
    split at hc
    · cases hc; simp
    · split at hc <;> simp at hc

end Sys2Proof.Machine
end

