-- ==== Sys2Proof/Laws/PerInstr.lean ====
section
/-! SUPPORT. The opcode map (30_encoding.md R76), said of the encoder one command at a time. -/

namespace Sys2Proof

/-- The opcode of a command (30_encoding.md R76). -/
def Instr.opcode : Instr → Nat
  | .nop => 0x00
  | .fltClr => 0x01
  | .rcEncInit => 0x20
  | .rcEnc _ => 0x21
  | .rcEncFinish => 0x22
  | .rcDecInit => 0x28
  | .rcGetfreq _ => 0x29
  | .rcDec _ => 0x2A
  | .mInitEsc _ _ => 0x40
  | .mInitUni _ _ => 0x41
  | .mCum _ _ => 0x42
  | .mFind _ _ => 0x43
  | .mBump _ _ => 0x44
  | .mTotal _ => 0x45
  | .mCnt _ _ => 0x46
  | .mUniq _ => 0x47
  | .mWbTotal _ => 0x48
  | .mWbCum _ _ => 0x49
  | .mWbFind _ _ => 0x4A
  | .mWbTotalEx _ => 0x4C
  | .mWbCumEx _ _ => 0x4D
  | .mWbFindEx _ _ => 0x4E
  | .exclClr => 0x50
  | .exclAdd _ => 0x51

namespace Laws.EncodeOpcode

/-- The encoder puts the command's opcode in bits 63:56. -/
def Statement (i : Instr) : Prop := opc (encode i) = i.opcode

theorem nop : Statement .nop := by simp [Statement, encode, Instr.opcode]
theorem fltClr : Statement .fltClr := by simp [Statement, encode, Instr.opcode]
theorem rcEncInit : Statement .rcEncInit := by simp [Statement, encode, Instr.opcode]
theorem rcEnc (iv : IvOperand) : Statement (.rcEnc iv) := by simp [Statement, encode, Instr.opcode]
theorem rcEncFinish : Statement .rcEncFinish := by simp [Statement, encode, Instr.opcode]
theorem rcDecInit : Statement .rcDecInit := by simp [Statement, encode, Instr.opcode]
theorem rcGetfreq (tot : TotOperand) : Statement (.rcGetfreq tot) := by simp [Statement, encode, Instr.opcode]
theorem rcDec (iv : IvOperand) : Statement (.rcDec iv) := by simp [Statement, encode, Instr.opcode]
theorem mInitEsc (slot : Nat) (th : Bool) : Statement (.mInitEsc slot th) := by
  simp [Statement, encode, Instr.opcode]
theorem mInitUni (slot : Nat) (th : Bool) : Statement (.mInitUni slot th) := by
  simp [Statement, encode, Instr.opcode]
theorem mCum (slot : Nat) (sym : SymOperand) : Statement (.mCum slot sym) := by
  simp [Statement, encode, Instr.opcode]
theorem mFind (slot : Nat) (f : FreqOperand) : Statement (.mFind slot f) := by
  simp [Statement, encode, Instr.opcode]
theorem mBump (slot : Nat) (sym : SymOperand) : Statement (.mBump slot sym) := by
  simp [Statement, encode, Instr.opcode]
theorem mTotal (slot : Nat) : Statement (.mTotal slot) := by simp [Statement, encode, Instr.opcode]
theorem mCnt (slot : Nat) (sym : SymOperand) : Statement (.mCnt slot sym) := by
  simp [Statement, encode, Instr.opcode]
theorem mUniq (slot : Nat) : Statement (.mUniq slot) := by simp [Statement, encode, Instr.opcode]
theorem mWbTotal (slot : Nat) : Statement (.mWbTotal slot) := by simp [Statement, encode, Instr.opcode]
theorem mWbCum (slot : Nat) (sym : SymOperand) : Statement (.mWbCum slot sym) := by
  simp [Statement, encode, Instr.opcode]
theorem mWbFind (slot : Nat) (f : FreqOperand) : Statement (.mWbFind slot f) := by
  simp [Statement, encode, Instr.opcode]
theorem mWbTotalEx (slot : Nat) : Statement (.mWbTotalEx slot) := by simp [Statement, encode, Instr.opcode]
theorem mWbCumEx (slot : Nat) (sym : SymOperand) : Statement (.mWbCumEx slot sym) := by
  simp [Statement, encode, Instr.opcode]
theorem mWbFindEx (slot : Nat) (f : FreqOperand) : Statement (.mWbFindEx slot f) := by
  simp [Statement, encode, Instr.opcode]
theorem exclClr : Statement .exclClr := by simp [Statement, encode, Instr.opcode]
theorem exclAdd (slot : Nat) : Statement (.exclAdd slot) := by simp [Statement, encode, Instr.opcode]

end Laws.EncodeOpcode

end Sys2Proof
end

