-- ==== Sys2Proof/Laws/Runs.lean ====
section
/-! SUPPORT. Runs of commands of which none faults. -/

namespace Sys2Proof.Machine

@[simp] theorem runClean_nil (s : State) : runClean [] s = some s := rfl

theorem runClean_cons {i : Instr} {is : List Instr} {s t : State} (h : exec i s = .next t) (hf : t.fault = false) :
    runClean (i :: is) s = runClean is t := by
  simp [runClean, h, hf]

/-- A clean run goes through each of its commands cleanly. -/
theorem runClean_cons_some {i : Instr} {is : List Instr} {s u : State} (h : runClean (i :: is) s = some u) :
    ∃ t, exec i s = .next t ∧ t.fault = false ∧ runClean is t = some u := by
  unfold runClean at h
  split at h
  · rename_i t ht
    split at h
    · cases h
    · rename_i hf
      exact ⟨t, ht, by simpa using hf, h⟩
  · cases h

/-- A clean run of two parts is a clean run of the second from the end of the first. -/
theorem runClean_append (is js : List Instr) (s : State) :
    runClean (is ++ js) s = (runClean is s).bind (runClean js) := by
  induction is generalizing s with
  | nil => rfl
  | cons i is ih =>
    have step : ∀ l, runClean (i :: l) s =
        match exec i s with
        | .next t => if t.fault then none else runClean l t
        | _ => none := fun _ => rfl
    rw [List.cons_append, step, step]
    cases exec i s with
    | next t => dsimp only; split <;> [rfl; exact ih t]
    | fault f => rfl
    | refused r => rfl

end Sys2Proof.Machine
end

