-- ==== Sys2Proof/Laws/Step.lean ====
section
/-! SUPPORT. What one step does with each kind of action, what `exec` can answer, and what the read port reads. -/

namespace Sys2Proof.Machine

/-- A command always answers a next state: a fault of the spec is one (60_exceptions.md R202). -/
theorem settle_next (s : State) (i : Instr) (r : Except Cause State) : ∃ t, s.settle i r = .next t := by
  cases r <;> exact ⟨_, rfl⟩

theorem exec_next (i : Instr) (s : State) : ∃ t, exec i s = .next t := by
  cases i <;> first | exact ⟨_, rfl⟩ | exact settle_next _ _ _

/-! ### One step, by the action at the head of the port -/

theorem step_empty {s : State} (h : s.port = []) : step s = .next s := by unfold step; rw [h]

theorem step_wait {s : State} {w : CmdWord} {rest : List HostAction} (h : s.port = .issue w :: rest)
    (hb : s.busy = true) : step s = .next s := by unfold step; rw [h]; simp [hb]

theorem step_issue {s : State} {w : CmdWord} {rest : List HostAction} (h : s.port = .issue w :: rest)
    (hb : s.busy = false) : step s = runCommand w (s.accept rest) := by unfold step; rw [h]; simp [hb]

theorem step_read {s : State} {n : BitVec 8} {rest : List HostAction} (h : s.port = .read n :: rest) :
    step s = hostRead n { s with port := rest } := by unfold step; rw [h]

theorem step_attach {s : State} {bs : List Byte} {rest : List HostAction} (h : s.port = .attach bs :: rest) :
    step s = hostAttach bs { s with port := rest } := by unfold step; rw [h]

theorem step_drain {s : State} {n : Nat} {rest : List HostAction} (h : s.port = .drain n :: rest) :
    step s = hostDrain n { s with port := rest } := by unfold step; rw [h]

theorem step_reset {s : State} {rest : List HostAction} (h : s.port = .reset :: rest) :
    step s = hostReset { s with port := rest } := by unfold step; rw [h]

/-! ### The read port -/

theorem readPort_idle {s : State} (h : s.busy = false) (n : BitVec 8) : s.readPort n = s.register n := by
  unfold State.readPort; rw [if_neg (by simp [h])]

@[simp] theorem register_port (s : State) (p : List HostAction) (n : BitVec 8) :
    ({ s with port := p } : State).register n = s.register n := rfl

/-- STATUS as a number (10_state.md R29). -/
theorem status_toNat (s : State) :
    s.status.toNat = s.fopc.toNat * 2 ^ 16 + s.cause.bits.toNat * 2 ^ 8 + s.rsc.toNat * 2 ^ 5 + s.pend.toNat * 2 ^ 4 +
      s.mode.bits.toNat * 2 ^ 2 + s.fault.toNat * 2 + s.busy.toNat := by
  simp only [State.status, append_toNat, BitVec.toNat_ofNat, BitVec.toNat_ofBool]
  omega

/-! ### What the block does with a word -/

/-- Everything `State.receive` can answer (60_exceptions.md R203). -/
theorem receive_cases (s : State) (w : CmdWord) :
    (s.fault = true ∧ acceptedInFault w = false ∧ s.receive w = .discard) ∨
    ((s.fault = false ∨ acceptedInFault w = true) ∧
      ((∃ i, decode w = .ok i ∧ s.receive w = .run i) ∨ ∃ e, decode w = .error e ∧ s.receive w = .illegal)) := by
  unfold State.receive
  cases hf : s.fault <;> cases ha : acceptedInFault w <;> cases hd : decode w <;> simp

/-- Everything the block can answer for a word it takes. -/
theorem runCommand_cases (w : CmdWord) (s : State) :
    (s.fault = true ∧ acceptedInFault w = false ∧ runCommand w s = .next s.release) ∨
    ((s.fault = false ∨ acceptedInFault w = true) ∧
      ((∃ i t, decode w = .ok i ∧ exec i s = .next t ∧ runCommand w s = .next t.release) ∨
        ∃ e, decode w = .error e ∧ runCommand w s = .next (s.enterFault .illegal w).release)) := by
  unfold runCommand
  rcases receive_cases s w with ⟨h1, h2, h3⟩ | ⟨h1, ⟨i, h2, h3⟩ | ⟨e, h2, h3⟩⟩ <;> rw [h3]
  · exact .inl ⟨h1, h2, rfl⟩
  · obtain ⟨t, ht⟩ := exec_next i s
    exact .inr ⟨h1, .inl ⟨i, t, h2, ht, by dsimp only; rw [ht]; rfl⟩⟩
  · exact .inr ⟨h1, .inr ⟨e, h2, rfl⟩⟩

/-- The command at a word that executes during a fault. -/
theorem decode_acceptedInFault {w : CmdWord} (h : acceptedInFault w = true) :
    (w = 0x0000000000000000#64 ∧ decode w = .ok .nop) ∨ (w = 0x0100000000000000#64 ∧ decode w = .ok .fltClr) := by
  have e0 : decode 0x0000000000000000#64 = .ok .nop := by decide +kernel
  have e1 : decode 0x0100000000000000#64 = .ok .fltClr := by decide +kernel
  unfold acceptedInFault at h
  rw [Bool.or_eq_true] at h
  rcases h with h | h
  · rw [beq_iff_eq] at h; exact .inl ⟨h, h ▸ e0⟩
  · rw [beq_iff_eq] at h; exact .inr ⟨h, h ▸ e1⟩

end Sys2Proof.Machine
end

