-- ==== Sys2Proof/Machine/Assembler.lean ====
section
/-! DEFINITION. The assembler: one line of text to the command (30_encoding.md R80) or commands (R81) it names. -/

namespace Sys2Proof.Machine

/-- The value of a digit in base 16, `none` for any other character. -/
def digitValue (c : Char) : Option Nat :=
  if '0' ≤ c ∧ c ≤ '9' then some (c.toNat - '0'.toNat)
  else if 'a' ≤ c ∧ c ≤ 'f' then some (c.toNat - 'a'.toNat + 10)
  else if 'A' ≤ c ∧ c ≤ 'F' then some (c.toNat - 'A'.toNat + 10)
  else none

/-- Digits in base `b`, added to the value read so far. -/
def readDigits (b : Nat) : List Char → Nat → Option Nat
  | [], acc => some acc
  | c :: cs, acc =>
    match digitValue c with
    | some d => if d < b then readDigits b cs (acc * b + d) else none
    | none => none

/-- A decimal number, or a hexadecimal one with `0x` (30_encoding.md R80). -/
def readNumber : List Char → Option Nat
  | [] => none
  | ['0', 'x'] => none
  | '0' :: 'x' :: cs => readDigits 16 cs 0
  | cs => readDigits 10 cs 0

/-- The comma-separated pieces of a text. -/
def splitCommas : List Char → List (List Char)
  | [] => [[]]
  | c :: cs =>
    match splitCommas cs with
    | [] => [[c]]
    | p :: ps => if c = ',' then [] :: p :: ps else (c :: p) :: ps

/-- The operands of a line: the text after the mnemonic without its spaces, split at commas. -/
def readOperands (cs : List Char) : List (List Char) :=
  if cs.filter (· ≠ ' ') = [] then [] else splitCommas (cs.filter (· ≠ ' '))

/-- `r` selects the S-form (30_encoding.md R80). -/
def readSym (cs : List Char) : Option SymOperand :=
  if cs = ['r'] then some .reg else (readNumber cs).map .imm

/-- `r` selects the S-form (30_encoding.md R80). -/
def readFreq (cs : List Char) : Option FreqOperand :=
  if cs = ['r'] then some .reg else (readNumber cs).map .imm

/-- No operands. -/
def lineC (i : Instr) : List (List Char) → Option Instr
  | [] => some i
  | _ => none

/-- `lo, hi, tot` or `r`. -/
def lineIv (mk : IvOperand → Instr) : List (List Char) → Option Instr
  | [r] => if r = ['r'] then some (mk .regs) else none
  | [lo, hi, tot] => do return mk (.imm (← readNumber lo) (← readNumber hi) (← readNumber tot))
  | _ => none

/-- `tot` or `r`. -/
def lineTot (mk : TotOperand → Instr) : List (List Char) → Option Instr
  | [t] => if t = ['r'] then some (mk .reg) else (readNumber t).map fun n => mk (.imm n)
  | _ => none

/-- `slot[, th]`; `th` is `0` or `1` and 0 when left out. -/
def lineInit (mk : Nat → Bool → Instr) : List (List Char) → Option Instr
  | [slot] => (readNumber slot).map fun n => mk n false
  | [slot, ['0']] => (readNumber slot).map fun n => mk n false
  | [slot, ['1']] => (readNumber slot).map fun n => mk n true
  | _ => none

/-- `slot`. -/
def lineSlot (mk : Nat → Instr) : List (List Char) → Option Instr
  | [slot] => (readNumber slot).map mk
  | _ => none

/-- `slot, sym` or `slot, r`. -/
def lineSym (mk : Nat → SymOperand → Instr) : List (List Char) → Option Instr
  | [slot, o] => do return mk (← readNumber slot) (← readSym o)
  | _ => none

/-- `slot, f` or `slot, r`. -/
def lineFreq (mk : Nat → FreqOperand → Instr) : List (List Char) → Option Instr
  | [slot, o] => do return mk (← readNumber slot) (← readFreq o)
  | _ => none

/-- What a mnemonic of 30_encoding.md R80 makes of its operands. -/
def mnemonicTable : List (String × (List (List Char) → Option Instr)) :=
  [("nop", lineC .nop), ("flt.clr", lineC .fltClr), ("rc.einit", lineC .rcEncInit), ("rc.enc", lineIv .rcEnc),
   ("rc.efinish", lineC .rcEncFinish), ("rc.dinit", lineC .rcDecInit), ("rc.getfreq", lineTot .rcGetfreq),
   ("rc.dec", lineIv .rcDec)] ++
  [("m.init.esc", lineInit .mInitEsc), ("m.init.uni", lineInit .mInitUni), ("m.cum", lineSym .mCum),
   ("m.find", lineFreq .mFind), ("m.bump", lineSym .mBump), ("m.total", lineSlot .mTotal), ("m.cnt", lineSym .mCnt),
   ("m.uniq", lineSlot .mUniq)] ++
  [("wb.total", lineSlot .mWbTotal), ("wb.cum", lineSym .mWbCum), ("wb.find", lineFreq .mWbFind),
   ("wbx.total", lineSlot .mWbTotalEx), ("wbx.cum", lineSym .mWbCumEx), ("wbx.find", lineFreq .mWbFindEx),
   ("excl.clr", lineC .exclClr), ("excl.add", lineSlot .exclAdd)]

/-- The pseudo-instructions (30_encoding.md R81): their names and the commands they expand to, in order. -/
def expandPseudo (name : String) (ops : List Nat) : Option (List Instr) :=
  match name, ops with
  | "enc.sym", [slot, sym] => some [.mCum slot (.imm sym), .rcEnc .regs]
  | "enc.wbx", [slot, sym] => some [.mWbCumEx slot (.imm sym), .rcEnc .regs]
  | "dec.sym", [slot] => some [.mTotal slot, .rcGetfreq .reg, .mFind slot .reg, .rcDec .regs]
  | "dec.wb", [slot] => some [.mWbTotal slot, .rcGetfreq .reg, .mWbFind slot .reg, .rcDec .regs]
  | "dec.wbx", [slot] => some [.mWbTotalEx slot, .rcGetfreq .reg, .mWbFindEx slot .reg, .rcDec .regs]
  | "upd", [slot] => some [.mBump slot .reg]
  | _, _ => none

/-- The commands one line of text stands for; `none` for a line of no command, or with an operand that does not fit
its field. -/
def assemble (line : String) : Option (List Instr) :=
  let name := String.ofList (line.toList.takeWhile (· ≠ ' '))
  let ops := readOperands (line.toList.dropWhile (· ≠ ' '))
  let out :=
    match mnemonicTable.lookup name with
    | some read => (read ops).map fun i => [i]
    | none => (ops.mapM readNumber).bind (expandPseudo name)
  out.filter fun is => is.all Instr.wellFormed

/-- The words of a line. -/
def assembleWords (line : String) : Option (List CmdWord) := (assemble line).map (·.map encode)

end Sys2Proof.Machine
end

