-- ==== Sys2Proof/Tests/Slice0.lean ====
section
/-! SUPPORT. Tests: every command's word written out from 30_encoding.md, one step on a small state for every command
with the numbers of 95_test_vectors.md, and for every obligation with hypotheses a state that meets them. -/

namespace Sys2Proof.Tests

set_option Elab.async false

open Machine

/-! ### States -/

/-- The state an answer holds, or the one given. -/
def nextOr (o : Out) (s : State) : State :=
  match o with
  | .next t => t
  | _ => s

/-- What a command leaves, or the state itself if it stops. -/
def after (i : Instr) (s : State) : State := nextOr (exec i s) s

/-- What a word leaves when the host issues it. -/
def issued (w : CmdWord) (s : State) : State := nextOr (step { s with port := [.issue w] }) s

/-- The registers an interval is read from. -/
def ivOf (s : State) : Nat × Nat × Nat := (s.rLo.toNat, s.rHi.toNat, s.rTot.toNat)

/-- An encoder with the given ends and an empty sink. -/
def enc (lo hi : Word) : State := { State.reset with mode := .enc, low := lo, high := hi }

/-- A decoder that has read the two bytes `12 34` and two zeros past them (95_test_vectors.md L2.2). -/
def dec1234 : State :=
  { State.reset with
    mode := .dec, high := 0xFFFFFFFF#32, code := 0x12340000#32, src := [0x12#8, 0x34#8], inPos := 2#32, pend := true }

/-- A slot, escape count 1, with the byte counts listed. -/
def counted (th : Bool) (l : List (Nat × Nat)) : Slot :=
  Slot.fresh th (tabulate fun i => BitVec.ofNat 16 (if i = 256 then 1 else (l.lookup i).getD 0))
    ((l.map Prod.snd).sum + 1) l.length

/-- Four slots: uniform, `97 × 3, 98 × 1`, `98 × 2, 99 × 1`, invalid (95_test_vectors.md L2.5, L2.6). -/
def models : State :=
  { State.reset with
    slots := [Slot.uniform false, counted false [(97, 3), (98, 1)], counted false [(98, 2), (99, 1)], Slot.reset] }

/-- The same with `EXCL = {97, 98}`. -/
def excluding : State := { models with excl := 0x6#256 <<< 96 }

/-- One slot one bump below its threshold `2^14` (95_test_vectors.md L2.4, row 1). -/
def full : State :=
  { State.reset with
    slots := [Slot.fresh true (tabulate fun i => if i = 0 then 16127#16 else 1#16) 16383 256] }

/-- The same slot in DEC mode with `R_F = 5` and `R_TOT = 257`, both forms of every operand in range. -/
def decoding0 : State :=
  { models with mode := .dec, high := 0xFFFFFFFF#32, code := 0x12340000#32, rTot := 257#16, rF := 5#16 }

/-! ### Decoding (30_encoding.md R80, R82; 95_test_vectors.md L2.1) -/

theorem test_decode_control : decode 0x0000000000000000#64 = .ok .nop ∧ decode 0x0100000000000000#64 = .ok .fltClr := by
  decide

theorem test_decode_coder :
    decode 0x2000000000000000#64 = .ok .rcEncInit ∧ decode 0x2100010100020001#64 = .ok (.rcEnc (.imm 1 2 257)) ∧
    decode 0x2180000000000000#64 = .ok (.rcEnc .regs) ∧ decode 0x2200000000000000#64 = .ok .rcEncFinish ∧
    decode 0x2800000000000000#64 = .ok .rcDecInit ∧ decode 0x2900010100000000#64 = .ok (.rcGetfreq (.imm 257)) ∧
    decode 0x2980000000000000#64 = .ok (.rcGetfreq .reg) ∧
    decode 0x2A00010100420041#64 = .ok (.rcDec (.imm 65 66 257)) ∧ decode 0x2A80000000000000#64 = .ok (.rcDec .regs) ∧
    decode 0x2100FFFF00010000#64 = .ok (.rcEnc (.imm 0 1 65535)) := by decide

theorem test_decode_model :
    decode 0x4000000180000000#64 = .ok (.mInitEsc 1 true) ∧ decode 0x4100000000000000#64 = .ok (.mInitUni 0 false) ∧
    decode 0x4200000000410000#64 = .ok (.mCum 0 (.imm 65)) ∧ decode 0x4280000300000000#64 = .ok (.mCum 3 .reg) ∧
    decode 0x4300000200000064#64 = .ok (.mFind 2 (.imm 100)) ∧ decode 0x4380000200000000#64 = .ok (.mFind 2 .reg) ∧
    decode 0x4400000001000000#64 = .ok (.mBump 0 (.imm 256)) ∧ decode 0x4480000000000000#64 = .ok (.mBump 0 .reg) ∧
    decode 0x4500000500000000#64 = .ok (.mTotal 5) ∧ decode 0x4600000001000000#64 = .ok (.mCnt 0 (.imm 256)) ∧
    decode 0x4680000300000000#64 = .ok (.mCnt 3 .reg) ∧ decode 0x4700000100000000#64 = .ok (.mUniq 1) ∧
    decode 0x42000009012C0000#64 = .ok (.mCum 9 (.imm 300)) := by decide

theorem test_decode_views :
    decode 0x4800000100000000#64 = .ok (.mWbTotal 1) ∧ decode 0x4900000101000000#64 = .ok (.mWbCum 1 (.imm 256)) ∧
    decode 0x4A80000100000000#64 = .ok (.mWbFind 1 .reg) ∧ decode 0x4A00000100000003#64 = .ok (.mWbFind 1 (.imm 3)) ∧
    decode 0x4C00000100000000#64 = .ok (.mWbTotalEx 1) ∧ decode 0x4D00000100630000#64 = .ok (.mWbCumEx 1 (.imm 99)) ∧
    decode 0x4E00000100000003#64 = .ok (.mWbFindEx 1 (.imm 3)) ∧ decode 0x4E80000100000000#64 = .ok (.mWbFindEx 1 .reg) ∧
    decode 0x5000000000000000#64 = .ok .exclClr ∧ decode 0x5100000100000000#64 = .ok (.exclAdd 1) := by decide

theorem test_decode_illegal :
    [0x2101000200010000#64, 0x2180000000000001#64, 0x2280000000000000#64, 0xFF00000000000000#64, 0x0000000000000001#64,
      0x4200000100000001#64, 0x4000000100000001#64, 0x4580000000000000#64, 0x2980000000010000#64,
      0x5000000100000000#64].map (fun w => ((decode w).toOption, legal w)) = List.replicate 10 (none, false) := by decide

theorem test_encode : [Instr.rcEnc (.imm 1 2 257), .mInitEsc 1 true, .mFind 2 (.imm 100), .mBump 0 (.imm 256),
      .mWbFind 1 .reg].map encode = [0x2100010100020001#64, 0x4000000180000000#64, 0x4300000200000064#64,
      0x4400000001000000#64, 0x4A80000100000000#64] := by decide

theorem test_table_word :
    decodeTableWord 64 0x4D00000100630000 = some (.mWbCumEx 1 (.imm 99)) ∧ decodeTableWord 64 0xFF00000000000000 = none ∧
    nextOr (step (State.reset.withFetchWord 64 0x2000000000000000)) State.reset = after .rcEncInit State.reset :=
  ⟨by decide, by decide, rfl⟩

/-! ### Ill-formed commands -/

theorem test_ill_formed_interval :
    (Instr.rcEnc (.imm 65536 0 0)).wellFormed = false ∧ (Instr.rcEnc (.imm 0 65536 0)).wellFormed = false ∧
    (Instr.rcDec (.imm 0 0 65536)).wellFormed = false ∧ (Instr.rcDec (.imm 65535 65535 65535)).wellFormed = true := by
  decide

theorem test_ill_formed_total :
    (Instr.rcGetfreq (.imm 65536)).wellFormed = false ∧ (Instr.rcGetfreq (.imm 65535)).wellFormed = true := by decide

theorem test_ill_formed_symbol :
    (Instr.mCum 0 (.imm 512)).wellFormed = false ∧ (Instr.mWbCumEx 0 (.imm 512)).wellFormed = false ∧
    (Instr.mCnt 0 (.imm 511)).wellFormed = true := by decide

theorem test_ill_formed_frequency :
    (Instr.mFind 0 (.imm 65536)).wellFormed = false ∧ (Instr.mWbFindEx 0 (.imm 65536)).wellFormed = false ∧
    (Instr.mWbFind 0 (.imm 65535)).wellFormed = true := by decide

theorem test_ill_formed_slot :
    [Instr.mInitEsc 65536 false, .mInitUni 65536 true, .mTotal 65536, .mCum 65536 .reg, .mFind 65536 .reg,
      .exclAdd 65536, .mBump 65536 (.imm 0)].all (fun i => !i.wellFormed) = true ∧
    (Instr.exclAdd 65535).wellFormed = true := by decide

/-! ### The assembler (30_encoding.md R80, R81) -/

theorem test_assemble :
    assembleWords "rc.enc 1, 2, 0x101" = some [0x2100010100020001#64] ∧
    assembleWords "m.init.esc 1, 1" = some [0x4000000180000000#64] ∧
    assembleWords "m.init.uni 0" = some [0x4100000000000000#64] ∧
    assembleWords "wbx.find 1, r" = some [0x4E80000100000000#64] ∧
    assembleWords "m.cum 0, 512" = none ∧ assembleWords "m.init.uni 0, 2" = none := by decide +kernel

theorem test_assemble_pseudo :
    assembleWords "dec.wbx 1" = some [0x4C00000100000000#64, 0x2980000000000000#64, 0x4E80000100000000#64,
      0x2A80000000000000#64] ∧
    assembleWords "enc.sym 0, 256" = some [0x4200000001000000#64, 0x2180000000000000#64] ∧
    assembleWords "upd 2" = some [0x4480000200000000#64] := by decide +kernel

/-! ### One command each (95_test_vectors.md) -/

theorem test_nop : after .nop dec1234 = dec1234 := rfl

/-- L2.7: the fault record is cleared and `MODE` stays. -/
theorem test_flt_clr : (after .fltClr ((enc 0#32 1#32).enterFault .badOperand 0x2100000000000000#64)).status =
    0x00000004#32 := by decide +kernel

theorem test_rc_enc_init :
    let t := after .rcEncInit { dec1234 with snk := [0xAA#8], undrained := 1 }
    (t.low, t.high, t.code, t.snk) = (0x00000000#32, 0xFFFFFFFF#32, 0x12340000#32, []) := by decide +kernel

/-- L2.2: `rc.enc 65, 66, 257` emits nothing and `rc.enc 0, 1, 65535` one byte. -/
theorem test_rc_enc :
    let t := after (.rcEnc (.imm 65 66 257)) (enc 0#32 0xFFFFFFFF#32)
    let u := after (.rcEnc (.imm 0 1 65535)) (enc 0#32 0xFFFFFFFF#32)
    (t.low, t.high, t.snk) = (0x40BF40BF#32, 0x41BE41BD#32, []) ∧
    (u.low, u.high, u.snk) = (0x00000000#32, 0x010000FF#32, [0x00#8]) := by decide +kernel

/-- P5, steps 26 and 28: the straddle faults on an empty interval, and a renormalization of four steps ends it. -/
theorem test_rc_enc_straddle :
    let t := after (.rcEnc (.imm 0 1 4)) (enc 0x00FFFFFF#32 0x01000000#32)
    let u := after (.rcEnc (.imm 1 3 4)) (enc 0x00FFFFFF#32 0x01000000#32)
    t.status = 0x00210406#32 ∧ (u.low, u.high, u.snk) =
      (0x00000000#32, 0xFFFFFFFF#32, [0x00#8, 0xFF#8, 0xFF#8, 0xFF#8]) := by decide +kernel

theorem test_rc_enc_finish :
    let t := after .rcEncFinish (enc 0x40BF40BF#32 0x41BE41BD#32)
    (t.status, t.low, t.snk) = (0x00000000#32, 0x40BF40BF#32, [0x40#8, 0xBF#8, 0x40#8, 0xBF#8]) := by decide +kernel

/-- L2.2: two bytes of four, and a second start that goes on where the cursor stands. -/
theorem test_rc_dec_init :
    let t := after .rcDecInit { State.reset with src := [0x12#8, 0x34#8] }
    let u := after .rcDecInit { State.reset with src := [0xAB#8, 0xCD#8, 0xEF#8, 0x01#8, 0x23#8], inPos := 4#32 }
    (t.code, t.inPos, t.status) = (0x12340000#32, 2#32, 0x00000018#32) ∧
    (u.code, u.inPos, u.status) = (0x23000000#32, 5#32, 0x00000018#32) := by decide +kernel

theorem test_rc_getfreq :
    (after (.rcGetfreq (.imm 257)) dec1234).rF = 18#16 ∧ (after (.rcGetfreq (.imm 65535)) dec1234).rF = 4659#16 ∧
    (after (.rcGetfreq (.imm 0)) dec1234).status = 0x0029031A#32 := by decide +kernel

theorem test_rc_dec :
    let t := after (.rcDec (.imm 256 257 257))
      { dec1234 with code := 0xFFFFFFFF#32, src := List.replicate 8 0xFF#8, inPos := 4#32, pend := false }
    (t.low, t.high, t.code, t.inPos, t.status) =
      (0x00FF0000#32, 0xFFFFFFFF#32, 0xFFFFFFFF#32, 5#32, 0x00000008#32) := by decide +kernel

/-- L2.2: `CODE` above and below the interval. -/
theorem test_rc_dec_desync :
    (after (.rcDec (.imm 0 1 16)) dec1234).status = 0x002A051A#32 ∧
    (after (.rcDec (.imm 2 3 16)) dec1234).status = 0x002A051A#32 := by decide +kernel

/-- The tables of a slot an init command wrote, as numbers: valid, `TH`, total, unique count and four counts. -/
def summary (s : State) (k : Nat) : Option (Bool × Bool × Nat × Nat × List Nat) :=
  s.slots[k]?.map fun m => (m.valid, m.th, m.total.toNat, m.uniq.toNat, [0, 65, 255, 256].map m.cntAt)

theorem test_m_init_esc : summary (after (.mInitEsc 1 true) models) 1 = some (true, true, 1, 0, [0, 0, 0, 1]) ∧
    (after (.mInitEsc 4 false) State.reset).status = 0x00400602#32 := by decide +kernel

theorem test_m_init_uni : summary (after (.mInitUni 3 false) models) 3 = some (true, false, 257, 256, [1, 1, 1, 1]) := by
  decide +kernel

theorem test_m_cum : ivOf (after (.mCum 1 (.imm 256)) models) = (4, 5, 5) ∧
    ivOf (after (.mCum 0 .reg) { models with rSym := 66#9 }) = (66, 67, 257) := by decide +kernel

/-- L2.3: the order of the checks. -/
theorem test_m_cum_faults :
    (after (.mCum 9 (.imm 300)) State.reset).status = 0x00420602#32 ∧
    (after (.mCum 0 (.imm 65)) State.reset).status = 0x00420702#32 ∧
    (after (.mCum 1 (.imm 300)) models).status = 0x00420802#32 := by decide +kernel

theorem test_m_find :
    let t := after (.mFind 0 (.imm 100)) models
    (t.rSym, ivOf t) = (100#9, (100, 101, 257)) ∧ (after (.mFind 0 (.imm 257)) models).status = 0x00430902#32 := by
  decide +kernel

/-- L2.3: `m.bump 0, 65` on the uniform slot. -/
theorem test_m_bump : summary (after (.mBump 0 (.imm 65)) models) 0 = some (true, false, 258, 256, [1, 2, 1, 1]) := by
  decide +kernel

/-- L2.4: the bump that reaches the threshold. -/
theorem test_m_bump_rescale : summary (after (.mBump 0 (.imm 0)) full) 0 = some (true, true, 8320, 256, [8064, 1, 1, 1]) ∧
    (after (.mBump 0 (.imm 0)) full).status = 0x00000020#32 := by decide +kernel

theorem test_m_total : (after (.mTotal 1) models).rTot = 5#16 := by decide +kernel

theorem test_m_cnt : (after (.mCnt 1 (.imm 97)) models).rCnt = 3#16 ∧
    (after (.mCnt 1 .reg) { models with rSym := 98#9 }).rCnt = 1#16 := by decide +kernel

theorem test_m_uniq : (after (.mUniq 0) models).rCnt = 256#16 ∧ (after (.mUniq 1) models).rCnt = 2#16 := by decide +kernel

theorem test_wb_total : (after (.mWbTotal 1) models).rTot = 6#16 ∧
    (after (.mWbTotal 0) { models with slots := [Slot.escapeOnly false] }).rTot = 1#16 := by decide +kernel

theorem test_wb_cum : ivOf (after (.mWbCum 1 (.imm 256)) models) = (4, 6, 6) ∧
    ivOf (after (.mWbCum 1 (.imm 98)) models) = (3, 4, 6) := by decide +kernel

theorem test_wb_find :
    let t := after (.mWbFind 1 (.imm 3)) models
    let u := after (.mWbFind 1 (.imm 4)) models
    (t.rSym, ivOf t) = (98#9, (3, 4, 6)) ∧ (u.rSym, ivOf u) = (256#9, (4, 6, 6)) ∧
    (after (.mWbFind 1 (.imm 6)) models).status = 0x004A0902#32 := by decide +kernel

theorem test_wbx_total : (after (.mWbTotalEx 2) excluding).rTot = 2#16 ∧ (after (.mWbTotalEx 1) excluding).rTot = 1#16 := by
  decide +kernel

theorem test_wbx_cum :
    [97, 98, 99, 256].map (fun b => ivOf (after (.mWbCumEx 2 (.imm b)) excluding)) =
      [(0, 0, 2), (0, 0, 2), (0, 1, 2), (1, 2, 2)] := by decide +kernel

theorem test_wbx_find :
    let t := after (.mWbFindEx 2 (.imm 0)) excluding
    let u := after (.mWbFindEx 2 (.imm 1)) excluding
    (t.rSym, ivOf t) = (99#9, (0, 1, 2)) ∧ (u.rSym, ivOf u) = (256#9, (1, 2, 2)) ∧
    (after (.mWbFindEx 2 (.imm 2)) excluding).status = 0x004E0902#32 := by decide +kernel

theorem test_excl_clr : (after .exclClr excluding).excl = 0#256 := by decide +kernel

/-- L2.6: registers 0x13, and the whole mask of a uniform slot. -/
theorem test_excl_add : (after (.exclAdd 2) excluding).register 0x13#8 = 0x0000000E#32 ∧
    (after (.exclAdd 0) models).excl = BitVec.allOnes 256 ∧ (after (.exclAdd 3) models).status = 0x00510702#32 := by
  decide +kernel

/-! ### The ports -/

/-- L2.1: an illegal word, and the record it leaves. -/
theorem test_illegal :
    let t := issued 0x2101000200010000#64 (enc 0#32 0xFFFFFFFF#32)
    (t.status, t.register 0x0F#8, t.register 0x0E#8) = (0x00210106#32, 0x21010002#32, 0x00010000#32) := by decide +kernel

/-- L2.7, P4: in a fault everything is discarded but `NOP` and the exact `FLT_CLR`. -/
theorem test_discard :
    let s := State.reset.enterFault .badMode 0x2100000200010000#64
    issued 0x2000000000000000#64 s = s ∧ issued 0#64 s = s ∧ issued 0x0100000000000001#64 s = s ∧
    issued 0x0100000000000000#64 s = State.reset := ⟨rfl, rfl, rfl, rfl⟩

theorem test_reset_registers :
    [0x00, 0x03, 0x0A, 0x0C, 0x0D, 0x13, 0x18, 0xFF].map (fun n => State.reset.register (BitVec.ofNat 8 n)) =
      [0#32, 0#32, 0#32, 0#32, 4#32, 0#32, 0#32, 0#32] := by decide +kernel

theorem test_attach :
    let t := nextOr (step { dec1234 with port := [.attach [0xAB#8]] }) dec1234
    (t.src, t.inPos, t.status, t.code) = ([0xAB#8], 0#32, 0x00000008#32, 0x12340000#32) := by decide +kernel

/-! ### What meets the hypotheses of the obligations -/

theorem answers (i : Instr) (s : State) : exec i s = .next (after i s) := by
  obtain ⟨t, h⟩ := exec_next i s
  rw [after, h, nextOr]

/-- The state with one action of the host pending. -/
def pending (a : HostAction) (s : State) : State := { s with port := [a] }

/-- A state in a fault. -/
def faulted : State := State.reset.enterFault .badMode 0x2100000200010000#64

/-- An encoder one command into a straddle (10_state.md R27). -/
def straddle : State := enc 0x00FFFFFF#32 0x01000000#32

theorem witness_DecodeReadsBackEncode :
    (Instr.rcEnc (.imm 65535 65535 65535)).wellFormed = true ∧ (Instr.mCum 65535 (.imm 511)).wellFormed = true ∧
    (Instr.mFind 0 (.imm 65535)).wellFormed = true ∧ (Instr.mInitUni 65535 true).wellFormed = true := by decide

theorem witness_LegalWordIsItsEncoding :
    decode 0x4380000200000000#64 = .ok (.mFind 2 .reg) ∧ decode 0x4300FFFF0000FFFF#64 = .ok (.mFind 65535 (.imm 65535)) := by
  decide

theorem witness_LegalMeansOnlyUsedBits :
    legal 0x2180000000000000#64 = true ∧ legal 0x2180000000000001#64 = false ∧ legal 0x4B00000000000000#64 = false := by
  decide

theorem witness_IllegalWordsFault :
    (decode 0x0200000000000000#64 = .error .undefinedOpcode ∧ decode 0xFF00000000000000#64 = .error .undefinedOpcode ∧
      decode 0x2101000200010000#64 = .error .reservedBit ∧ decode 0x4580000000000000#64 = .error .misusedS) ∧
    (pending (.issue 0x4B00000000000000#64) State.reset).port = .issue 0x4B00000000000000#64 :: [] ∧
    State.reset.busy = false ∧ State.reset.fault = false ∧ legal 0x4B00000000000000#64 = false := by decide

theorem witness_NopIsTheOnlyNopWord : opc 0x0080000000000000#64 = 0x00 ∧ 0x0080000000000000#64 ≠ 0#64 := by decide

theorem witness_StepRunsTheIssuedCommand :
    ((pending (.issue 0x2000000000000000#64) State.reset).busy = false ∧ State.reset.fault = false ∧
      decode 0x2000000000000000#64 = .ok .rcEncInit) ∧
    (faulted.fault = true ∧ decode 0x0100000000000000#64 = .ok .fltClr ∧ decode 0x0000000000000000#64 = .ok .nop) := by
  decide

theorem witness_CommandsDoNotSeeThePort : exec (.mBump 1 (.imm 97)) models = .next (after (.mBump 1 (.imm 97)) models) :=
  answers _ _

theorem witness_FaultedBlockDiscards :
    (pending (.issue 0x0100000000000001#64) faulted).port = .issue 0x0100000000000001#64 :: [] ∧
    faulted.busy = false ∧ faulted.fault = true ∧ 0x0100000000000001#64 ≠ 0x0100000000000000#64 ∧
    (pending (.issue 0x0100000000000000#64) faulted).port = .issue 0x0100000000000000#64 :: [] := by decide

theorem witness_BlockHoldsItsState :
    State.reset.port = [] ∧ (pending (.issue 0#64) { State.reset with busy := true }).port = .issue 0#64 :: [] ∧
    (pending (.issue 0#64) { State.reset with busy := true }).busy = true := by decide

theorem witness_FaultsArePreciseAndListed :
    (pending (.issue 0x2A00001000010000#64) dec1234).port = .issue 0x2A00001000010000#64 :: [] ∧
    dec1234.busy = false ∧ dec1234.fault = false ∧
    (issued 0x2A00001000010000#64 dec1234).cause = .desync ∧ (issued 0x2A00001000020001#64 dec1234).fault = false := by
  decide +kernel

theorem witness_OnlyFltClrOrResetEndsAFault :
    faulted.fault = true ∧ step (pending (.issue 0x2000000000000000#64) faulted) = .next faulted ∧
    step (pending (.issue 0x0100000000000000#64) faulted) = .next State.reset ∧
    step (pending .reset faulted) = .next State.reset := ⟨rfl, rfl, rfl, rfl⟩

/-- One witness for each clause, at the boundary of each condition. -/
theorem witness_CoderFaultPriority :
    (State.reset.mode ≠ .enc ∧ State.reset.mode ≠ .dec) ∧
    (dec1234.mode = .dec ∧ dec1234.totOf (.imm 0) = 0) ∧
    ([(0, 0, 0), (1, 1, 2), (0, 3, 2)].all fun iv : Nat × Nat × Nat =>
      decide (iv.2.2 = 0 ∨ iv.2.1 ≤ iv.1 ∨ iv.2.2 < iv.2.1)) = true ∧
    (straddle.mode = .enc ∧ straddle.interval (.imm 0 1 4) = (0, 1, 4) ∧
      straddle.range * 1 / 4 ≤ straddle.range * 0 / 4 ∧ { straddle with mode := .dec }.mode = .dec) ∧
    (dec1234.interval (.imm 0 1 16) = (0, 1, 16) ∧ dec1234.range * 0 / 16 < dec1234.range * 1 / 16 ∧
      dec1234.low.toNat + dec1234.range * 1 / 16 ≤ dec1234.code.toNat) ∧
    (dec1234.range * 2 / 16 < dec1234.range * 3 / 16 ∧
      dec1234.code.toNat < dec1234.low.toNat + dec1234.range * 2 / 16) := by decide +kernel

/-- One witness for each clause, at the boundary of each condition. -/
theorem witness_ModelFaultPriority :
    (models.slots.length ≤ 4 ∧ (Instr.mCum 4 (.imm 0)).slotOperand = some 4) ∧
    (models.slots[3]? = some Slot.reset ∧ Slot.reset.valid = false ∧ .slotInvalid ∈ (Instr.mTotal 3).causes) ∧
    (models.slots[0]? = some (Slot.uniform false) ∧ (Slot.uniform false).valid = true ∧
      (Instr.mCum 0 (.imm 257)).symOperand = some (.imm 257) ∧ 256 < models.symOf (.imm 257) ∧
      (Slot.uniform false).total.toNat ≤ models.freqOf (.imm 257) ∧
      (Slot.uniform false).wbt ≤ models.freqOf (.imm 512) ∧
      (Slot.uniform false).wbtEx models.excl ≤ models.freqOf (.imm 512)) :=
  ⟨by decide, ⟨rfl, rfl, by decide⟩, rfl, rfl, rfl, by decide, by decide, by decide +kernel⟩

theorem fresh_inv {th : Bool} {cnt : Table} {total uniq : Nat}
    (h : let m := Slot.fresh th cnt total uniq
      (decide (m.total.toNat = m.cumlo 257 ∧ 1 ≤ m.cntAt 256 ∧ m.cumlo 257 < 2 ^ 14 ∧ m.uniq.toNat = m.seenBytes)) = true) :
    (Slot.fresh th cnt total uniq).Inv := by
  obtain ⟨h1, h2, h3, h4⟩ := of_decide_eq_true h
  have ht := (Slot.fresh th cnt total uniq).thr_cases
  exact Slot.Inv.mk' h1 h2 (by omega) h4 (fresh_fenOk th cnt total uniq (by omega))

theorem models_slots : ∀ m ∈ models.slots, m.Inv :=
  List.forall_mem_cons.2 ⟨uniform_inv false, List.forall_mem_cons.2 ⟨fresh_inv (by decide +kernel),
    List.forall_mem_cons.2 ⟨fresh_inv (by decide +kernel), List.forall_mem_cons.2 ⟨fun h => (nomatch h), by simp⟩⟩⟩⟩

theorem models_sound : models.Sound :=
  ⟨by decide, by decide, models_slots, by decide, by decide, by decide, by decide, by decide, by decide, by decide⟩

theorem decoding0_sound : decoding0.Sound :=
  ⟨by decide, by decide, models_slots, by decide, by decide, by decide, by decide, by decide, by decide, by decide⟩

theorem excluding_sound : excluding.Sound :=
  ⟨by decide, by decide, models_slots, by decide, by decide, by decide, by decide, by decide, by decide, by decide⟩

theorem full_sound : full.Sound :=
  ⟨by decide, by decide, List.forall_mem_cons.2 ⟨fresh_inv (by decide +kernel), by simp⟩, by decide, by decide, by decide,
    by decide, by decide, by decide, by decide⟩

theorem witness_RegisterReadMap :
    (pending (.read 0x17#8) excluding).Inv ∧ (pending (.read 0x17#8) excluding).port = .read 0x17#8 :: [] ∧
    0x18 ≤ (0x18#8).toNat := ⟨⟨excluding_sound, rfl⟩, rfl, by decide⟩

theorem witness_BusyReadDeliversStatusOnly :
    (pending (.read 0x00#8) { State.reset with busy := true }).busy = true ∧
    (pending (.read 0x00#8) { State.reset with busy := true }).port = .read 0x00#8 :: [] := by decide

theorem witness_AttachAndDrain :
    (pending (.attach [0xAB#8]) dec1234).port = .attach [0xAB#8] :: [] ∧ dec1234.busy = false ∧ [0xAB#8].length < 2 ^ 32 ∧
    (pending (.attach []) { dec1234 with busy := true }).busy = true ∧
    (pending (.drain 3) dec1234).port = .drain 3 :: [] := by decide

theorem witness_ResetAction : (pending .reset (pending (.issue 0#64) faulted)).port = .reset :: [] := by decide

/-- The last byte of the source, and the cursor at its end. -/
theorem witness_SourceReadContract :
    { dec1234 with inPos := 1#32 }.inPos.toNat < dec1234.src.length ∧ dec1234.src.length ≤ dec1234.inPos.toNat ∧
    dec1234.src.length < 2 ^ 32 := by decide

theorem witness_ResetSatisfiesInvariant : 1 ≤ 1 ∧ 1 ≤ 65536 ∧ 65536 ≤ 65536 := by decide

theorem witness_EncFinishCompletes : straddle.mode = .enc := rfl

theorem witness_StepKeepsInvariant :
    (pending (.issue 0x4400000000000000#64) full).Inv ∧
    step (pending (.issue 0x4400000000000000#64) full) = .next (issued 0x4400000000000000#64 full) :=
  ⟨⟨full_sound, rfl⟩, rfl⟩

/-- Two states that are not equal. -/
theorem witness_InvalidSlotContentsUnobservable :
    { State.reset with slots := [Slot.reset] }.Alike
      { State.reset with slots := [{ Slot.uniform true with valid := false }] } :=
  ⟨rfl, .cons (.inr ⟨rfl, rfl⟩) .nil⟩

theorem witness_ResultRegisterWriters :
    exec (.mCum 1 (.imm 97)) models = .next (after (.mCum 1 (.imm 97)) models) ∧
    ResultReg.rSym ∉ (Instr.mCum 1 (.imm 97)).resultWrites ∧
    exec (.mCum 3 (.imm 97)) models = .next (after (.mCum 3 (.imm 97)) models) ∧ models.fault = false ∧
    (after (.mCum 3 (.imm 97)) models).fault = true :=
  ⟨answers _ _, by decide, answers _ _, rfl, by decide +kernel⟩

theorem witness_CoderRegisterWriters :
    exec (.rcDec (.imm 1 2 16)) dec1234 = .next (after (.rcDec (.imm 1 2 16)) dec1234) ∧
    (after (.rcDec (.imm 1 2 16)) dec1234).low ≠ dec1234.low ∧
    (after .rcDecInit dec1234).code ≠ dec1234.code ∧ (after .rcEncInit dec1234).mode ≠ dec1234.mode :=
  ⟨answers _ _, by decide +kernel, by decide +kernel, by decide +kernel⟩

theorem witness_PortAndFlagWriters :
    exec .rcEncFinish straddle = .next (after .rcEncFinish straddle) ∧ (after .rcEncFinish straddle).snk ≠ straddle.snk ∧
    (after .rcDecInit { dec1234 with inPos := 0#32 }).inPos ≠ { dec1234 with inPos := 0#32 }.inPos ∧
    (after (.mBump 0 (.imm 0)) full).rsc ≠ full.rsc ∧ (after (.exclAdd 1) models).excl ≠ models.excl :=
  ⟨answers _ _, by decide +kernel, by decide +kernel, by decide +kernel, by decide +kernel⟩

theorem witness_SlotWriters :
    exec (.mInitEsc 3 true) models = .next (after (.mInitEsc 3 true) models) ∧
    (after (.mInitEsc 3 true) models).slots[3]? ≠ models.slots[3]? :=
  ⟨answers _ _, fun h => absurd (congrArg (Option.map Slot.valid) h) (by decide +kernel)⟩

theorem witness_SFormTakesResultRegisters :
    exec (.mCum 0 .reg) models = .next (after (.mCum 0 .reg) models) ∧ models.fault = false ∧
    (after (.mCum 0 .reg) models).fault = false := ⟨answers _ _, rfl, by decide +kernel⟩

/-- The three clauses: `lo = hi`, an empty scaled interval, and the straddle's whole middle half. -/
theorem witness_NarrowContract :
    straddle.low.toNat ≤ straddle.high.toNat ∧ (4 = 0 ∨ 1 ≤ 1 ∨ 4 < 1) ∧
    straddle.range * 1 / 4 ≤ straddle.range * 0 / 4 ∧ straddle.range * 1 / 4 < straddle.range * 3 / 4 := by decide +kernel

/-- From no shared byte to four: for `EncoderRenormClosedForm`, `DecoderRenormClosedForm`, `RenormEndsUnsettled`. -/
theorem witness_RenormClosedForms :
    [(0x00FFFFFF, 0x01000000), (0x12340000, 0x12FFFFFF), (0x12345600, 0x1234FFFF), (0x12345600, 0x123456FF),
      (0x12345678, 0x12345678)].map (fun p => leadingBytes p.1 p.2) = [0, 1, 2, 3, 4] ∧
    0xFFFFFFFF < 2 ^ 32 ∧ dec1234.inPos.toNat ≤ dec1234.src.length ∧ dec1234.src.length < 2 ^ 32 := by decide

theorem witness_EmptyIntervalNeedsStraddle :
    straddle.low.toNat < straddle.high.toNat ∧ 2 ^ 24 ≤ (straddle.low ^^^ straddle.high).toNat ∧ 65535 < 2 ^ 16 ∧
    straddle.narrow 0 1 65535 = .error .emptyInterval := ⟨by decide, by decide, by decide, rfl⟩

theorem witness_EncCompletes :
    straddle.mode = .enc ∧ straddle.interval (.imm 1 3 4) = (1, 3, 4) ∧ straddle.low.toNat ≤ straddle.high.toNat ∧
    straddle.range * 1 / 4 < straddle.range * 3 / 4 ∧
    straddle.low.toNat + straddle.range * 1 / 4 = straddle.low.toNat + straddle.range * 3 / 4 - 1 ∧
    { straddle with rLo := 1#16, rHi := 3#16, rTot := 4#16 }.interval .regs = (1, 3, 4) := by decide +kernel

theorem witness_DecInitCompletes : dec1234.inPos.toNat ≤ dec1234.src.length ∧ dec1234.src.length < 2 ^ 32 := by decide

theorem witness_GetfreqCompletes :
    dec1234.mode = .dec ∧ dec1234.low.toNat ≤ dec1234.code.toNat ∧ dec1234.code.toNat ≤ dec1234.high.toNat ∧
    dec1234.totOf (.imm 65535) ≠ 0 ∧ dec1234.totOf (.imm 65535) < 2 ^ 16 ∧
    { dec1234 with rTot := 1#16 }.totOf .reg = 1 := by decide

/-- `CODE` at the lower end, and at the upper end. -/
theorem witness_DecCompletes :
    dec1234.mode = .dec ∧ dec1234.interval (.imm 1 2 16) = (1, 2, 16) ∧
    dec1234.range * 1 / 16 < dec1234.range * 2 / 16 ∧
    { dec1234 with code := 0x10000000#32 }.code.toNat = dec1234.low.toNat + dec1234.range * 1 / 16 ∧
    { dec1234 with code := 0x1FFFFFFF#32 }.code.toNat = dec1234.low.toNat + dec1234.range * 2 / 16 - 1 := by
  decide +kernel

theorem witness_DecodeAfterGetfreqNeverDesyncs :
    let t := after (.rcGetfreq (.imm 257)) dec1234
    (dec1234.mode = .dec ∧ dec1234.code.toNat ≤ dec1234.high.toNat ∧ dec1234.totOf (.imm 257) = 257) ∧
    exec (.rcGetfreq (.imm 257)) dec1234 = .next t ∧ (t.mode = .dec ∧ t.fault = false ∧ t.cause = .none) ∧
    t.interval (.imm 18 19 257) = (18, 19, 257) ∧ 18 ≤ t.rF.toNat ∧ t.rF.toNat < 19 ∧
    exec (.rcDec (.imm 18 19 257)) t = .next (after (.rcDec (.imm 18 19 257)) t) :=
  ⟨by decide, answers _ _, by decide +kernel, by decide +kernel, by decide +kernel, by decide +kernel, answers _ _⟩

theorem eq_some_getD {o : Option State} {d : State} (h : o.isSome = true) : o = some (o.getD d) := by
  cases o <;> simp_all

/-- A session of two symbols, and the decoder that has its output attached. -/
theorem witness_EncodeThenDecodeRoundTrip :
    let ivs := [(65, 66, 257), (0, 1, 65535)]
    let e := (runClean (encoding ivs) State.reset).getD State.reset
    let f := after .rcEncFinish e
    let d := { State.reset with src := f.snk }
    (∀ iv ∈ ivs, (immediate iv).wellFormed = true) ∧ runClean (encoding ivs) State.reset = some e ∧
    exec .rcEncFinish e = .next f ∧ d.src = f.snk ∧ d.inPos = 0#32 ∧ f.snk.length < 2 ^ 32 ∧
    (runClean (decoding ivs) d).isSome = true :=
  ⟨by decide, eq_some_getD (by decide +kernel), answers _ _, rfl, rfl, by decide +kernel, by decide +kernel⟩

theorem witness_DecodingNeverFaultsOnData :
    decoding0.Sound ∧ decoding0.fault = false ∧ decoding0.mode = .dec ∧
    decoding0.slots[0]? = some (Slot.uniform false) ∧ (Slot.uniform false).valid = true :=
  ⟨decoding0_sound, rfl, rfl, rfl, rfl⟩

theorem witness_InitCommandsComplete : 3 < models.slots.length ∧ models.slots[3]? = some Slot.reset := ⟨by decide, rfl⟩

/-- The escape and other symbols, in both operand forms, on a valid slot: for `CumCompletes`, `BumpCompletes`,
`ReadbackCommandsComplete`, `WbTotalsComplete`, `WbCumCompletes`, `WbCumExCompletes` and `ExclusionCommandsComplete`. -/
theorem witness_symbol_commands :
    excluding.Sound ∧ excluding.slots[0]? = some (Slot.uniform false) ∧ (Slot.uniform false).valid = true ∧
    excluding.symOf (.imm 256) ≤ 256 ∧ excluding.symOf (.imm 255) < 256 ∧ excluding.symOf .reg ≤ 256 ∧
    excluding.excl.getLsbD (excluding.symOf (.imm 97)) = true ∧
    excluding.excl.getLsbD (excluding.symOf (.imm 99)) = false ∧ (Slot.uniform false).total.toNat + 1 < (Slot.uniform false).thr :=
  ⟨excluding_sound, rfl, rfl, by decide +kernel⟩

/-- The largest frequencies the three inverse lookups take, and those at the two sides of the escape: for
`FindCompletes`, `WbFindCompletes` and `WbFindExCompletes`. -/
theorem witness_frequency_commands :
    let m := Slot.uniform false
    excluding.Sound ∧ excluding.slots[0]? = some m ∧ m.valid = true ∧
    excluding.freqOf (.imm 256) + 1 = m.total.toNat ∧ excluding.freqOf .reg < m.total.toNat ∧
    excluding.freqOf (.imm 511) + 1 = m.wbt ∧ m.sumBytes ≤ excluding.freqOf (.imm 256) ∧
    excluding.freqOf (.imm 255) < m.sumBytes ∧ excluding.freqOf (.imm 507) + 1 = m.wbtEx excluding.excl ∧
    m.sumBytesEx excluding.excl ≤ excluding.freqOf (.imm 254) ∧
    excluding.freqOf (.imm 253) < m.sumBytesEx excluding.excl :=
  ⟨excluding_sound, rfl, rfl, by decide +kernel⟩

theorem witness_BumpRescales :
    full.Sound ∧ (full.slots[0]?.any fun m => m.valid && decide (m.thr ≤ m.total.toNat + 1)) = true ∧
    full.symOf (.imm 0) ≤ 256 := ⟨full_sound, by decide +kernel, by decide⟩

theorem witness_IntervalsPartition : (Slot.uniform true).valid = true ∧ (Slot.uniform true).Inv := ⟨rfl, uniform_inv true⟩

theorem witness_EmptyMaskGivesTheWbView :
    models.Sound ∧ models.excl = 0#256 ∧ models.slots[0]? = some (Slot.uniform false) ∧
    (Slot.uniform false).valid = true ∧ models.symOf (.imm 256) ≤ 256 ∧
    models.freqOf (.imm 511) < (Slot.uniform false).wbt := ⟨models_sound, rfl, rfl, rfl, by decide +kernel⟩

end Sys2Proof.Tests
end

