-- ==== Sys2Proof/Proofs/PrefixSums.lean ====
section
/-! The prefix sums and counts of 00_scope.md R12 as finite sums and cardinalities: first of any list of counts, then
of a slot record under any mask. The unmasked `U` is the masked one with nothing excluded. -/

namespace Sys2Proof.Machine

/-! ### Lists -/

theorem prefixSum_eq_sum_range (l : List Nat) (i : Nat) :
    prefixSum l i = ∑ j ∈ Finset.range i, l.getD j 0 := by
  induction i with
  | zero => simp
  | succ i ih => rw [prefixSum_succ, Finset.sum_range_succ, ih]

theorem seen_eq_card (l : List Nat) :
    seen l = ((Finset.range l.length).filter fun j => 0 < l.getD j 0).card := by
  rw [Finset.card_filter]
  induction l with
  | nil => rfl
  | cons c l ih =>
    have hc : seen (c :: l) = seen l + if 0 < c then 1 else 0 := by simp [seen, List.countP_cons]
    rw [hc, ih, List.length_cons, Finset.sum_range_succ']
    simp only [List.getD_cons_succ, List.getD_cons_zero]

/-! ### Slot records -/

theorem Slot.cumlo_eq_sum (m : Slot) (i : Nat) : m.cumlo i = ∑ j ∈ Finset.range i, m.cntAt j :=
  prefixSum_eq_sum_range m.counts i

theorem Slot.cumloEx_eq_sum (m : Slot) (e : ExclMask) (i : Nat) :
    m.cumloEx e i = ∑ j ∈ (Finset.range i).filter fun j => j ≤ 255 ∧ e.getLsbD j = false, m.cntAt j := by
  rw [Slot.cumloEx, prefixSum_eq_sum_range, Finset.sum_filter]
  refine Finset.sum_congr rfl fun j _ => ?_
  have hbyte : j < 256 ↔ j ≤ 255 := Nat.lt_succ_iff
  simp only [Slot.openCounts_getD, hbyte]

/-- Up to the 256 bytes the bound on the index says nothing, so only the mask selects. -/
theorem Slot.sumBytesEx_eq_sum (m : Slot) (e : ExclMask) :
    m.sumBytesEx e = ∑ j ∈ (Finset.range 256).filter fun j => e.getLsbD j = false, m.cntAt j := by
  have hfilter : ((Finset.range 256).filter fun j => j ≤ 255 ∧ e.getLsbD j = false) =
      (Finset.range 256).filter fun j => e.getLsbD j = false :=
    Finset.filter_congr fun j hj => and_iff_right (Nat.le_of_lt_succ (Finset.mem_range.1 hj))
  rw [Slot.sumBytesEx, Slot.cumloEx_eq_sum, hfilter]

theorem Slot.seenBytesEx_eq_card (m : Slot) (e : ExclMask) :
    m.seenBytesEx e = ((Finset.range 256).filter fun j => 0 < m.cntAt j ∧ e.getLsbD j = false).card := by
  rw [Slot.seenBytesEx, seen_eq_card, Slot.openCounts_length]
  congr 1
  refine Finset.filter_congr fun j hj => ?_
  rw [Slot.openCounts_getD]
  cases he : e.getLsbD j <;> simp [Finset.mem_range.1 hj]

theorem Slot.seenBytes_eq_card (m : Slot) :
    m.seenBytes = ((Finset.range 256).filter fun j => 0 < m.cntAt j).card := by
  have hempty : m.seenBytes = m.seenBytesEx 0#256 := by
    rw [Slot.seenBytesEx, Slot.openCounts_empty, Slot.seenBytes]
  rw [hempty, Slot.seenBytesEx_eq_card]
  simp

/-- Settles O45: `cumlo` and `cumlo_ex` by the recursion of a prefix sum, `U` and `U_ex` by counting the entries of
the list of open counts, and `wbt`, `wbt_ex` as the model defines them. -/
theorem prefixSumsAreSums : Obligations.PrefixSumsAreSums := by
  intro m e
  exact ⟨fun i _ => m.cumlo_eq_sum i, m.cumlo_eq_sum 256, m.seenBytes_eq_card, fun i _ => m.cumloEx_eq_sum e i,
    m.sumBytesEx_eq_sum e, m.seenBytesEx_eq_card e, rfl, rfl⟩

end Sys2Proof.Machine
end

