-- ==== Sys2Proof/Proofs/Invariant.lean ====
section
/-! The invariant of the whole machine (10_state.md R27, R31, R38, R41): it holds after reset, and every step keeps it.
`Sound` says nothing of `BUSY`, the port or the deliveries, so the bracket of a step keeps it, and what is left is one
lemma for the 24 commands and one for each action of the host. -/

namespace Sys2Proof.Machine

/-! ### Reset -/

/-- An invalid slot satisfies its invariant whatever it holds. -/
theorem Slot.inv_of_invalid {m : Slot} (h : m.valid = false) : m.Inv := fun hv => by simp [h] at hv

theorem resetWith_numSlots (n : Nat) : (State.resetWith n).numSlots = n := List.length_replicate

theorem resetWith_slots_invalid {n : Nat} {m : Slot} (h : m ∈ (State.resetWith n).slots) : m.valid = false := by
  rw [List.eq_of_mem_replicate h]; rfl

theorem resetWith_sound {n : Nat} (h1 : 1 ≤ n) (h2 : n ≤ Config.maxSlots) : (State.resetWith n).Sound := by
  have hslots : ∀ m ∈ (State.resetWith n).slots, m.Inv := fun _ hm => Slot.inv_of_invalid (resetWith_slots_invalid hm)
  have hcoder : (State.resetWith n).CoderInv := ⟨fun hm => absurd rfl hm, nofun⟩
  have hfault : (State.resetWith n).fault = true → (State.resetWith n).cause ≠ .none := nofun
  refine ⟨?_, ?_, hslots, hcoder, Nat.zero_le _, Nat.le_refl _, Nat.two_pow_pos _, Nat.le_refl _,
    fun _ => ⟨rfl, rfl, rfl⟩, hfault⟩ <;> rwa [resetWith_numSlots]

/-- Settles O22: the slots are invalid, the mode is IDLE and there is no fault, so every clause that is not of a number
0 holds of nothing. -/
theorem resetSatisfiesInvariant : Obligations.ResetSatisfiesInvariant :=
  ⟨⟨resetWith_sound (by decide) (by decide), rfl⟩, fun _ h1 h2 => ⟨resetWith_sound h1 h2, rfl⟩⟩

/-! ### Commands -/

/-- Every command keeps soundness. -/
theorem exec_sound {i : Instr} {s t : State} (h : s.Sound) (e : exec i s = .next t) : t.Sound := by
  cases i with
  | nop => exact execNop_sound h e
  | fltClr => exact execFltClr_sound h e
  | rcEncInit => exact execRcEncInit_sound h e
  | rcEnc => exact execRcEnc_sound h e
  | rcEncFinish => exact execRcEncFinish_sound h e
  | rcDecInit => exact execRcDecInit_sound h e
  | rcGetfreq => exact execRcGetfreq_sound h e
  | rcDec => exact execRcDec_sound h e
  | mInitEsc => exact execMInitEsc_sound h e
  | mInitUni => exact execMInitUni_sound h e
  | mCum => exact execMCum_sound h e
  | mFind => exact execMFind_sound h e
  | mBump => exact execMBump_sound h e
  | mTotal => exact execMTotal_sound h e
  | mCnt => exact execMCnt_sound h e
  | mUniq => exact execMUniq_sound h e
  | mWbTotal => exact execMWbTotal_sound h e
  | mWbCum => exact execMWbCum_sound h e
  | mWbFind => exact execMWbFind_sound h e
  | mWbTotalEx => exact execMWbTotalEx_sound h e
  | mWbCumEx => exact execMWbCumEx_sound h e
  | mWbFindEx => exact execMWbFindEx_sound h e
  | exclClr => exact execExclClr_sound h e
  | exclAdd => exact execExclAdd_sound h e

/-- The end of the bracket: `BUSY` is not part of soundness. -/
theorem release_inv {s : State} (h : s.Sound) : s.release.Inv := ⟨h, rfl⟩

/-- The block takes a word, and whatever becomes of it, the machine is at a command boundary again (10_state.md R38). -/
theorem runCommand_inv {w : CmdWord} {s t : State} (h : s.Sound) (e : runCommand w s = .next t) : t.Inv := by
  rcases runCommand_cases w s with ⟨-, -, hr⟩ | ⟨-, ⟨i, u, -, hu, hr⟩ | ⟨d, -, hr⟩⟩ <;> cases hr.symm.trans e
  · exact release_inv h
  · exact release_inv (exec_sound h hu)
  · exact release_inv (sound_enterFault (c := .illegal) h nofun w)

/-! ### The host's other actions -/

theorem hostRead_inv {n : BitVec 8} {s t : State} (h : s.Inv) (e : hostRead n s = .next t) : t.Inv := by
  cases e; exact h

/-- Everything an attach can answer (20_memory.md R56). -/
theorem hostAttach_cases (bytes : List Byte) (s : State) :
    (∃ r, hostAttach bytes s = .refused r) ∨
      (bytes.length < 2 ^ 32 ∧ hostAttach bytes s = .next { s with src := bytes, inPos := 0#32, pend := false }) := by
  unfold hostAttach
  split
  · exact .inl ⟨_, rfl⟩
  · split
    · exact .inl ⟨_, rfl⟩
    · exact .inr ⟨by omega, rfl⟩

theorem hostAttach_inv {bytes : List Byte} {s t : State} (h : s.Inv) (e : hostAttach bytes s = .next t) : t.Inv := by
  rcases hostAttach_cases bytes s with ⟨r, hr⟩ | ⟨hlen, hr⟩ <;> cases hr.symm.trans e
  obtain ⟨⟨h1, h2, hslots, hcoder, hsym, -, -, hsnk, hclear, hfault⟩, hb⟩ := h
  exact ⟨⟨h1, h2, hslots, hcoder, hsym, Nat.zero_le _, hlen, hsnk, hclear, hfault⟩, hb⟩

theorem hostDrain_inv {n : Nat} {s t : State} (h : s.Inv) (e : hostDrain n s = .next t) : t.Inv := by
  cases e
  obtain ⟨⟨h1, h2, hslots, hcoder, hsym, hpos, hlen, hsnk, hclear, hfault⟩, hb⟩ := h
  exact ⟨⟨h1, h2, hslots, hcoder, hsym, hpos, hlen, (Nat.sub_le _ _).trans hsnk, hclear, hfault⟩, hb⟩

theorem hostReset_inv {s t : State} (h : s.Inv) (e : hostReset s = .next t) : t.Inv := by
  cases e
  obtain ⟨⟨h1, h2, -⟩, -⟩ := h
  exact ⟨resetWith_sound (n := s.numSlots) h1 h2, rfl⟩

/-! ### Every step -/

/-- Settles O23, by the action at the head of the port; a command runs on the state with the action taken, which is as
sound as the state before. -/
theorem stepKeepsInvariant : Obligations.StepKeepsInvariant := by
  intro s t h e
  cases hp : s.port with
  | nil => cases (step_empty hp).symm.trans e; exact h
  | cons a rest =>
    cases a with
    | issue w => exact runCommand_inv (s := s.accept rest) h.1 ((step_issue hp h.2).symm.trans e)
    | read n => exact hostRead_inv (s := { s with port := rest }) h ((step_read hp).symm.trans e)
    | attach bytes => exact hostAttach_inv (s := { s with port := rest }) h ((step_attach hp).symm.trans e)
    | drain n => exact hostDrain_inv (s := { s with port := rest }) h ((step_drain hp).symm.trans e)
    | reset => exact hostReset_inv (s := { s with port := rest }) h ((step_reset hp).symm.trans e)

end Sys2Proof.Machine
end

