-- ==== Sys2Proof/Proofs/Unseen.lean ====
section
/-! What no command sees (10_state.md R38, R40; 20_memory.md R56): `BUSY`, the port, the deliveries, and the contents of
invalid slots. All four are one simulation: put other values in their place, run the same command on both states, and
it answers the same but for those places. The slots on the two sides are compared by a relation `R`: with `R` equality
this says that commands do not see the port (O8), with `R` the relation `Slot.Alike` that they do not see into an
invalid slot (O24). -/

namespace Sys2Proof.Machine

/-! ### The relation -/

/-- The state with other slots, and other values in the three fields that belong to the host's side of the port. -/
def State.overlay (s : State) (l : List Slot) (p : List HostAction) (b : Bool) (r : List (BitVec 8 × Word)) : State :=
  { s with slots := l, port := p, busy := b, replies := r }

/-- A comparison of slot records under which a command cannot tell two of them apart. -/
structure Blind (R : Slot → Slot → Prop) : Prop where
  refl : ∀ m, R m m
  alike : ∀ {m n}, R m n → m.Alike n

theorem blind_eq : Blind (· = ·) := ⟨fun _ => rfl, .inl⟩

theorem blind_alike : Blind Slot.Alike := ⟨fun _ => .inl rfl, id⟩

section
variable {R : Slot → Slot → Prop} {p : List HostAction} {b : Bool} {r : List (BitVec 8 × Word)}

/-- `t` is `s` with the given values on the host's side and slots that compare with those of `s`. -/
def Mirrors (R : Slot → Slot → Prop) (p : List HostAction) (b : Bool) (r : List (BitVec 8 × Word)) (s t : State) :
    Prop :=
  ∃ l, t = s.overlay l p b r ∧ List.Forall₂ R s.slots l

/-- Two bodies of a command answer the same: the same fault, or states of which one mirrors the other. -/
inductive BodyMirrors (R : Slot → Slot → Prop) (p : List HostAction) (b : Bool) (r : List (BitVec 8 × Word)) :
    Except Cause State → Except Cause State → Prop
  | ok {u v : State} (h : Mirrors R p b r u v) : BodyMirrors R p b r (.ok u) (.ok v)
  | error (c : Cause) : BodyMirrors R p b r (.error c) (.error c)

/-- Two commands answer the same: next states of which one mirrors the other. -/
def OutMirrors (R : Slot → Slot → Prop) (p : List HostAction) (b : Bool) (r : List (BitVec 8 × Word)) (o q : Out) :
    Prop :=
  ∃ u v, o = .next u ∧ q = .next v ∧ Mirrors R p b r u v

/-! ### Bodies -/

/-- A command ends the same way on both sides; a fault enters only fields that the two sides share. -/
theorem settle_mirrors {s t : State} {i : Instr} {x y : Except Cause State} (h : Mirrors R p b r s t)
    (hxy : BodyMirrors R p b r x y) : OutMirrors R p b r (s.settle i x) (t.settle i y) := by
  cases hxy with
  | ok h => exact ⟨_, _, rfl, rfl, h⟩
  | error c =>
    obtain ⟨l, rfl, hl⟩ := h
    exact ⟨_, _, rfl, rfl, l, rfl, hl⟩

theorem BodyMirrors.bind {α : Type} (x : Except Cause α) {f g : α → Except Cause State}
    (h : ∀ a, BodyMirrors R p b r (f a) (g a)) : BodyMirrors R p b r (x >>= f) (x >>= g) := by
  cases x with
  | ok a => exact h a
  | error c => exact .error c

theorem BodyMirrors.ite {P : Prop} [Decidable P] {x x' y y' : Except Cause State} (hx : BodyMirrors R p b r x x')
    (hy : BodyMirrors R p b r y y') : BodyMirrors R p b r (if P then x else y) (if P then x' else y') := by
  split
  · exact hx
  · exact hy

/-! ### Slots -/

/-- Lists that compare entry by entry have comparable entries at every index, or none. -/
theorem lookup_of_forall₂ {l l' : List Slot} (h : List.Forall₂ R l l') (k : Nat) :
    (l[k]? = none ∧ l'[k]? = none) ∨ ∃ m n, l[k]? = some m ∧ l'[k]? = some n ∧ R m n := by
  induction h generalizing k with
  | nil => exact .inl ⟨rfl, rfl⟩
  | cons hmn _ ih =>
    cases k with
    | zero => exact .inr ⟨_, _, rfl, rfl, hmn⟩
    | succ k => exact ih k

theorem set_forall₂ {l l' : List Slot} (h : List.Forall₂ R l l') (k : Nat) {m n : Slot} (hmn : R m n) :
    List.Forall₂ R (l.set k m) (l'.set k n) := by
  induction h generalizing k with
  | nil => exact .nil
  | cons hab htl ih =>
    cases k with
    | zero => exact .cons hmn htl
    | succ k => exact .cons hab (ih k)

/-- The slot check of a command that needs a valid slot answers the same record on both sides. -/
theorem getSlot_overlay (hR : Blind R) {s : State} {l : List Slot} (hl : List.Forall₂ R s.slots l) (k : Nat) :
    (s.overlay l p b r).getSlot k true = s.getSlot k true := by
  have ht : (s.overlay l p b r).slots = l := rfl
  unfold State.getSlot
  rw [ht]
  rcases lookup_of_forall₂ hl k with ⟨h1, h2⟩ | ⟨m, n, h1, h2, hmn⟩ <;> rw [h1, h2]
  rcases hR.alike hmn with rfl | ⟨hm, hn⟩
  · rfl
  · simp [hm, hn]

/-- The slot check of an init command answers the same fault, if it answers one. -/
theorem init_mirrors (hR : Blind R) {s : State} {l : List Slot} (hl : List.Forall₂ R s.slots l) (k : Nat) (m : Slot) :
    BodyMirrors R p b r (s.getSlot k false >>= fun _ => .ok (s.putSlot k m))
      ((s.overlay l p b r).getSlot k false >>= fun _ => .ok ((s.overlay l p b r).putSlot k m)) := by
  have ht : (s.overlay l p b r).slots = l := rfl
  unfold State.getSlot
  rw [ht]
  rcases lookup_of_forall₂ hl k with ⟨h1, h2⟩ | ⟨_, _, h1, h2, -⟩ <;> rw [h1, h2]
  · exact .error .badSlot
  · exact .ok ⟨l.set k m, rfl, set_forall₂ hl k (hR.refl m)⟩

/-- A command that needs a valid slot: the rest of its body runs on the same record. -/
theorem slot_mirrors (hR : Blind R) {s : State} {l : List Slot} (hl : List.Forall₂ R s.slots l) {i : Instr} {k : Nat}
    {f g : Slot → Except Cause State} (h : ∀ m, BodyMirrors R p b r (f m) (g m)) :
    OutMirrors R p b r (s.settle i (s.getSlot k true >>= f))
      ((s.overlay l p b r).settle i ((s.overlay l p b r).getSlot k true >>= g)) := by
  rw [getSlot_overlay hR hl]
  exact settle_mirrors ⟨l, rfl, hl⟩ (.bind _ h)

/-! ### The coder -/

theorem shiftCode_overlay (s : State) (l : List Slot) :
    (s.overlay l p b r).shiftCode = s.shiftCode.overlay l p b r := by
  have hsrc : (s.overlay l p b r).src = s.src := rfl
  have hpos : (s.overlay l p b r).inPos = s.inPos := rfl
  unfold State.shiftCode State.srcGet
  rw [hsrc, hpos]
  cases s.src[s.inPos.toNat]? <;> rfl

theorem shiftOut_overlay (s : State) (l : List Slot) (dec : Bool) :
    (s.overlay l p b r).shiftOut dec = (s.shiftOut dec).overlay l p b r := by
  cases dec with
  | false => rfl
  | true => exact shiftCode_overlay { s with low := shl8 s.low, high := shl8 s.high + 0xFF#32 } l

theorem renorm_overlay (s : State) (l : List Slot) (dec : Bool) :
    (s.overlay l p b r).renorm dec = (s.renorm dec).overlay l p b r := by
  have loop : ∀ (fuel : Nat) (s : State),
      State.renormLoop dec fuel (s.overlay l p b r) = (State.renormLoop dec fuel s).overlay l p b r := by
    intro fuel
    induction fuel with
    | zero => exact fun _ => rfl
    | succ fuel ih =>
      intro s
      have hsettled : (s.overlay l p b r).settled = s.settled := rfl
      unfold State.renormLoop
      rw [hsettled, shiftOut_overlay, ih]
      split <;> rfl
  exact loop 4 s

theorem renorm_slots (s : State) (dec : Bool) : (s.renorm dec).slots = s.slots := by
  cases dec with
  | false => rw [(renorm_enc_frame s).1]
  | true => rw [renorm_dec_frame s]

/-! ### Writes -/

/-- An update that writes no slot and takes no notice of what is overlaid keeps the mirror. -/
theorem Mirrors.map {s t : State} (f : State → State) (h : Mirrors R p b r s t)
    (hf : ∀ (s : State) (l : List Slot), f (s.overlay l p b r) = (f s).overlay l p b r)
    (hslots : ∀ s : State, (f s).slots = s.slots) : Mirrors R p b r (f s) (f t) := by
  obtain ⟨l, rfl, hl⟩ := h
  exact ⟨l, hf s l, by rwa [hslots]⟩

section
variable {s t : State} (h : Mirrors R p b r s t)
include h

theorem snkPut_mirrors (byte : Byte) : Mirrors R p b r (s.snkPut byte) (t.snkPut byte) :=
  h.map (·.snkPut byte) (fun _ _ => rfl) fun _ => rfl

theorem setMode_mirrors (m : Mode) : Mirrors R p b r (s.setMode m) (t.setMode m) :=
  h.map (·.setMode m) (fun _ _ => rfl) fun _ => rfl

theorem setCoder_mirrors (lo hi : Nat) : Mirrors R p b r (s.setCoder lo hi) (t.setCoder lo hi) :=
  h.map (·.setCoder lo hi) (fun _ _ => rfl) fun _ => rfl

theorem setSym_mirrors (sym : Nat) : Mirrors R p b r (s.setSym sym) (t.setSym sym) :=
  h.map (·.setSym sym) (fun _ _ => rfl) fun _ => rfl

theorem setInterval_mirrors (lo hi tot : Nat) :
    Mirrors R p b r (s.setInterval lo hi tot) (t.setInterval lo hi tot) :=
  h.map (·.setInterval lo hi tot) (fun _ _ => rfl) fun _ => rfl

theorem shiftCode_mirrors : Mirrors R p b r s.shiftCode t.shiftCode := h.map _ shiftCode_overlay shiftCode_slots

theorem renorm_mirrors (dec : Bool) : Mirrors R p b r (s.renorm dec) (t.renorm dec) :=
  h.map (·.renorm dec) (fun s l => renorm_overlay s l dec) fun s => renorm_slots s dec

end

/-! ### All commands -/

/-- A command answers the same on both sides. -/
theorem exec_mirrors (hR : Blind R) {s t : State} (h : Mirrors R p b r s t) (i : Instr) :
    OutMirrors R p b r (exec i s) (exec i t) := by
  obtain ⟨l, rfl, hl⟩ := h
  have hst : Mirrors R p b r s (s.overlay l p b r) := ⟨l, rfl, hl⟩
  cases i with
  | nop | fltClr | rcEncInit | exclClr => exact ⟨_, _, rfl, rfl, l, rfl, hl⟩
  | rcDecInit =>
    exact ⟨_, _, rfl, rfl, shiftCode_mirrors (shiftCode_mirrors (shiftCode_mirrors (shiftCode_mirrors ⟨l, rfl, hl⟩)))⟩
  | rcEncFinish =>
    exact settle_mirrors hst (.bind (s.needMode .enc) fun _ => .ok (setMode_mirrors (snkPut_mirrors (snkPut_mirrors
      (snkPut_mirrors (snkPut_mirrors hst _) _) _) _) _))
  | rcGetfreq o =>
    exact settle_mirrors hst (.bind (s.needMode .dec) fun _ => .ite (.error _) (.ok ⟨l, rfl, hl⟩))
  | rcEnc iv =>
    exact settle_mirrors hst (.bind (s.needMode .enc) fun _ =>
      .bind (s.narrow (s.interval iv).1 (s.interval iv).2.1 (s.interval iv).2.2) fun _ =>
        .ok (renorm_mirrors (setCoder_mirrors hst _ _) false))
  | rcDec iv =>
    exact settle_mirrors hst (.bind (s.needMode .dec) fun _ =>
      .bind (s.narrow (s.interval iv).1 (s.interval iv).2.1 (s.interval iv).2.2) fun _ =>
        .ite (.error _) (.ok (renorm_mirrors (setCoder_mirrors hst _ _) true)))
  | mInitEsc | mInitUni => exact settle_mirrors hst (init_mirrors hR hl _ _)
  | mTotal | mUniq | mWbTotal | mWbTotalEx | exclAdd => exact slot_mirrors hR hl fun _ => .ok ⟨l, rfl, hl⟩
  | mCum _ o | mCnt _ o => exact slot_mirrors hR hl fun _ => .bind (s.getSym o) fun _ => .ok ⟨l, rfl, hl⟩
  | mBump k o =>
    exact slot_mirrors hR hl fun m => .bind (s.getSym o) fun sym =>
      .ok ⟨l.set k (m.bump sym).1, rfl, set_forall₂ hl k (hR.refl _)⟩
  | mWbCum _ o =>
    exact slot_mirrors hR hl fun _ => .bind (s.getSym o) fun _ => .ite (.ok ⟨l, rfl, hl⟩) (.ok ⟨l, rfl, hl⟩)
  | mWbCumEx _ o =>
    exact slot_mirrors hR hl fun _ => .bind (s.getSym o) fun _ =>
      .ite (.ok ⟨l, rfl, hl⟩) (.ite (.ok ⟨l, rfl, hl⟩) (.ok ⟨l, rfl, hl⟩))
  | mFind =>
    exact slot_mirrors hR hl fun _ => .ite (.error _) (.ok (setInterval_mirrors (setSym_mirrors hst _) _ _ _))
  | mWbFind | mWbFindEx =>
    exact slot_mirrors hR hl fun _ => .ite (.error _) (.ite (.ok (setInterval_mirrors (setSym_mirrors hst _) _ _ _))
      (.ok (setInterval_mirrors (setSym_mirrors hst _) _ _ _)))

end

/-! ### The host's side of the port -/

/-- With equal slots the mirror is one state: the other values are carried through the command. -/
theorem exec_overlay {i : Instr} {s t : State} (e : exec i s = .next t) (p : List HostAction) (b : Bool)
    (r : List (BitVec 8 × Word)) : exec i (s.overlay s.slots p b r) = .next (t.overlay t.slots p b r) := by
  have h : Mirrors (· = ·) p b r s (s.overlay s.slots p b r) := ⟨s.slots, rfl, List.forall₂_same.2 fun _ _ => rfl⟩
  obtain ⟨u, v, hu, hv, l, hl, hslots⟩ := exec_mirrors blind_eq h i
  cases e.symm.trans hu
  rw [List.forall₂_eq_eq_eq] at hslots
  rw [hv, hl, hslots]

/-- A command leaves the port, `BUSY` and the deliveries alone: its own values are carried through like any other. -/
theorem exec_host_frame {i : Instr} {s t : State} (e : exec i s = .next t) :
    t.port = s.port ∧ t.busy = s.busy ∧ t.replies = s.replies := by
  have h : t = t.overlay t.slots s.port s.busy s.replies :=
    Host.Outcome.next.inj (e.symm.trans (exec_overlay e s.port s.busy s.replies))
  rw [h]
  exact ⟨rfl, rfl, rfl⟩

/-- Settles O8, by the simulation with equal slots. -/
theorem commandsDoNotSeeThePort : Obligations.CommandsDoNotSeeThePort := by
  intro i s t e
  obtain ⟨hport, hbusy, hreplies⟩ := exec_host_frame e
  exact ⟨hport, hbusy, hreplies, exec_overlay e⟩

/-! ### The contents of invalid slots -/

/-- States that differ in invalid slots only mirror each other with the host's side unchanged. -/
theorem alike_iff_mirrors {s t : State} : s.Alike t ↔ Mirrors Slot.Alike s.port s.busy s.replies s t := by
  constructor
  · rintro ⟨hrest, hslots⟩
    have ht : { s with slots := t.slots } = t := congrArg (fun u : State => { u with slots := t.slots }) hrest
    exact ⟨t.slots, ht.symm, hslots⟩
  · rintro ⟨l, rfl, hl⟩
    exact ⟨rfl, hl⟩

theorem alike_of_eq {s t : State} (h : s = t) : s.Alike t :=
  h ▸ ⟨rfl, List.forall₂_same.2 fun _ _ => .inl rfl⟩

/-- A command takes alike states to alike states. -/
theorem exec_alike {s t : State} (h : s.Alike t) (i : Instr) :
    ∃ u v, exec i s = .next u ∧ exec i t = .next v ∧ u.Alike v := by
  obtain ⟨u, v, hu, hv, huv⟩ := exec_mirrors blind_alike (alike_iff_mirrors.1 h) i
  obtain ⟨hport, hbusy, hreplies⟩ := exec_host_frame hu
  rw [← hport, ← hbusy, ← hreplies] at huv
  exact ⟨u, v, hu, hv, alike_iff_mirrors.2 huv⟩

/-- The number of slots is no content of a slot. -/
theorem numSlots_alike {s t : State} (h : s.Alike t) : t.numSlots = s.numSlots := h.2.length_eq.symm

section
variable {s t : State} (h : s.Alike t)
include h

theorem runCommand_alike (w : CmdWord) : Out.Alike (runCommand w s) (runCommand w t) := by
  obtain ⟨l, ht, hl⟩ := alike_iff_mirrors.1 h
  have hreceive : t.receive w = s.receive w := by rw [ht]; rfl
  unfold runCommand
  rw [hreceive]
  cases s.receive w with
  | discard => rw [ht]; exact ⟨rfl, hl⟩
  | illegal => rw [ht]; exact ⟨rfl, hl⟩
  | run i =>
    obtain ⟨u, v, hu, hv, huv⟩ := exec_alike h i
    obtain ⟨l', hv', hl'⟩ := alike_iff_mirrors.1 huv
    dsimp only
    rw [hu, hv, hv']
    exact ⟨rfl, hl'⟩

/-- A read delivers the same from alike states: only PARAM looks at the slots, and reads their number. -/
theorem readPort_alike (n : BitVec 8) : t.readPort n = s.readPort n := by
  obtain ⟨l, ht, -⟩ := alike_iff_mirrors.1 h
  have hregister : t.register n = s.register n := by
    unfold State.register
    rw [numSlots_alike h, ht]
    rfl
  unfold State.readPort
  rw [hregister, ht]
  rfl

theorem hostRead_alike (n : BitVec 8) : Out.Alike (hostRead n s) (hostRead n t) := by
  obtain ⟨l, ht, hl⟩ := alike_iff_mirrors.1 h
  unfold hostRead
  rw [readPort_alike h, ht]
  exact ⟨rfl, hl⟩

theorem hostAttach_alike (bytes : List Byte) : Out.Alike (hostAttach bytes s) (hostAttach bytes t) := by
  obtain ⟨l, ht, hl⟩ := alike_iff_mirrors.1 h
  have hbusy : t.busy = s.busy := by rw [ht]; rfl
  unfold hostAttach
  rw [hbusy]
  split
  · rfl
  · split
    · rfl
    · rw [ht]; exact ⟨rfl, hl⟩

theorem hostDrain_alike (n : Nat) : Out.Alike (hostDrain n s) (hostDrain n t) := by
  obtain ⟨l, rfl, hl⟩ := alike_iff_mirrors.1 h
  exact ⟨rfl, hl⟩

/-- A reset leaves the same state: it takes the number of slots from the state and the host's side of the port. -/
theorem hostReset_alike : Out.Alike (hostReset s) (hostReset t) := by
  obtain ⟨l, ht, -⟩ := alike_iff_mirrors.1 h
  unfold hostReset
  rw [numSlots_alike h, ht]
  exact alike_of_eq rfl

end

/-- Settles O24, by the action at the head of the port: a command by the simulation with alike slots. -/
theorem invalidSlotContentsUnobservable : Obligations.InvalidSlotContentsUnobservable := by
  intro s t h
  obtain ⟨l, ht, hl⟩ := alike_iff_mirrors.1 h
  have hport : t.port = s.port := by rw [ht]; rfl
  have hbusy : t.busy = s.busy := by rw [ht]; rfl
  have htaken : ∀ rest, ({ s with port := rest } : State).Alike { t with port := rest } :=
    fun rest => by rw [ht]; exact ⟨rfl, hl⟩
  have haccept : ∀ rest, (s.accept rest).Alike (t.accept rest) := fun rest => by rw [ht]; exact ⟨rfl, hl⟩
  cases hp : s.port with
  | nil => rw [step_empty hp, step_empty (hport.trans hp)]; exact h
  | cons a rest =>
    have hp' := hport.trans hp
    cases a with
    | issue w =>
      cases hb : s.busy with
      | true => rw [step_wait hp hb, step_wait hp' (hbusy.trans hb)]; exact h
      | false => rw [step_issue hp hb, step_issue hp' (hbusy.trans hb)]; exact runCommand_alike (haccept rest) w
    | read n => rw [step_read hp, step_read hp']; exact hostRead_alike (htaken rest) n
    | attach bytes => rw [step_attach hp, step_attach hp']; exact hostAttach_alike (htaken rest) bytes
    | drain n => rw [step_drain hp, step_drain hp']; exact hostDrain_alike (htaken rest) n
    | reset => rw [step_reset hp, step_reset hp']; exact hostReset_alike (htaken rest)

end Sys2Proof.Machine
end

