-- ==== Sys2Proof/Proofs/Writers.lean ====
section
/-! Which command may write what (10_state.md R23, R25, R26, R28, R30, R32): every statement here is read off `Effect`,
the list of the fields each command writes. A fault entry writes none of them. -/

namespace Sys2Proof.Machine

/-! ### Result registers (10_state.md R23) -/

@[simp] theorem enterFault_result (s : State) (c : Cause) (w : CmdWord) (r : ResultReg) :
    (s.enterFault c w).result r = s.result r := by cases r <;> rfl

/-- A result register outside the command's row keeps its value. -/
theorem effect_result {i : Instr} {s t : State} {r : ResultReg} (h : Effect i s t) (hr : r ∉ i.resultWrites) :
    t.result r = s.result r := by
  cases i with
  | nop => rw [h]
  | fltClr | rcEncInit | rcDecInit | rcDec | exclClr | exclAdd => rw [h]; cases r <;> rfl
  | rcEnc | rcEncFinish => rw [h.1]; cases r <;> rfl
  | mInitEsc | mInitUni | mBump => obtain ⟨m, ht⟩ := h; rw [ht]; cases r <;> rfl
  | rcGetfreq =>
    rw [h]
    cases r with
    | rF => simp [Instr.resultWrites] at hr
    | rLo | rHi | rTot | rSym | rCnt => rfl
  | mCum | mWbCum | mWbCumEx =>
    rw [h]
    cases r with
    | rLo | rHi | rTot => simp [Instr.resultWrites] at hr
    | rSym | rF | rCnt => rfl
  | mFind | mWbFind | mWbFindEx =>
    rw [h]
    cases r with
    | rLo | rHi | rTot | rSym => simp [Instr.resultWrites] at hr
    | rF | rCnt => rfl
  | mTotal | mWbTotal | mWbTotalEx =>
    rw [h]
    cases r with
    | rTot => simp [Instr.resultWrites] at hr
    | rLo | rHi | rSym | rF | rCnt => rfl
  | mCnt | mUniq =>
    rw [h]
    cases r with
    | rCnt => simp [Instr.resultWrites] at hr
    | rLo | rHi | rTot | rSym | rF => rfl

/-- A command that completes raises no fault. -/
theorem effect_fault {i : Instr} {s t : State} (h : Effect i s t) (hs : s.fault = false) : t.fault = false := by
  cases i with
  | fltClr => rw [h]; rfl
  | rcEnc | rcEncFinish => rw [h.1]; exact hs
  | mInitEsc | mInitUni | mBump => obtain ⟨m, ht⟩ := h; rw [ht]; exact hs
  | _ => rw [h]; exact hs

/-- Settles O25: a faulting command writes the fault record only, and one that completes writes its row. -/
theorem resultRegisterWriters : Obligations.ResultRegisterWriters := by
  intro i s t r e
  rcases exec_effect e with ⟨c, -, rfl⟩ | h
  · exact ⟨fun _ => enterFault_result s c _ r, fun _ _ => enterFault_result s c _ r⟩
  · refine ⟨effect_result h, fun hs ht => ?_⟩
    rw [effect_fault h hs] at ht
    exact absurd ht (by decide)

/-! ### Coder registers (10_state.md R25, R26) -/

/-- Settles O26: of the commands that complete, four write the interval, two of them `CODE`, and three `MODE`. -/
theorem coderRegisterWriters : Obligations.CoderRegisterWriters := by
  intro i s t e
  rcases exec_effect e with ⟨c, -, rfl⟩ | h
  · simp
  · cases i with
    | rcEncInit | rcDecInit | rcDec => rw [h]; simp
    | rcEnc | rcEncFinish => rw [h.1]; simp
    | mInitEsc | mInitUni | mBump => obtain ⟨m, ht⟩ := h; rw [ht]; simp
    | _ => rw [h]; simp

/-! ### Ports and flags (10_state.md R28, R32; 20_memory.md R51, R54) -/

/-- Settles O27. The bytes that join the sink are those `Effect` gives for `RC_ENC` and the flush. -/
theorem portAndFlagWriters : Obligations.PortAndFlagWriters := by
  intro i s t e
  rcases exec_effect e with ⟨c, -, rfl⟩ | h
  · simp
  · cases i with
    | rcEnc | rcEncFinish =>
      obtain ⟨ht, bs, hlen, hsnk⟩ := h
      refine ⟨by rw [ht], by rw [ht]; simp, fun _ => .inr ⟨by simp, bs, hsnk, hlen⟩, by rw [ht]; simp, by rw [ht]; simp⟩
    | rcEncInit | rcDecInit | rcDec => rw [h]; simp
    | mInitEsc | mInitUni | mBump => obtain ⟨m, ht⟩ := h; rw [ht]; simp
    | _ => rw [h]; simp

/-! ### Slots (10_state.md R30, 20_memory.md R62) -/

/-- A store with one record replaced differs in that record at most. -/
theorem eq_of_getElem?_set_ne {l : List Slot} {k j : Nat} {m : Slot} (h : (l.set k m)[j]? ≠ l[j]?) : k = j := by
  by_contra hne
  exact h (List.getElem?_set_ne hne)

/-- Settles O28: two init commands and `M_BUMP` set the slot they name, and the others leave the store as it is. -/
theorem slotWriters : Obligations.SlotWriters := by
  intro i s t e
  rcases exec_effect e with ⟨c, -, rfl⟩ | h
  · simp
  · cases i with
    | mInitEsc k | mInitUni k | mBump k =>
      obtain ⟨m, ht⟩ := h
      have hslots : t.slots = s.slots.set k m := by rw [ht]
      rw [hslots]
      exact ⟨List.length_set, fun j hj => congrArg some (eq_of_getElem?_set_ne hj)⟩
    | rcEnc | rcEncFinish => rw [h.1]; simp
    | _ => rw [h]; simp

end Sys2Proof.Machine
end

