-- ==== Sys2Proof/Proofs/Registers.lean ====
section
/-! The registers the host reads (10_state.md R26, R29, R36, R37), their values after reset (R40), and the step that runs
an issued command (20_memory.md R56). -/

namespace Sys2Proof.Machine

/-! ### The issued command -/

/-- A legal word that is not discarded reaches `exec`. -/
theorem receive_run {s : State} {w : CmdWord} {i : Instr} (h : s.fault = false ∨ acceptedInFault w = true)
    (hd : decode w = .ok i) : s.receive w = .run i := by
  unfold State.receive
  rw [if_neg (by rcases h with h | h <;> simp [h]), hd]

theorem acceptedInFault_iff (w : CmdWord) :
    acceptedInFault w = true ↔ w = 0x0000000000000000#64 ∨ w = 0x0100000000000000#64 := by
  simp [acceptedInFault]

/-- Settles O7: the port takes the word into `exec`, and the bracket of the step clears `BUSY`. -/
theorem stepRunsTheIssuedCommand : Obligations.StepRunsTheIssuedCommand := by
  intro s w rest i hport hbusy haccepted hdecode
  obtain ⟨t, ht⟩ := exec_next i (s.accept rest)
  have hreceive : (s.accept rest).receive w = .run i :=
    receive_run (haccepted.imp_right (acceptedInFault_iff w).2) hdecode
  have hrun : runCommand w (s.accept rest) = completed (exec i (s.accept rest)) := by
    unfold runCommand
    rw [hreceive]
  refine ⟨t, ht, ?_⟩
  rw [step_issue hport hbusy, hrun, ht]
  rfl

/-! ### STATUS (10_state.md R29) -/

/-- A run of bits of a word, as a number. -/
theorem extract_toNat {w : Nat} (x : BitVec w) (lo len : Nat) :
    (x.extractLsb' lo len).toNat = x.toNat / 2 ^ lo % 2 ^ len := by
  rw [BitVec.extractLsb'_toNat, Nat.shiftRight_eq_div_pow]

theorem status_bit (s : State) (k : Nat) : s.status.getLsbD k = decide (s.status.toNat / 2 ^ k % 2 = 1) := by
  rw [← BitVec.testBit_toNat, Nat.testBit_eq_decide_div_mod_eq]

theorem decide_toNat_eq_one (b : Bool) : decide (b.toNat = 1) = b := by cases b <;> rfl

/-- Settles O16: STATUS as a number is the sum of its fields, each below the weight of the next. -/
theorem statusFields : Obligations.StatusFields := by
  intro s
  have hsum := status_toNat s
  have hrsc := s.rsc.toNat_le
  have hpend := s.pend.toNat_le
  have hfault := s.fault.toNat_le
  have hbusy := s.busy.toNat_le
  have hmode := s.mode.bits.isLt
  have hcause := s.cause.bits.isLt
  have hfopc := s.fopc.isLt
  refine ⟨?_, ?_, ?_, ?_, ?_, ?_, ?_, ?_, ?_⟩
  · rw [status_bit, ← decide_toNat_eq_one s.busy]
    exact decide_eq_decide.2 (by omega)
  · rw [status_bit, ← decide_toNat_eq_one s.fault]
    exact decide_eq_decide.2 (by omega)
  · have h : (s.status.extractLsb' 2 2).toNat = s.mode.bits.toNat := by rw [extract_toNat]; omega
    rw [h]
    cases s.mode <;> rfl
  · rw [status_bit, ← decide_toNat_eq_one s.pend]
    exact decide_eq_decide.2 (by omega)
  · rw [status_bit, ← decide_toNat_eq_one s.rsc]
    exact decide_eq_decide.2 (by omega)
  · exact BitVec.eq_of_toNat_eq (by rw [extract_toNat, BitVec.toNat_ofNat]; omega)
  · have h : (s.status.extractLsb' 8 8).toNat = s.cause.bits.toNat := by rw [extract_toNat]; omega
    rw [h]
    cases s.cause <;> rfl
  · exact BitVec.eq_of_toNat_eq (by rw [extract_toNat]; omega)
  · exact BitVec.eq_of_toNat_eq (by rw [extract_toNat, BitVec.toNat_ofNat]; omega)

/-! ### The register map (10_state.md R36, R37) -/

/-- Numbers from 0x18 on are reserved and read 0. -/
theorem register_reserved (s : State) {n : BitVec 8} (h : 0x18 ≤ n.toNat) : s.register n = 0#32 := by
  unfold State.register
  split
  case h_17 => exact if_neg (by omega)
  all_goals omega

/-- Numbers 0x10 to 0x17 read the exclusion mask, 32 bits each. -/
theorem register_excl (s : State) {k : Nat} (h : k < 8) : s.register (BitVec.ofNat 8 (0x10 + k)) = s.exclWord k := by
  interval_cases k <;> rfl

theorem exclWord_getLsbD (s : State) (k : Nat) {j : Nat} (h : j < 32) :
    (s.exclWord k).getLsbD j = s.excl.getLsbD (32 * k + j) := by
  simp [State.exclWord, h]

/-- A register of at most 32 bits is read with zeros above it. -/
theorem extended_toNat {w : Nat} (x : BitVec w) (h : w ≤ 32) : (x.setWidth 32).toNat = x.toNat :=
  BitVec.toNat_setWidth_of_le h

theorem word_toNat {n : Nat} (h : n < 2 ^ 32) : (BitVec.ofNat 32 n).toNat = n := Nat.mod_eq_of_lt h

/-- Settles O15: outside the bracket of a command a read delivers the register, and the register map is evaluated at
each number. That the source and the slots fit a word is the invariant's. -/
theorem registerReadMap : Obligations.RegisterReadMap := by
  intro s n rest hinv hport
  obtain ⟨⟨-, hslots, -, -, -, -, hsrc, -⟩, hbusy⟩ := hinv
  have hread : step s = .next { s with port := rest, replies := s.replies ++ [(n, s.register n)] } := by
    have hdelivered : ({ s with port := rest } : State).readPort n = s.register n := readPort_idle hbusy n
    rw [step_read hport, hostRead, hdelivered]
  refine ⟨s.register n, hread, ?_, ?_, ?_, ?_, ?_, ?_, ?_, ?_, ?_, ?_, ?_, ?_, ?_, ?_, ?_, ?_, ?_, register_reserved s⟩
  · rintro rfl; rfl
  · rintro rfl; rfl
  · rintro rfl; rfl
  · rintro rfl; rfl
  · rintro rfl; exact extended_toNat s.rLo (by decide)
  · rintro rfl; exact extended_toNat s.rHi (by decide)
  · rintro rfl; exact extended_toNat s.rTot (by decide)
  · rintro rfl; exact extended_toNat s.rSym (by decide)
  · rintro rfl; exact extended_toNat s.rF (by decide)
  · rintro rfl; exact extended_toNat s.rCnt (by decide)
  · rintro rfl; exact BitVec.toNat_ofNat s.snk.length 32
  · rintro rfl; rfl
  · rintro rfl; exact word_toNat hsrc
  · rintro rfl; exact word_toNat (hslots.trans_lt (by decide))
  · rintro rfl; exact (extract_toNat s.fcmd 0 32).trans (by rw [pow_zero, Nat.div_one])
  · rintro rfl; exact (extract_toNat s.fcmd 32 32).trans (by have := s.fcmd.isLt; omega)
  · rintro k hk rfl j hj; rw [register_excl s hk, exclWord_getLsbD s k hj]

/-! ### Reset (10_state.md R40) -/

/-- Settles O20: every field as `State.resetWith` has it. -/
theorem resetValues : Obligations.ResetValues := by
  have hresults : ∀ r, State.reset.result r = 0 := fun r => by cases r <;> rfl
  exact ⟨rfl, rfl, rfl, rfl, hresults, rfl, rfl, rfl, rfl, rfl, rfl, rfl, resetWith_numSlots Config.resetSlots,
    fun _ => resetWith_slots_invalid, rfl, rfl, rfl, rfl, rfl, rfl, rfl⟩

end Sys2Proof.Machine
end

/-! The byte ports and the host's side of them (20_memory.md R52, R55, R56): what an attach and a drain answer, and what
`SrcGet` does on each side of the end of the source. -/

namespace Sys2Proof.Machine

/-! ### Attach and drain (20_memory.md R55, R56) -/

theorem hostAttach_busy (bytes : List Byte) {s : State} (hbusy : s.busy = true) :
    hostAttach bytes s = .refused .attachWhileBusy := if_pos hbusy

theorem hostAttach_idle {bytes : List Byte} {s : State} (hbusy : s.busy = false) (hlen : bytes.length < 2 ^ 32) :
    hostAttach bytes s = .next { s with src := bytes, inPos := 0#32, pend := false } := by
  rw [hostAttach, if_neg (by simp [hbusy]), if_neg (Nat.not_le.2 hlen)]

/-- Settles O18: taking the action off the port leaves `BUSY` as it is, so what the step does is what the attach, busy
or not, and the drain do on the state with the action taken. -/
theorem attachAndDrain : Obligations.AttachAndDrain := by
  intro s bytes n rest
  refine ⟨fun hport hbusy hlen => ?_, fun hport hbusy => ?_, fun hport => ?_⟩
  · exact (step_attach hport).trans (hostAttach_idle (s := { s with port := rest }) hbusy hlen)
  · exact (step_attach hport).trans (hostAttach_busy bytes (s := { s with port := rest }) hbusy)
  · exact step_drain hport

/-! ### `SrcGet` on each side of the end (20_memory.md R52) -/

theorem srcGet_inside {s : State} (h : s.inPos.toNat < s.src.length) :
    s.srcGet = (s.src[s.inPos.toNat], { s with inPos := s.inPos + 1#32 }) := by
  rw [State.srcGet, List.getElem?_eq_getElem h]

theorem srcGet_past_end {s : State} (h : s.src.length ≤ s.inPos.toNat) :
    s.srcGet = (0#8, { s with pend := true }) := by
  rw [State.srcGet, List.getElem?_eq_none h]

/-- A cursor inside a source that R33 allows does not wrap when it advances (10_state.md R33). -/
theorem cursor_succ_toNat {s : State} (h : s.inPos.toNat < s.src.length) (hlen : s.src.length < 2 ^ 32) :
    (s.inPos + 1#32).toNat = s.inPos.toNat + 1 := by
  have hcursor := cursor_toNat s h.le hlen
  rwa [if_pos h, min_eq_left h] at hcursor

/-- Settles O21: the source has a byte at the cursor exactly when the cursor is inside it, and the bound on the source
(10_state.md R33) keeps the advanced cursor from wrapping. -/
theorem sourceReadContract : Obligations.SourceReadContract := by
  intro s hlen
  exact ⟨fun h => ⟨srcGet_inside h, cursor_succ_toNat h hlen⟩, srcGet_past_end⟩

end Sys2Proof.Machine

/-! The decoder by layouts (30_encoding.md R71 to R78): the seven operand layouts of the opcode map, what each reads
from a word and which fields it must find zero. The facts about `decode`, `used` and `mustBeZero` are proved once for
each layout and carried over by the opcode map. -/

namespace Sys2Proof

/-! ### Fields that are zero -/

theorem field_eq_zero_iff (w : CmdWord) (lo len : Nat) :
    field w lo len = 0 ↔ ∀ k < len, w.getLsbD (lo + k) = false := by
  have hbits : ∀ v : BitVec len, v.toNat = 0 ↔ ∀ k < len, v.getLsbD k = false := fun v =>
    ⟨fun h => by simp [BitVec.eq_of_toNat_eq (y := 0#len) (by simpa using h)],
      fun h => by simp [BitVec.eq_of_getLsbD_eq (y := 0#len) (by simpa using h)]⟩
  rw [field, hbits]
  exact forall₂_congr fun k hk => by simp [hk]

/-- A field inside a zero field is zero. -/
theorem field_eq_zero_of_within {w : CmdWord} {lo len a n : Nat} (h : field w lo len = 0)
    (hin : lo ≤ a ∧ a + n ≤ lo + len := by decide) : field w a n = 0 := by
  rw [field_eq_zero_iff] at h ⊢
  intro k hk
  simpa [show lo + (a - lo + k) = a + k by omega] using h (a - lo + k) (by omega)

theorem sBit_eq_false_iff (w : CmdWord) : sBit w = false ↔ field w 55 1 = 0 := by
  simp [field_eq_zero_iff, sBit]

/-- The bits of the field of `len` bits at `lo`. -/
def fieldBits (lo len : Nat) : CmdWord := (BitVec.allOnes len).setWidth 64 <<< lo

theorem and_fieldBits_eq_zero (w : CmdWord) (lo len : Nat) : w &&& fieldBits lo len = 0#64 ↔ field w lo len = 0 := by
  rw [field_eq_zero_iff]
  constructor
  · intro h k hk
    by_cases hlt : lo + k < 64
    · have hbit := congrArg (BitVec.getLsbD · (lo + k)) h
      simpa [fieldBits, hlt, hk, show k < 64 by omega] using hbit
    · exact BitVec.getLsbD_of_ge w _ (by omega)
  · intro h
    refine BitVec.eq_of_getLsbD_eq fun i hi => ?_
    by_cases hin : lo ≤ i ∧ i - lo < len
    · have hbit := h (i - lo) hin.2
      rw [Nat.add_sub_cancel' hin.1] at hbit
      simp [hbit]
    · simp only [fieldBits, BitVec.getLsbD_and, BitVec.getLsbD_shiftLeft, BitVec.getLsbD_setWidth,
        BitVec.getLsbD_allOnes, BitVec.getLsbD_zero]
      grind

/-- The bits of a list of fields, each given by its lowest bit and its length. -/
def bitsOf (fields : List (Nat × Nat)) : CmdWord := fields.foldr (fun p m => fieldBits p.1 p.2 ||| m) 0#64

theorem and_bitsOf_eq_zero (w : CmdWord) (fields : List (Nat × Nat)) :
    w &&& bitsOf fields = 0#64 ↔ ∀ p ∈ fields, field w p.1 p.2 = 0 := by
  induction fields with
  | nil => simp [bitsOf]
  | cons p fields ih =>
    rw [List.forall_mem_cons, ← ih, ← and_fieldBits_eq_zero, ← BitVec.or_eq_zero_iff]
    simp only [bitsOf, List.foldr_cons, BitVec.and_or_distrib_left]

/-! ### A word is made of its fields -/

theorem field_lt (w : CmdWord) (lo len : Nat) : field w lo len < 2 ^ len := (w.extractLsb' lo len).isLt

theorem totField_lt (w : CmdWord) : totField w < 2 ^ 16 := field_lt w 32 16

theorem hiField_lt (w : CmdWord) : hiField w < 2 ^ 16 := field_lt w 16 16

theorem loField_lt (w : CmdWord) : loField w < 2 ^ 16 := field_lt w 0 16

theorem slotField_lt (w : CmdWord) : slotField w < 2 ^ 16 := field_lt w 32 16

theorem symField_lt (w : CmdWord) : symField w < 2 ^ 9 := field_lt w 16 9

theorem fField_lt (w : CmdWord) : fField w < 2 ^ 16 := field_lt w 0 16

theorem eq_wordC {w : CmdWord} (h : field w 0 56 = 0) : w = wordC (opc w) := by
  apply BitVec.eq_of_toNat_eq
  rw [field_eq] at h
  rw [wordC_toNat, opc, field_eq]
  have := w.isLt
  omega

theorem bit_toNat (n : Nat) : (decide (n % 2 = 1)).toNat = n % 2 := by
  rcases Nat.mod_two_eq_zero_or_one n with h | h <;> simp [h]

theorem thField_toNat (w : CmdWord) : field w 31 1 = (thField w).toNat := by
  rw [thField_eq, bit_toNat, field_eq, pow_one]

/-- A format R word with zero reserved bits, from the values of its fields. -/
theorem eq_wordR {w : CmdWord} {s : Bool} {tot hi lo : Nat} (h : field w 48 7 = 0) (hs : sBit w = s)
    (htot : totField w = tot) (hhi : hiField w = hi) (hlo : loField w = lo) : w = wordR (opc w) s tot hi lo := by
  subst hs htot hhi hlo
  apply BitVec.eq_of_toNat_eq
  rw [field_eq] at h
  rw [wordR_toNat, opc, totField, hiField, loField, sBit_eq, bit_toNat]
  simp only [field_eq]
  have := w.isLt
  omega

/-- A format M word with zero reserved bits, from the values of its fields. -/
theorem eq_wordM {w : CmdWord} {s : Bool} {slot : Nat} {th : Bool} {sym f : Nat} (h : field w 48 7 = 0)
    (hmid : field w 25 6 = 0) (hs : sBit w = s) (hslot : slotField w = slot) (hth : field w 31 1 = th.toNat)
    (hsym : symField w = sym) (hf : fField w = f) : w = wordM (opc w) s slot th sym f := by
  subst hs hslot hsym hf
  apply BitVec.eq_of_toNat_eq
  rw [field_eq] at h hmid hth
  rw [wordM_toNat, ← hth, opc, slotField, symField, fField, sBit_eq, bit_toNat]
  simp only [field_eq]
  have := w.isLt
  omega

/-! ### What each format accepts

A word that a format accepts is the word of the operands it reads. -/

theorem decodeC_ok {w : CmdWord} {i j : Instr} (h : decodeC w j = .ok i) : w = wordC (opc w) ∧ j = i := by
  unfold decodeC at h
  split_ifs at h with hs hlow
  refine ⟨eq_wordC ?_, Except.ok.inj h⟩
  rw [Bool.not_eq_true, sBit_eq_false_iff, field_eq] at hs
  rw [field_eq] at hlow ⊢
  omega

theorem decodeIv_ok {w : CmdWord} {i : Instr} {mk : IvOperand → Instr} (h : decodeIv w mk = .ok i) :
    ∃ o, o.wellFormed = true ∧ w = wordIv (opc w) o ∧ mk o = i := by
  unfold decodeIv at h
  split_ifs at h with hmid hs hlow
  · have hw := eq_wordR (not_not.1 hmid) hs (field_eq_zero_of_within hlow) (field_eq_zero_of_within hlow)
      (field_eq_zero_of_within hlow)
    exact ⟨.regs, rfl, hw, Except.ok.inj h⟩
  · have hw := eq_wordR (not_not.1 hmid) (Bool.not_eq_true _ ▸ hs) rfl rfl rfl
    have hfits : (IvOperand.imm (loField w) (hiField w) (totField w)).wellFormed = true := by
      simp only [IvOperand.wellFormed, loField_lt, hiField_lt, totField_lt, decide_true, Bool.and_self]
    exact ⟨_, hfits, hw, Except.ok.inj h⟩

theorem decodeTot_ok {w : CmdWord} {i : Instr} {mk : TotOperand → Instr} (h : decodeTot w mk = .ok i) :
    ∃ o, o.wellFormed = true ∧ w = wordTot (opc w) o ∧ mk o = i := by
  unfold decodeTot at h
  split_ifs at h with hmid hs hlow hlow
  · have hw := eq_wordR (not_not.1 hmid) hs (field_eq_zero_of_within hlow) (field_eq_zero_of_within hlow)
      (field_eq_zero_of_within hlow)
    exact ⟨.reg, rfl, hw, Except.ok.inj h⟩
  · have hw := eq_wordR (not_not.1 hmid) (Bool.not_eq_true _ ▸ hs) rfl (field_eq_zero_of_within hlow)
      (field_eq_zero_of_within hlow)
    exact ⟨.imm (totField w), decide_eq_true (totField_lt w), hw, Except.ok.inj h⟩

theorem decodeInit_ok {w : CmdWord} {i : Instr} {mk : Nat → Bool → Instr} (h : decodeInit w mk = .ok i) :
    ∃ k th, slotFits k = true ∧ w = wordM (opc w) false k th 0 0 ∧ mk k th = i := by
  unfold decodeInit at h
  split_ifs at h with hs hmid hlow
  have hw := eq_wordM (not_not.1 hmid) (field_eq_zero_of_within hlow) (Bool.not_eq_true _ ▸ hs) rfl (thField_toNat w)
    (field_eq_zero_of_within hlow) (field_eq_zero_of_within hlow)
  exact ⟨_, _, decide_eq_true (slotField_lt w), hw, Except.ok.inj h⟩

/-- A format M word with nothing below its slot. -/
theorem eq_wordM_slot {w : CmdWord} {s : Bool} (hmid : field w 48 7 = 0) (hs : sBit w = s) (hlow : field w 0 32 = 0) :
    w = wordM (opc w) s (slotField w) false 0 0 :=
  eq_wordM hmid (field_eq_zero_of_within hlow) hs rfl (field_eq_zero_of_within hlow) (field_eq_zero_of_within hlow)
    (field_eq_zero_of_within hlow)

theorem decodeSlot_ok {w : CmdWord} {i : Instr} {mk : Nat → Instr} (h : decodeSlot w mk = .ok i) :
    ∃ k, slotFits k = true ∧ w = wordM (opc w) false k false 0 0 ∧ mk k = i := by
  unfold decodeSlot at h
  split_ifs at h with hs hmid hlow
  have hw := eq_wordM_slot (not_not.1 hmid) (Bool.not_eq_true _ ▸ hs) hlow
  exact ⟨_, decide_eq_true (slotField_lt w), hw, Except.ok.inj h⟩

theorem decodeSym_ok {w : CmdWord} {i : Instr} {mk : Nat → SymOperand → Instr} (h : decodeSym w mk = .ok i) :
    ∃ k o, (slotFits k && o.wellFormed) = true ∧ w = wordSym (opc w) k o ∧ mk k o = i := by
  have hslot : slotFits (slotField w) = true := decide_eq_true (slotField_lt w)
  unfold decodeSym at h
  split_ifs at h with hmid hs hlow hlow
  · exact ⟨_, .reg, by rw [hslot]; rfl, eq_wordM_slot (not_not.1 hmid) hs hlow, Except.ok.inj h⟩
  · obtain ⟨hhigh, hf⟩ := hlow
    have hw := eq_wordM (not_not.1 hmid) (field_eq_zero_of_within hhigh) (Bool.not_eq_true _ ▸ hs) rfl
      (th := false) (field_eq_zero_of_within hhigh) rfl hf
    have hsym : (SymOperand.imm (symField w)).wellFormed = true := decide_eq_true (symField_lt w)
    exact ⟨_, .imm (symField w), by rw [hslot, hsym]; rfl, hw, Except.ok.inj h⟩

theorem decodeFreq_ok {w : CmdWord} {i : Instr} {mk : Nat → FreqOperand → Instr} (h : decodeFreq w mk = .ok i) :
    ∃ k o, (slotFits k && o.wellFormed) = true ∧ w = wordFreq (opc w) k o ∧ mk k o = i := by
  have hslot : slotFits (slotField w) = true := decide_eq_true (slotField_lt w)
  unfold decodeFreq at h
  split_ifs at h with hmid hs hlow hhigh
  · exact ⟨_, .reg, by rw [hslot]; rfl, eq_wordM_slot (not_not.1 hmid) hs hlow, Except.ok.inj h⟩
  · have hw := eq_wordM (not_not.1 hmid) (field_eq_zero_of_within hhigh) (Bool.not_eq_true _ ▸ hs) rfl
      (th := false) (field_eq_zero_of_within hhigh) (field_eq_zero_of_within hhigh) rfl
    have hfreq : (FreqOperand.imm (fField w)).wellFormed = true := decide_eq_true (fField_lt w)
    exact ⟨_, .imm (fField w), by rw [hslot, hfreq]; rfl, hw, Except.ok.inj h⟩

/-! ### What each format reads from the word of its operands -/

theorem decodeC_wordC (op : Nat) (i : Instr) : decodeC (wordC op) i = .ok i := by
  have hlow : field (wordC op) 0 55 = 0 := by rw [field_eq, wordC_toNat]; omega
  simp [decodeC, hlow]

/-- Below the reserved bits a format R word holds its operands. -/
theorem low_wordR (op : Nat) (s : Bool) (tot hi lo : Nat) :
    field (wordR op s tot hi lo) 0 48 = tot % 2 ^ 16 * 2 ^ 32 + hi % 2 ^ 16 * 2 ^ 16 + lo % 2 ^ 16 := by
  rw [field_eq, wordR_toNat]; have := s.toNat_le; omega

/-- Below the slot a format M word holds `TH`, `SYM` and `F`. -/
theorem low_wordM (op : Nat) (s : Bool) (slot : Nat) (th : Bool) (sym f : Nat) :
    field (wordM op s slot th sym f) 0 32 = th.toNat * 2 ^ 31 + sym % 2 ^ 9 * 2 ^ 16 + f % 2 ^ 16 := by
  rw [field_eq, wordM_toNat]; have := s.toNat_le; have := th.toNat_le; omega

theorem decodeIv_wordIv (op : Nat) {o : IvOperand} (h : o.wellFormed = true) (mk : IvOperand → Instr) :
    decodeIv (wordIv op o) mk = .ok (mk o) := by
  cases o with
  | regs => simp [decodeIv, wordIv, reserved_wordR, low_wordR]
  | imm lo hi tot =>
    simp only [IvOperand.wellFormed, Bool.and_eq_true, decide_eq_true_eq] at h
    obtain ⟨⟨hlo, hhi⟩, htot⟩ := h
    simp [decodeIv, wordIv, reserved_wordR, totField_wordR _ _ htot, hiField_wordR _ _ hhi, loField_wordR _ _ hlo]

theorem decodeTot_wordTot (op : Nat) {o : TotOperand} (h : o.wellFormed = true) (mk : TotOperand → Instr) :
    decodeTot (wordTot op o) mk = .ok (mk o) := by
  cases o with
  | reg => simp [decodeTot, wordTot, reserved_wordR, low_wordR]
  | imm tot =>
    have htot : tot < 2 ^ 16 := of_decide_eq_true h
    have hlow : field (wordR op false tot 0 0) 0 32 = 0 := by rw [field_eq, wordR_toNat, Bool.toNat_false]; omega
    simp [decodeTot, wordTot, reserved_wordR, totField_wordR _ _ htot, hlow]

theorem decodeInit_wordM (op : Nat) {slot : Nat} (h : slotFits slot = true) (th : Bool) (mk : Nat → Bool → Instr) :
    decodeInit (wordM op false slot th 0 0) mk = .ok (mk slot th) := by
  have hslot : slot < 2 ^ 16 := of_decide_eq_true h
  have hlow : field (wordM op false slot th 0 0) 0 31 = 0 := by
    rw [field_eq, wordM_toNat, Bool.toNat_false]; have := th.toNat_le; omega
  simp [decodeInit, reserved_wordM, slotField_wordM _ _ _ hslot, hlow]

theorem decodeSlot_wordM (op : Nat) {slot : Nat} (h : slotFits slot = true) (mk : Nat → Instr) :
    decodeSlot (wordM op false slot false 0 0) mk = .ok (mk slot) := by
  have hslot : slot < 2 ^ 16 := of_decide_eq_true h
  simp [decodeSlot, reserved_wordM, slotField_wordM _ _ _ hslot, low_wordM]

theorem decodeSym_wordSym (op : Nat) {slot : Nat} {o : SymOperand} (h : (slotFits slot && o.wellFormed) = true)
    (mk : Nat → SymOperand → Instr) : decodeSym (wordSym op slot o) mk = .ok (mk slot o) := by
  obtain ⟨hfits, ho⟩ := (Bool.and_eq_true _ _).mp h
  have hslot : slot < 2 ^ 16 := of_decide_eq_true hfits
  cases o with
  | reg => simp [decodeSym, wordSym, reserved_wordM, slotField_wordM _ _ _ hslot, low_wordM]
  | imm sym =>
    have hsym : sym < 2 ^ 9 := of_decide_eq_true ho
    have hhigh : field (wordM op false slot false sym 0) 25 7 = 0 := by
      rw [field_eq, wordM_toNat, Bool.toNat_false]; omega
    have hf : field (wordM op false slot false sym 0) 0 16 = 0 := by
      rw [field_eq, wordM_toNat, Bool.toNat_false]; omega
    simp [decodeSym, wordSym, reserved_wordM, slotField_wordM _ _ _ hslot, symField_wordM _ _ _ hsym, hhigh, hf]

theorem decodeFreq_wordFreq (op : Nat) {slot : Nat} {o : FreqOperand} (h : (slotFits slot && o.wellFormed) = true)
    (mk : Nat → FreqOperand → Instr) : decodeFreq (wordFreq op slot o) mk = .ok (mk slot o) := by
  obtain ⟨hfits, ho⟩ := (Bool.and_eq_true _ _).mp h
  have hslot : slot < 2 ^ 16 := of_decide_eq_true hfits
  cases o with
  | reg => simp [decodeFreq, wordFreq, reserved_wordM, slotField_wordM _ _ _ hslot, low_wordM]
  | imm f =>
    have hfreq : f < 2 ^ 16 := of_decide_eq_true ho
    have hhigh : field (wordM op false slot false 0 f) 16 16 = 0 := by
      rw [field_eq, wordM_toNat, Bool.toNat_false]; omega
    simp [decodeFreq, wordFreq, reserved_wordM, slotField_wordM _ _ _ hslot, fField_wordM _ _ _ hfreq, hhigh]

/-! ### The layouts and the opcode map -/

/-- The operand layouts of the opcode map (30_encoding.md R76), with the commands each one builds. -/
inductive Layout where
  /-- Format C. -/
  | bare (i : Instr)
  /-- Format R with `TOT`, `HI` and `LO`. -/
  | iv (mk : IvOperand → Instr)
  /-- Format R with `TOT`. -/
  | tot (mk : TotOperand → Instr)
  /-- Format M with `SLOT` and `TH`. -/
  | init (mk : Nat → Bool → Instr)
  /-- Format M with `SLOT`. -/
  | slot (mk : Nat → Instr)
  /-- Format M with `SLOT` and `SYM`. -/
  | sym (mk : Nat → SymOperand → Instr)
  /-- Format M with `SLOT` and `F`. -/
  | freq (mk : Nat → FreqOperand → Instr)

namespace Layout

/-- What the decoder reads from a word of the layout. -/
def read : Layout → CmdWord → Except Illegal Instr
  | bare i, w => decodeC w i
  | iv mk, w => decodeIv w mk
  | tot mk, w => decodeTot w mk
  | init mk, w => decodeInit w mk
  | slot mk, w => decodeSlot w mk
  | sym mk, w => decodeSym w mk
  | freq mk, w => decodeFreq w mk

/-- The used bits of a word of the layout (30_encoding.md R77). -/
def used : Layout → Bool → CmdWord
  | bare _, _ => opcBits
  | iv _, s => opcBits ||| sBits ||| if s then 0#64 else slotBits ||| hiBits ||| loBits
  | tot _, s => opcBits ||| sBits ||| if s then 0#64 else slotBits
  | init _, _ => opcBits ||| slotBits ||| thBits
  | slot _, _ => opcBits ||| slotBits
  | sym _, s => opcBits ||| sBits ||| slotBits ||| if s then 0#64 else symBits
  | freq _, s => opcBits ||| sBits ||| slotBits ||| if s then 0#64 else loBits

/-- The fields, by lowest bit and length, that a word of the layout must have zero. -/
def reserved : Layout → Bool → List (Nat × Nat)
  | bare _, _ => [(55, 1), (0, 55)]
  | iv _, s => (48, 7) :: if s then [(0, 48)] else []
  | tot _, s => (48, 7) :: if s then [(0, 48)] else [(0, 32)]
  | init _, _ => [(55, 1), (48, 7), (0, 31)]
  | slot _, _ => [(55, 1), (48, 7), (0, 32)]
  | sym _, s => (48, 7) :: if s then [(0, 32)] else [(25, 7), (0, 16)]
  | freq _, s => (48, 7) :: if s then [(0, 32)] else [(16, 16)]

/-- The layout builds the commands whose words have opcode `op`, and they fit their fields when their operands do. -/
def Builds (op : Nat) : Layout → Prop
  | bare i => i.wellFormed = true ∧ encode i = wordC op
  | iv mk => ∀ o, (mk o).wellFormed = o.wellFormed ∧ encode (mk o) = wordIv op o
  | tot mk => ∀ o, (mk o).wellFormed = o.wellFormed ∧ encode (mk o) = wordTot op o
  | init mk => ∀ k th, (mk k th).wellFormed = slotFits k ∧ encode (mk k th) = wordM op false k th 0 0
  | slot mk => ∀ k, (mk k).wellFormed = slotFits k ∧ encode (mk k) = wordM op false k false 0 0
  | sym mk => ∀ k o, (mk k o).wellFormed = (slotFits k && o.wellFormed) ∧ encode (mk k o) = wordSym op k o
  | freq mk => ∀ k o, (mk k o).wellFormed = (slotFits k && o.wellFormed) ∧ encode (mk k o) = wordFreq op k o

end Layout

/-- The opcode map (30_encoding.md R76). -/
def layoutOf : Nat → Option Layout
  | 0x00 => some (.bare .nop)
  | 0x01 => some (.bare .fltClr)
  | 0x20 => some (.bare .rcEncInit)
  | 0x21 => some (.iv .rcEnc)
  | 0x22 => some (.bare .rcEncFinish)
  | 0x28 => some (.bare .rcDecInit)
  | 0x29 => some (.tot .rcGetfreq)
  | 0x2A => some (.iv .rcDec)
  | 0x40 => some (.init .mInitEsc)
  | 0x41 => some (.init .mInitUni)
  | 0x42 => some (.sym .mCum)
  | 0x43 => some (.freq .mFind)
  | 0x44 => some (.sym .mBump)
  | 0x45 => some (.slot .mTotal)
  | 0x46 => some (.sym .mCnt)
  | 0x47 => some (.slot .mUniq)
  | 0x48 => some (.slot .mWbTotal)
  | 0x49 => some (.sym .mWbCum)
  | 0x4A => some (.freq .mWbFind)
  | 0x4C => some (.slot .mWbTotalEx)
  | 0x4D => some (.sym .mWbCumEx)
  | 0x4E => some (.freq .mWbFindEx)
  | 0x50 => some (.bare .exclClr)
  | 0x51 => some (.slot .exclAdd)
  | _ => none

/-- The 24 defined opcodes (30_encoding.md R76). -/
def opcodes : List Nat :=
  [0x00, 0x01, 0x20, 0x21, 0x22, 0x28, 0x29, 0x2A, 0x40, 0x41, 0x42, 0x43, 0x44, 0x45, 0x46, 0x47, 0x48, 0x49,
    0x4A, 0x4C, 0x4D, 0x4E, 0x50, 0x51]

theorem layoutOf_isSome_iff (op : Nat) : (layoutOf op).isSome = true ↔ op ∈ opcodes := by
  unfold layoutOf
  split
  case h_25 => simp_all [opcodes]
  all_goals decide

theorem decode_eq (w : CmdWord) :
    decode w = (layoutOf (opc w)).elim (.error .undefinedOpcode) (fun L => L.read w) := by
  unfold decode
  generalize opc w = op
  unfold layoutOf
  split
  case h_25 => simp_all
  all_goals rfl

theorem used_eq (op : Nat) (s : Bool) : used op s = (layoutOf op).map (fun L => L.used s) := by
  unfold layoutOf
  split
  case h_25 => simp_all [Sys2Proof.used]
  all_goals rfl

theorem layoutOf_builds {op : Nat} {L : Layout} (h : layoutOf op = some L) : L.Builds op := by
  unfold layoutOf at h
  split at h
  case h_25 => cases h
  all_goals
    cases h
    simp [Layout.Builds, Instr.wellFormed, encode]

/-! ### What each layout accepts -/

namespace Layout

/-- The used bits leave exactly the reserved fields. -/
theorem not_used (L : Layout) (s : Bool) : ~~~L.used s = bitsOf (L.reserved s) := by
  cases L <;> cases s <;> simp only [used, reserved] <;> decide

/-- A layout accepts a word iff its reserved fields are zero. -/
theorem read_ok_iff (L : Layout) (w : CmdWord) :
    (∃ i, L.read w = .ok i) ↔ ∀ p ∈ L.reserved (sBit w), field w p.1 p.2 = 0 := by
  cases L with
  | bare i => simp only [read, reserved, decodeC]; split_ifs <;> simp_all [← sBit_eq_false_iff]
  | iv mk => simp only [read, reserved, decodeIv]; split_ifs <;> simp_all
  | tot mk => simp only [read, reserved, decodeTot]; split_ifs <;> simp_all
  | init mk => simp only [read, reserved, decodeInit]; split_ifs <;> simp_all [← sBit_eq_false_iff]
  | slot mk => simp only [read, reserved, decodeSlot]; split_ifs <;> simp_all [← sBit_eq_false_iff]
  | sym mk => simp only [read, reserved, decodeSym]; split_ifs <;> simp_all
  | freq mk => simp only [read, reserved, decodeFreq]; split_ifs <;> simp_all

/-- A layout rejects a word for a reserved bit or, when `S = 1`, for a misused S bit (30_encoding.md R78). -/
theorem read_error {L : Layout} {w : CmdWord} {e : Illegal} (h : L.read w = .error e) :
    e = .reservedBit ∨ (e = .misusedS ∧ sBit w = true) := by
  cases L with
  | bare i => simp only [read, decodeC] at h; split_ifs at h <;> simp_all
  | iv mk => simp only [read, decodeIv] at h; split_ifs at h <;> simp_all
  | tot mk => simp only [read, decodeTot] at h; split_ifs at h <;> simp_all
  | init mk => simp only [read, decodeInit] at h; split_ifs at h <;> simp_all
  | slot mk => simp only [read, decodeSlot] at h; split_ifs at h <;> simp_all
  | sym mk => simp only [read, decodeSym] at h; split_ifs at h <;> simp_all
  | freq mk => simp only [read, decodeFreq] at h; split_ifs at h <;> simp_all

/-- An accepted word is the word of the command the layout builds from it. -/
theorem read_ok {L : Layout} {w : CmdWord} {i : Instr} (hbuilds : L.Builds (opc w)) (h : L.read w = .ok i) :
    i.wellFormed = true ∧ encode i = w := by
  cases L with
  | bare j =>
    obtain ⟨hfits, hword⟩ := hbuilds
    obtain ⟨hzero, rfl⟩ := decodeC_ok h
    exact ⟨hfits, hword.trans hzero.symm⟩
  | iv mk =>
    obtain ⟨o, ho, hw, rfl⟩ := decodeIv_ok h
    exact ⟨(hbuilds o).1.trans ho, (hbuilds o).2.trans hw.symm⟩
  | tot mk =>
    obtain ⟨o, ho, hw, rfl⟩ := decodeTot_ok h
    exact ⟨(hbuilds o).1.trans ho, (hbuilds o).2.trans hw.symm⟩
  | init mk =>
    obtain ⟨k, th, hk, hw, rfl⟩ := decodeInit_ok h
    exact ⟨(hbuilds k th).1.trans hk, (hbuilds k th).2.trans hw.symm⟩
  | slot mk =>
    obtain ⟨k, hk, hw, rfl⟩ := decodeSlot_ok h
    exact ⟨(hbuilds k).1.trans hk, (hbuilds k).2.trans hw.symm⟩
  | sym mk =>
    obtain ⟨k, o, ho, hw, rfl⟩ := decodeSym_ok h
    exact ⟨(hbuilds k o).1.trans ho, (hbuilds k o).2.trans hw.symm⟩
  | freq mk =>
    obtain ⟨k, o, ho, hw, rfl⟩ := decodeFreq_ok h
    exact ⟨(hbuilds k o).1.trans ho, (hbuilds k o).2.trans hw.symm⟩

end Layout

/-! ### The decoder -/

theorem opc_encode (i : Instr) : opc (encode i) = i.opcode := by
  cases i <;> simp [encode, Instr.opcode]

/-- What decides a word of a defined opcode. -/
theorem decode_of_layout {w : CmdWord} {L : Layout} (hL : layoutOf (opc w) = some L) : decode w = L.read w := by
  rw [decode_eq, hL]; rfl

theorem decode_undefined {w : CmdWord} (hL : layoutOf (opc w) = none) : decode w = .error .undefinedOpcode := by
  rw [decode_eq, hL]; rfl

/-- The decoder rejects a word for its opcode exactly when the opcode map has no layout for it. -/
theorem decode_undefined_iff (w : CmdWord) : decode w = .error .undefinedOpcode ↔ layoutOf (opc w) = none := by
  refine ⟨fun h => ?_, decode_undefined⟩
  cases hL : layoutOf (opc w) with
  | none => rfl
  | some L =>
    rw [decode_of_layout hL] at h
    rcases Layout.read_error h with h | ⟨h, -⟩ <;> cases h

/-- The decoder accepts a word iff no bit outside the used ones is set (30_encoding.md R77). -/
theorem decode_ok_iff (w : CmdWord) :
    (∃ i, decode w = .ok i) ↔ ∃ u, used (opc w) (sBit w) = some u ∧ w &&& ~~~u = 0#64 := by
  rw [used_eq]
  cases hL : layoutOf (opc w) with
  | none => simp [decode_undefined hL]
  | some L => simp [decode_of_layout hL, Layout.read_ok_iff, Layout.not_used, and_bitsOf_eq_zero]

/-- The table of must-be-zero masks is the complement of the used bits (30_encoding.md R77). -/
theorem mustBeZero_eq (op : Nat) (s : Bool) : mustBeZero op s = (used op s).map (~~~·) := by
  simp only [mustBeZero, used]
  split_ifs
  all_goals decide

theorem legal_iff (w : CmdWord) :
    legal w = true ↔ ∃ u, used (opc w) (sBit w) = some u ∧ w &&& ~~~u = 0#64 := by
  rw [legal, mustBeZero_eq]
  cases used (opc w) (sBit w) <;> simp

/-- The decoder accepts exactly the legal words. -/
theorem legal_iff_decode_ok (w : CmdWord) : legal w = true ↔ ∃ i, decode w = .ok i :=
  (legal_iff w).trans (decode_ok_iff w).symm

theorem not_legal_iff_decode_error (w : CmdWord) : legal w = false ↔ ∃ e, decode w = .error e := by
  rw [← Bool.not_eq_true, legal_iff_decode_ok]
  cases decode w <;> simp

/-- A command is read back from its word if its layout reads it back. -/
theorem decode_encode_of_read {i : Instr} {L : Layout} (hL : layoutOf i.opcode = some L)
    (hread : L.read (encode i) = .ok i) : decode (encode i) = .ok i := by
  rw [decode_of_layout (by rw [opc_encode, hL]), hread]

/-- Settles O1, by the layout of the command's opcode. -/
theorem decodeReadsBackEncode : Obligations.DecodeReadsBackEncode := by
  intro i h
  cases i with
  | nop | fltClr | rcEncInit | rcEncFinish | rcDecInit | exclClr =>
    exact decode_encode_of_read rfl (decodeC_wordC _ _)
  | rcEnc _ | rcDec _ => exact decode_encode_of_read rfl (decodeIv_wordIv _ h _)
  | rcGetfreq _ => exact decode_encode_of_read rfl (decodeTot_wordTot _ h _)
  | mInitEsc _ th | mInitUni _ th => exact decode_encode_of_read rfl (decodeInit_wordM _ h th _)
  | mTotal _ | mUniq _ | mWbTotal _ | mWbTotalEx _ | exclAdd _ =>
    exact decode_encode_of_read rfl (decodeSlot_wordM _ h _)
  | mCum _ _ | mBump _ _ | mCnt _ _ | mWbCum _ _ | mWbCumEx _ _ =>
    exact decode_encode_of_read rfl (decodeSym_wordSym _ h _)
  | mFind _ _ | mWbFind _ _ | mWbFindEx _ _ => exact decode_encode_of_read rfl (decodeFreq_wordFreq _ h _)

/-- Settles O2: the layout of an accepted word's opcode builds the command the decoder answers. -/
theorem legalWordIsItsEncoding : Obligations.LegalWordIsItsEncoding := by
  intro w i h
  cases hL : layoutOf (opc w) with
  | none => cases (decode_undefined hL).symm.trans h
  | some L =>
    rw [decode_of_layout hL] at h
    exact Layout.read_ok (layoutOf_builds hL) h

/-- Settles O3: the opcode map has a layout for exactly the 24 opcodes, and a layout accepts exactly the words with no
bit set outside the used ones. -/
theorem legalMeansOnlyUsedBits : Obligations.LegalMeansOnlyUsedBits := by
  refine ⟨fun op b => ?_, fun w => ⟨legal_iff w, (legal_iff_decode_ok w).symm⟩⟩
  rw [used_eq, Option.isSome_map]
  exact layoutOf_isSome_iff op

/-! ### Illegal words (30_encoding.md R78) -/

/-- The undefined opcodes, as ranges of the opcode byte. -/
theorem layoutOf_eq_none_iff {op : Nat} (h : op < 256) : layoutOf op = none ↔
    (0x02 ≤ op ∧ op ≤ 0x1F) ∨ (0x23 ≤ op ∧ op ≤ 0x27) ∨ (0x2B ≤ op ∧ op ≤ 0x3F) ∨ op = 0x4B ∨
      op = 0x4F ∨ (0x52 ≤ op ∧ op ≤ 0xFF) := by
  rw [← Option.not_isSome_iff_eq_none, layoutOf_isSome_iff]
  simp only [opcodes, List.mem_cons, List.not_mem_nil, or_false]
  omega

/-- A word of a defined opcode that the decoder rejects sets a bit outside the used ones. -/
theorem unused_bit_of_error {w : CmdWord} {e : Illegal} (h : decode w = .error e) (he : e ≠ .undefinedOpcode) :
    ∃ u, used (opc w) (sBit w) = some u ∧ w &&& ~~~u ≠ 0#64 := by
  cases hL : layoutOf (opc w) with
  | none => exact absurd (Except.error.inj (h.symm.trans (decode_undefined hL))) he
  | some L =>
    have hused : used (opc w) (sBit w) = some (L.used (sBit w)) := by rw [used_eq, hL]; rfl
    refine ⟨_, hused, fun hzero => ?_⟩
    obtain ⟨i, hi⟩ := (decode_ok_iff w).2 ⟨_, hused, hzero⟩
    cases h.symm.trans hi

theorem sBit_of_misusedS {w : CmdWord} (h : decode w = .error .misusedS) : sBit w = true := by
  cases hL : layoutOf (opc w) with
  | none => cases h.symm.trans (decode_undefined hL)
  | some L =>
    rw [decode_of_layout hL] at h
    rcases Layout.read_error h with h | ⟨-, hs⟩
    · cases h
    · exact hs

/-! ### `NOP` and the sample words (30_encoding.md R79, R80, R82) -/

/-- Settles O5: an accepted word is the encoding of its command, and opcode 0 is the opcode of `NOP` alone. -/
theorem nopIsTheOnlyNopWord : Obligations.NopIsTheOnlyNopWord := by
  have hword : ∀ w : CmdWord, decode w = .ok .nop → w = 0#64 := fun w h =>
    ((legalWordIsItsEncoding w .nop h).2).symm.trans (by decide)
  refine ⟨decodeReadsBackEncode .nop rfl, hword, fun w hop hne => ?_⟩
  cases hd : decode w with
  | error e => exact ⟨e, rfl⟩
  | ok i =>
    have hread : decodeC w .nop = .ok i := (decode_of_layout (L := .bare .nop) (by rw [hop]; rfl)).symm.trans hd
    obtain ⟨-, rfl⟩ := decodeC_ok hread
    exact absurd (hword w hd) hne

/-- A literal word decodes to the command it encodes. -/
theorem decode_of_encode {w : CmdWord} {i : Instr} (hfits : i.wellFormed = true) (hw : encode i = w) :
    decode w = .ok i := hw ▸ decodeReadsBackEncode i hfits

/-- Settles O6: the accepted samples are the encodings of their commands, and the two others are rejected by their
format. -/
theorem sampleWordsDecode : Obligations.SampleWordsDecode := by
  refine ⟨?_, ?_, ?_, ?_, ?_, ?_, ?_, ?_, ?_, ?_, ?_, by decide, by decide⟩
  all_goals exact decode_of_encode (by decide) (by decide)

end Sys2Proof

namespace Sys2Proof.Machine

/-! ### The `ILLEGAL` fault (30_encoding.md R78) -/

/-- What the block does with an illegal word it takes while `FAULT = 0` (60_exceptions.md R202). -/
theorem step_illegal {s : State} {w : CmdWord} {rest : List HostAction} {e : Illegal}
    (hport : s.port = .issue w :: rest) (hbusy : s.busy = false) (hfault : s.fault = false) (he : decode w = .error e) :
    step s = .next { s with
      port := rest, fault := true, cause := .illegal, fopc := w.extractLsb' 56 8, fcmd := w } := by
  rw [step_issue hport hbusy]
  rcases runCommand_cases w (s.accept rest) with ⟨hfaulted, -⟩ | ⟨-, ⟨i, -, hi, -⟩ | ⟨-, -, hrun⟩⟩
  · cases hfault.symm.trans hfaulted
  · cases he.symm.trans hi
  · rw [hrun]
    simp only [State.enterFault, State.release, State.accept, hbusy]

/-- Settles O4: the kinds are read off the layout of the opcode, and the port enters the fault on the state with the
action taken. -/
theorem illegalWordsFault : Obligations.IllegalWordsFault := by
  refine ⟨fun w => ⟨?_, fun h => unused_bit_of_error h (by decide),
    fun h => ⟨sBit_of_misusedS h, unused_bit_of_error h (by decide)⟩, not_legal_iff_decode_error w⟩, ?_⟩
  · exact (decode_undefined_iff w).trans (layoutOf_eq_none_iff (opc_lt w))
  · intro s w rest hport hbusy hfault hlegal
    obtain ⟨e, he⟩ := (not_legal_iff_decode_error w).1 hlegal
    exact step_illegal hport hbusy hfault he

/-! ### The S-form (30_encoding.md R74) -/

/-- A command that ends without a fault ends as its body answers. -/
theorem settle_completes_iff {s t : State} {i : Instr} {r : Except Cause State} (ht : t.fault = false) :
    s.settle i r = .next t ↔ r = .ok t := by
  refine ⟨fun h => ?_, fun h => by rw [h, settle_ok]⟩
  rcases settle_cases h with ⟨c, -, rfl⟩ | hr
  · cases ht
  · exact hr

/-- Two operand forms with one body complete with the same states. -/
theorem settle_completes_congr {s t : State} {i j : Instr} {r : Except Cause State} (ht : t.fault = false) :
    s.settle i r = .next t ↔ s.settle j r = .next t :=
  (settle_completes_iff ht).trans (settle_completes_iff ht).symm

/-- Settles O29: operand fetch gives the two forms one body, so they differ in the word a fault records and in nothing
else. -/
theorem sFormTakesResultRegisters : Obligations.SFormTakesResultRegisters := by
  intro s t k _ ht
  exact ⟨settle_completes_congr ht, settle_completes_congr ht, settle_completes_congr ht, settle_completes_congr ht,
    settle_completes_congr ht, settle_completes_congr ht, settle_completes_congr ht, settle_completes_congr ht,
    settle_completes_congr ht, settle_completes_congr ht, settle_completes_congr ht⟩

end Sys2Proof.Machine

/-! `Renorm` in closed form (41_range_coder.md R102 to R105): the shift steps are counted by the leading bytes the two
ends share, and each register after them is a number computed from the registers before them. -/

namespace Sys2Proof.Machine

/-! ### How many shift steps (41_range_coder.md R103) -/

/-- The last of `k + 1` shift steps is a step from the state after `k` of them. -/
theorem shifts_succ (dec : Bool) (k : Nat) (s : State) :
    State.shifts dec (k + 1) s = (State.shifts dec k s).shiftOut dec := by
  induction k generalizing s with
  | zero => rfl
  | succ k ih => exact ih (s.shiftOut dec)

/-- The shift steps stop at the first byte in which the two ends differ. -/
theorem eq_leadingBytes {dec : Bool} {k : Nat} {s : State} (hk : k ≤ 4)
    (hbefore : ∀ j < k, (State.shifts dec j s).settled = true) (hend : (State.shifts dec k s).settled = false) :
    k = leadingBytes s.low.toNat s.high.toNat := by
  have hlow := s.low.isLt
  have hhigh := s.high.isLt
  have agree : ∀ j ≤ 4, (State.shifts dec j s).settled = true ↔
      s.low.toNat % 2 ^ (32 - 8 * j) * 256 ^ j / 2 ^ 24 =
        (s.high.toNat % 2 ^ (32 - 8 * j) * 256 ^ j + (256 ^ j - 1)) / 2 ^ 24 := fun j hj => by
    rw [settled_iff, (shifts_low dec j hj s).1, (shifts_low dec j hj s).2]
  have hdiffer := mt (agree k hk).2 (by simp [hend])
  have hagree := fun j hj => (agree j (by omega)).1 (hbefore j hj)
  unfold leadingBytes
  interval_cases k
  · rw [if_pos (by omega)]
  · have h0 := hagree 0 (by omega)
    rw [if_neg (by omega), if_pos (by omega)]
  · have h0 := hagree 0 (by omega)
    have h1 := hagree 1 (by omega)
    rw [if_neg (by omega), if_neg (by omega), if_pos (by omega)]
  · have h0 := hagree 0 (by omega)
    have h1 := hagree 1 (by omega)
    have h2 := hagree 2 (by omega)
    rw [if_neg (by omega), if_neg (by omega), if_neg (by omega), if_pos (by omega)]
  · have h0 := hagree 0 (by omega)
    have h1 := hagree 1 (by omega)
    have h2 := hagree 2 (by omega)
    have h3 := hagree 3 (by omega)
    rw [if_neg (by omega), if_neg (by omega), if_neg (by omega), if_neg (by omega)]

/-- `Renorm` takes one shift step for each leading byte the two ends share. -/
theorem renorm_eq_shifts (s : State) (dec : Bool) :
    s.renorm dec = State.shifts dec (leadingBytes s.low.toNat s.high.toNat) s := by
  obtain ⟨k, hk, hrenorm, hbefore, hend⟩ := renorm_spec s dec
  rw [hrenorm, eq_leadingBytes hk hbefore hend]

theorem leadingBytes_le (a b : Nat) : leadingBytes a b ≤ 4 := by
  unfold leadingBytes; split_ifs <;> omega

theorem leadingBytes_eq_four_iff (a b : Nat) : leadingBytes a b = 4 ↔ a = b := by
  refine ⟨fun h => ?_, fun h => by simp [leadingBytes, h]⟩
  unfold leadingBytes at h; split_ifs at h <;> omega

/-- The leading bytes that two 32-bit numbers share are equal. -/
theorem div_eq_of_leadingBytes {a b : Nat} (ha : a < 2 ^ 32) (hb : b < 2 ^ 32) :
    a / 256 ^ (4 - leadingBytes a b) = b / 256 ^ (4 - leadingBytes a b) := by
  unfold leadingBytes; split_ifs <;> norm_num only <;> omega

/-! ### The registers after the steps -/

theorem ofNat_toNat_eq {w : Nat} {x : BitVec w} {n : Nat} (h : x.toNat = n % 2 ^ w) : x = BitVec.ofNat w n :=
  BitVec.eq_of_toNat_eq (by rw [h, BitVec.toNat_ofNat])

/-- `LOW` and `HIGH` after `k` shift steps, whichever way the bytes go. -/
theorem shifts_ends (dec : Bool) {k : Nat} (hk : k ≤ 4) (s : State) :
    (State.shifts dec k s).low = BitVec.ofNat 32 (s.low.toNat * 256 ^ k) ∧
    (State.shifts dec k s).high = BitVec.ofNat 32 (s.high.toNat * 256 ^ k + (256 ^ k - 1)) := by
  obtain ⟨hlow, hhigh⟩ := shifts_low dec k hk s
  refine ⟨ofNat_toNat_eq (hlow.trans ?_), ofNat_toNat_eq (hhigh.trans ?_)⟩ <;> interval_cases k <;> omega

/-- The encoder and the decoder renormalize to the same ends. -/
theorem renorm_ends (s : State) (dec : Bool) :
    (s.renorm dec).low = (s.renorm false).low ∧ (s.renorm dec).high = (s.renorm false).high := by
  have hk := leadingBytes_le s.low.toNat s.high.toNat
  simp only [renorm_eq_shifts, shifts_ends dec hk, shifts_ends false hk, and_self]

/-- The bytes out are the leading bytes of `LOW`, the highest first. -/
theorem shifts_enc_snk {k : Nat} (hk : k ≤ 4) (s : State) :
    (State.shifts false k s).snk = s.snk ++ topBytes s.low.toNat k := by
  induction k with
  | zero => simp [State.shifts, topBytes]
  | succ k ih =>
    have hlow := s.low.isLt
    have hbyte : (State.shifts false k s).low.extractLsb' 24 8 = BitVec.ofNat 8 (s.low.toNat / 256 ^ (3 - k)) := by
      refine ofNat_toNat_eq ?_
      rw [topByte_toNat, (shifts_low false k (by omega) s).1]
      have hk' : k < 4 := hk
      clear ih
      interval_cases k <;> omega
    rw [shifts_succ, shiftOut_enc]
    simp only [ih (by omega), hbyte, topBytes, List.range_succ, List.map_append, List.map_singleton, List.append_assoc]

/-- `k` shift steps of the encoder, in closed form. -/
theorem shifts_enc_eq {k : Nat} (hk : k ≤ 4) (s : State) :
    State.shifts false k s = s.encodedBy s.low.toNat s.high.toNat k := by
  obtain ⟨hlow, hhigh⟩ := shifts_ends false hk s
  rw [(shifts_enc_frame k s).1, hlow, hhigh, shifts_enc_snk hk]
  rfl

/-- Settles O32: the shift steps from the narrowed interval are those of its leading bytes. -/
theorem encoderRenormClosedForm : Obligations.EncoderRenormClosedForm := by
  intro s nl nh hnl hnh
  rw [renorm_eq_shifts, shifts_enc_eq (leadingBytes_le _ _)]
  simp only [State.setCoder_low, State.setCoder_high, word_toNat hnl, word_toNat hnh]
  rfl

/-! ### The bytes of the source (20_memory.md R52, R57) -/

/-- `k` bytes of a list from index `p` on, read big-endian, with zeros past its end. -/
def bytesFrom (l : List Byte) (p : Nat) : Nat → Nat
  | 0 => 0
  | k + 1 => bytesFrom l p k * 256 + (l.getD (p + k) 0#8).toNat

theorem srcBytes_eq (s : State) (k : Nat) : s.srcBytes k = bytesFrom s.src s.inPos.toNat k := by
  induction k with
  | zero => rfl
  | succ k ih => rw [State.srcBytes, ih]; rfl

/-- A cursor that stopped at the end of the source gives the byte that one running past it would: zero. -/
theorem srcByte_min (s : State) (n : Nat) : s.srcByte (min n s.src.length) = s.srcByte n := by
  rcases Nat.le_total n s.src.length with h | h
  · rw [min_eq_left h]
  · rw [min_eq_right h, State.srcByte, State.srcByte, List.getD_eq_default _ _ h, List.getD_eq_default _ _ le_rfl]

/-- `CODE` after `k` shift steps of the decoder. -/
theorem shifts_code (k : Nat) {s : State} (hpos : s.inPos.toNat ≤ s.src.length) (hlen : s.src.length < 2 ^ 32) :
    (State.shifts true k s).code = BitVec.ofNat 32 (s.code.toNat * 256 ^ k + s.srcBytes k) := by
  induction k with
  | zero => simp [State.shifts, State.srcBytes]
  | succ k ih =>
    have hsrc : (State.shifts true k s).src = s.src := by rw [shifts_dec_frame]
    have hbyte : (State.shifts true k s).srcByte (State.shifts true k s).inPos.toNat =
        s.srcByte (s.inPos.toNat + k) := by
      rw [(shifts_dec_cursor k s hpos hlen).1, ← srcByte_min s (s.inPos.toNat + k), State.srcByte, hsrc]; rfl
    refine ofNat_toNat_eq ?_
    rw [shifts_succ, shiftOut_code, ih, hbyte, BitVec.toNat_ofNat, State.srcBytes, pow_succ 256 k, ← Nat.mul_assoc]
    have hlt := s.srcByte_lt (s.inPos.toNat + k)
    generalize s.code.toNat * 256 ^ k = c
    omega

/-- `k` shift steps of the decoder, in closed form. -/
theorem shifts_dec_eq {k : Nat} (hk : k ≤ 4) {s : State} (hpos : s.inPos.toNat ≤ s.src.length)
    (hlen : s.src.length < 2 ^ 32) : State.shifts true k s = s.decodedBy s.low.toNat s.high.toNat k := by
  obtain ⟨hlow, hhigh⟩ := shifts_ends true hk s
  obtain ⟨hcursor, hpend⟩ := shifts_dec_cursor k s hpos hlen
  have hinPos : (State.shifts true k s).inPos = BitVec.ofNat 32 (min (s.inPos.toNat + k) s.src.length) :=
    ofNat_toNat_eq (hcursor.trans (Nat.mod_eq_of_lt (by omega)).symm)
  rw [shifts_dec_frame, hlow, hhigh, shifts_code k hpos hlen, hinPos, hpend]
  rfl

/-- The bytes read do not depend on the coder registers. -/
theorem setCoder_decodedBy (s : State) (lo hi nl nh k : Nat) :
    (s.setCoder lo hi).decodedBy nl nh k = s.decodedBy nl nh k := by
  simp only [State.decodedBy, srcBytes_eq]
  rfl

/-- Settles O33: the shift steps from the narrowed interval are those of its leading bytes. -/
theorem decoderRenormClosedForm : Obligations.DecoderRenormClosedForm := by
  intro s nl nh hnl hnh hpos hlen
  rw [renorm_eq_shifts, shifts_dec_eq (s := s.setCoder nl nh) (leadingBytes_le _ _) hpos hlen]
  simp only [State.setCoder_low, State.setCoder_high, word_toNat hnl, word_toNat hnh]
  exact setCoder_decodedBy s nl nh nl nh _

/-! ### When it ends (41_range_coder.md R104, R105) -/

theorem range_le (s : State) : s.range ≤ 2 ^ 32 := by
  have := s.high.isLt
  unfold State.range; omega

/-- From equal ends four shift steps leave the whole interval (R103). -/
theorem renorm_of_equal_ends (s : State) (dec : Bool) {n : Nat} (hn : n < 2 ^ 32) :
    ((s.setCoder n n).renorm dec).low = 0x00000000#32 ∧ ((s.setCoder n n).renorm dec).high = 0xFFFFFFFF#32 := by
  have hfour : leadingBytes (s.setCoder n n).low.toNat (s.setCoder n n).high.toNat = 4 :=
    (leadingBytes_eq_four_iff _ _).2 rfl
  obtain ⟨hlow, hhigh⟩ := shifts_ends dec le_rfl (s.setCoder n n)
  rw [renorm_eq_shifts, hfour, hlow, hhigh]
  simp only [State.setCoder_low, State.setCoder_high, word_toNat hn]
  constructor <;> refine (ofNat_toNat_eq ?_).symm <;> simp

/-- Settles O34: the ends do not depend on the direction of the bytes, and the encoder's are ordered and unsettled; for
the bound to be tight, a state needs no more than the two ends R105 names. -/
theorem renormEndsUnsettled : Obligations.RenormEndsUnsettled := by
  refine ⟨fun s dec nl nh hle hnh => ?_, { State.reset with low := 0x00FFFFFF#32, high := 0x01000000#32 }, ?_⟩
  · have hordered : (s.setCoder nl nh).Ordered false := by
      simp only [State.Ordered, State.setCoder_low, State.setCoder_high, word_toNat (hle.trans_lt hnh),
        word_toNat hnh]
      exact ⟨hle, by simp⟩
    obtain ⟨-, hend, hlt⟩ := renorm_ordered hordered
    rw [not_settled_iff] at hend
    rw [(renorm_ends (s.setCoder nl nh) dec).1, (renorm_ends (s.setCoder nl nh) dec).2]
    refine ⟨leadingBytes_le nl nh, leadingBytes_eq_four_iff nl nh, hlt, hend, ?_, fun x hx => ?_, fun heq => ?_⟩
    · rw [State.range, (renorm_ends (s.setCoder nl nh) dec).1, (renorm_ends (s.setCoder nl nh) dec).2]; omega
    · calc ((s.setCoder nl nh).renorm dec).range * x
          ≤ 2 ^ 32 * x := Nat.mul_le_mul_right x (range_le _)
        _ < 2 ^ 48 := by omega
    · subst heq
      exact renorm_of_equal_ends s false hnh
  · decide

end Sys2Proof.Machine

/-! The coder commands (41_range_coder.md R101, R106, R110 to R117): what `Narrow` answers from legal operands, and the
state each command completes with. -/

namespace Sys2Proof.Machine

/-! ### `Narrow` (41_range_coder.md R101, R106) -/

theorem narrow_badOperand {s : State} {lo hi tot : Nat} (h : ¬ GoodOperands lo hi tot) :
    s.narrow lo hi tot = .error .badOperand := by
  rcases narrow_cases s lo hi tot with ⟨-, e⟩ | ⟨hgood, -⟩ | ⟨hgood, -⟩
  · exact e
  · exact absurd hgood h
  · exact absurd hgood h

theorem narrow_emptyInterval {s : State} {lo hi tot : Nat} (h : GoodOperands lo hi tot)
    (hempty : s.range * hi / tot ≤ s.range * lo / tot) : s.narrow lo hi tot = .error .emptyInterval := by
  rcases narrow_cases s lo hi tot with ⟨hbad, -⟩ | ⟨-, -, e⟩ | ⟨-, hne, -⟩
  · exact absurd h hbad
  · exact e
  · exact absurd hempty (Nat.not_le.2 hne)

theorem narrow_nonempty {s : State} {lo hi tot : Nat} (h : GoodOperands lo hi tot)
    (hne : s.range * lo / tot < s.range * hi / tot) :
    s.narrow lo hi tot = .ok (s.low.toNat + s.range * lo / tot, s.low.toNat + s.range * hi / tot - 1) := by
  rcases narrow_cases s lo hi tot with ⟨hbad, -⟩ | ⟨-, hempty, -⟩ | ⟨-, -, e⟩
  · exact absurd h hbad
  · exact absurd hempty (Nat.not_le.2 hne)
  · exact e

/-- Settles O31: the two checks are `Narrow`'s branches, and a narrowed interval stays inside the old one. -/
theorem narrowContract : Obligations.NarrowContract := by
  intro s lo hi tot hs
  refine ⟨rfl, Nat.le_add_left 1 _, range_le s, fun hbad => narrow_badOperand (by unfold GoodOperands; omega),
    fun htot hlt hle hempty => narrow_emptyInterval ⟨htot, hlt, hle⟩ hempty, fun htot hlt hle hne => ?_⟩
  have hnarrow := narrow_nonempty ⟨htot, hlt, hle⟩ hne
  exact ⟨_, _, hnarrow, rfl, rfl, narrow_ok s hnarrow hs⟩

/-- A range that is at least the total keeps every interval of legal operands non-empty (R106). -/
theorem scaled_lt_of_le_range {r lo hi tot : Nat} (h : GoodOperands lo hi tot) (hr : tot ≤ r) :
    r * lo / tot < r * hi / tot := by
  obtain ⟨htot, hlt, -⟩ := h
  calc r * lo / tot < (r * lo + tot) / tot := by rw [Nat.add_div_right _ (by omega)]; omega
    _ ≤ r * hi / tot := Nat.div_le_div_right (by nlinarith)

/-- Settles O35: the range is below the total, so the ends are close, and ends with different top bytes that are close
have neighbouring ones. -/
theorem emptyIntervalNeedsStraddle : Obligations.EmptyIntervalNeedsStraddle := by
  intro s lo hi tot hlt hunsettled htot hempty
  have hrange : s.range < tot := by
    by_contra hn
    rcases narrow_cases s lo hi tot with ⟨-, e⟩ | ⟨hgood, hle, -⟩ | ⟨-, -, e⟩
    · rw [e] at hempty; cases hempty
    · exact absurd (scaled_lt_of_le_range hgood (Nat.not_lt.1 hn)) (Nat.not_lt.2 hle)
    · rw [e] at hempty; cases hempty
  have htop : s.low.toNat / 2 ^ 24 ≠ s.high.toNat / 2 ^ 24 := by
    rw [← not_settled_iff] at hunsettled
    exact fun h => by rw [(settled_iff s).2 h] at hunsettled; cases hunsettled
  have hwidth : s.range = s.high.toNat - s.low.toNat + 1 := rfl
  exact ⟨hrange, by omega, by omega⟩

/-! ### Starting and ending a session (41_range_coder.md R110, R112, R113) -/

/-- Settles O36. -/
theorem encInitCompletes : Obligations.EncInitCompletes := fun _ => rfl

theorem needMode_ok {s : State} {m : Mode} (h : s.mode = m) : s.needMode m = .ok () := if_pos h

/-- Settles O38: the mode check passes, and the four bytes join the sink one after the other. -/
theorem encFinishCompletes : Obligations.EncFinishCompletes := by
  intro s hmode
  change execRcEncFinish s = _
  rw [execRcEncFinish, needMode_ok hmode, bind_ok, settle_ok]
  simp only [State.snkPut, State.setMode, List.append_assoc, List.cons_append, List.nil_append]

/-- On the whole interval a shift step of the decoder does no more than read a byte. -/
theorem shiftOut_whole {s : State} (hlow : s.low = 0x00000000#32) (hhigh : s.high = 0xFFFFFFFF#32) :
    s.shiftOut true = s.shiftCode := by
  have hl : shl8 s.low = s.low := by rw [hlow]; decide
  have hh : shl8 s.high + 0xFF#32 = s.high := by rw [hhigh]; decide
  rw [shiftOut_dec, hl, hh]
  exact (shiftCode_frame s).symm

/-- Four reads on the whole interval are four shift steps of the decoder. -/
theorem shiftCode_four {s : State} (hlow : s.low = 0x00000000#32) (hhigh : s.high = 0xFFFFFFFF#32) :
    s.shiftCode.shiftCode.shiftCode.shiftCode = State.shifts true 4 s := by
  simp only [State.shifts, shiftOut_whole, shiftCode_low, shiftCode_high, hlow, hhigh]

/-- Settles O39: the four reads are the four shift steps of a decoder on the whole interval. -/
theorem decInitCompletes : Obligations.DecInitCompletes := by
  intro s hpos hlen
  change execRcDecInit s = _
  rw [execRcDecInit, shiftCode_four rfl rfl, shifts_dec_eq le_rfl]
  · simp [State.decodedBy, srcBytes_eq, State.setCoder, State.setMode] <;> rfl
  · exact hpos
  · exact hlen

/-! ### Coding one interval (41_range_coder.md R111, R115) -/

/-- `RC_ENC` renormalizes the interval that `Narrow` answers. -/
theorem exec_rcEnc_of_narrow {s : State} {iv : IvOperand} {lo hi tot nl nh : Nat} (hmode : s.mode = .enc)
    (hiv : s.interval iv = (lo, hi, tot)) (hnarrow : s.narrow lo hi tot = .ok (nl, nh)) :
    exec (.rcEnc iv) s = .next ((s.setCoder nl nh).renorm false) := by
  change execRcEnc iv s = _
  rw [execRcEnc, needMode_ok hmode, hiv]
  simp only [bind_ok, hnarrow, settle_ok]

/-- `RC_DEC` renormalizes the interval that `Narrow` answers, if it holds `CODE`. -/
theorem exec_rcDec_of_narrow {s : State} {iv : IvOperand} {lo hi tot nl nh : Nat} (hmode : s.mode = .dec)
    (hiv : s.interval iv = (lo, hi, tot)) (hnarrow : s.narrow lo hi tot = .ok (nl, nh)) (hle : nl ≤ s.code.toNat)
    (hge : s.code.toNat ≤ nh) : exec (.rcDec iv) s = .next ((s.setCoder nl nh).renorm true) := by
  change execRcDec iv s = _
  rw [execRcDec, needMode_ok hmode, hiv]
  simp only [bind_ok, hnarrow]
  rw [if_neg (by omega), settle_ok]

/-- A narrowed interval is a pair of 32-bit numbers. -/
theorem narrow_lt {s : State} {lo hi tot nl nh : Nat} (hs : s.low.toNat ≤ s.high.toNat)
    (hnarrow : s.narrow lo hi tot = .ok (nl, nh)) : nl < 2 ^ 32 ∧ nh < 2 ^ 32 := by
  obtain ⟨-, hle, hhigh⟩ := narrow_ok s hnarrow hs
  have := s.high.isLt
  omega

/-- `RC_ENC` in closed form, from what `Narrow` answers. -/
theorem exec_rcEnc_eq {s : State} {iv : IvOperand} {lo hi tot nl nh : Nat} (hmode : s.mode = .enc)
    (hiv : s.interval iv = (lo, hi, tot)) (hs : s.low.toNat ≤ s.high.toNat)
    (hnarrow : s.narrow lo hi tot = .ok (nl, nh)) :
    exec (.rcEnc iv) s = .next (s.encodedBy nl nh (leadingBytes nl nh)) := by
  obtain ⟨hnl, hnh⟩ := narrow_lt hs hnarrow
  rw [exec_rcEnc_of_narrow hmode hiv hnarrow, encoderRenormClosedForm s nl nh hnl hnh]

/-- `RC_DEC` in closed form, from what `Narrow` answers. -/
theorem exec_rcDec_eq {s : State} {iv : IvOperand} {lo hi tot nl nh : Nat} (hmode : s.mode = .dec)
    (hiv : s.interval iv = (lo, hi, tot)) (hs : s.low.toNat ≤ s.high.toNat) (hpos : s.inPos.toNat ≤ s.src.length)
    (hlen : s.src.length < 2 ^ 32) (hnarrow : s.narrow lo hi tot = .ok (nl, nh)) (hle : nl ≤ s.code.toNat)
    (hge : s.code.toNat ≤ nh) : exec (.rcDec iv) s = .next (s.decodedBy nl nh (leadingBytes nl nh)) := by
  obtain ⟨hnl, hnh⟩ := narrow_lt hs hnarrow
  rw [exec_rcDec_of_narrow hmode hiv hnarrow hle hge, decoderRenormClosedForm s nl nh hnl hnh hpos hlen]

/-- Settles O37: legal operands with a non-empty scaled interval are narrowed, and `Renorm` has its closed form. -/
theorem encCompletes : Obligations.EncCompletes := by
  rintro s iv lo hi tot nl nh hmode hiv hs htot hlt hle hne rfl rfl
  exact exec_rcEnc_eq hmode hiv hs (narrow_nonempty ⟨htot, hlt, hle⟩ hne)

/-- Settles O41: as for the encoder, and an interval that holds `CODE` passes the check for `DESYNC`. -/
theorem decCompletes : Obligations.DecCompletes := by
  rintro s iv lo hi tot nl nh hmode hiv hs hpos hlen htot hlt hle hne rfl rfl hcode hcode'
  exact exec_rcDec_eq hmode hiv hs hpos hlen (narrow_nonempty ⟨htot, hlt, hle⟩ hne) hcode hcode'

/-! ### Asking for the frequency (41_range_coder.md R114, R116, R117) -/

/-- The frequency `RC_GETFREQ` scales from an offset into the interval, in a range `r`. -/
def scaledFreq (r c tot : Nat) : Nat := ((c + 1) * tot - 1) / r

/-- The scaled frequency points into `[lo, hi)` exactly when the offset is inside the narrowed interval (R117). -/
theorem scaledFreq_mem_iff {r c lo hi tot : Nat} (hr : 0 < r) (htot : 0 < tot) :
    (lo ≤ scaledFreq r c tot ∧ scaledFreq r c tot < hi) ↔ (r * lo / tot ≤ c ∧ c < r * hi / tot) := by
  have hpos : 0 < (c + 1) * tot := Nat.mul_pos (Nat.succ_pos c) htot
  have hlow : lo ≤ scaledFreq r c tot ↔ r * lo / tot ≤ c := by
    rw [scaledFreq, Nat.le_div_iff_mul_le hr, ← Nat.lt_succ_iff (n := c), Nat.div_lt_iff_lt_mul htot, Nat.mul_comm lo r,
      Nat.succ_eq_add_one]
    omega
  have hhigh : scaledFreq r c tot < hi ↔ c < r * hi / tot := by
    rw [scaledFreq, Nat.div_lt_iff_lt_mul hr, Nat.lt_iff_add_one_le (m := c), Nat.le_div_iff_mul_le htot,
      Nat.mul_comm hi r]
    omega
  exact and_congr hlow hhigh

/-- An offset inside the range scales to a frequency below the total (R116). -/
theorem scaledFreq_lt {r c tot : Nat} (hc : c < r) (htot : 0 < tot) : scaledFreq r c tot < tot := by
  have hwhole := (scaledFreq_mem_iff (lo := 0) (hi := tot) (Nat.zero_lt_of_lt hc) htot).2
    ⟨by simp, by rwa [Nat.mul_div_cancel _ htot]⟩
  exact hwhole.2

theorem exec_rcGetfreq_eq {s : State} {o : TotOperand} (hmode : s.mode = .dec) (htot : s.totOf o ≠ 0) :
    exec (.rcGetfreq o) s = .next (s.setFreq (scaledFreq s.range (s.code.toNat - s.low.toNat) (s.totOf o))) := by
  change execRcGetfreq o s = _
  rw [execRcGetfreq, needMode_ok hmode]
  simp only [bind_ok, if_neg htot, settle_ok]
  rfl

/-- With `CODE` in the interval the scaled frequency is below the total, so `R_F` holds it whole (R116). -/
theorem setFreq_scaledFreq {s : State} {tot : Nat} (hlow : s.low.toNat ≤ s.code.toNat)
    (hhigh : s.code.toNat ≤ s.high.toNat) (htot : tot ≠ 0) (hfits : tot < 2 ^ 16) :
    (s.setFreq (scaledFreq s.range (s.code.toNat - s.low.toNat) tot)).rF.toNat =
      scaledFreq s.range (s.code.toNat - s.low.toNat) tot ∧
    scaledFreq s.range (s.code.toNat - s.low.toNat) tot < tot := by
  have hlt : scaledFreq s.range (s.code.toNat - s.low.toNat) tot < tot :=
    scaledFreq_lt (by unfold State.range; omega) (Nat.pos_of_ne_zero htot)
  refine ⟨?_, hlt⟩
  rw [State.setFreq_rF, BitVec.toNat_ofNat, Nat.mod_eq_of_lt (hlt.trans hfits)]

/-- Settles O40: `CODE - LOW` is below the range, so the frequency is below the total and fits. -/
theorem getfreqCompletes : Obligations.GetfreqCompletes := by
  intro s o hmode hlow hhigh htot hfits
  obtain ⟨hval, hlt⟩ := setFreq_scaledFreq hlow hhigh htot hfits
  exact ⟨_, exec_rcGetfreq_eq hmode htot, rfl, hval, by omega, by omega⟩

/-- An interval that holds the scaled frequency of `CODE` is narrowed to one that holds `CODE` (R117). -/
theorem narrow_of_scaledFreq {s : State} {lo hi tot : Nat} (hgood : GoodOperands lo hi tot)
    (hlow : s.low.toNat ≤ s.code.toNat) (hle : lo ≤ scaledFreq s.range (s.code.toNat - s.low.toNat) tot)
    (hlt : scaledFreq s.range (s.code.toNat - s.low.toNat) tot < hi) :
    ∃ nl nh, s.narrow lo hi tot = .ok (nl, nh) ∧ nl ≤ s.code.toNat ∧ s.code.toNat ≤ nh := by
  obtain ⟨hql, hqh⟩ := (scaledFreq_mem_iff (r := s.range) (Nat.succ_pos _) (Nat.pos_of_ne_zero hgood.1)).1 ⟨hle, hlt⟩
  exact ⟨_, _, narrow_nonempty hgood (hql.trans_lt hqh), by omega, by omega⟩

/-- `Renorm` leaves the fault fields alone. -/
theorem renorm_dec_fault (s : State) : (s.renorm true).fault = s.fault ∧ (s.renorm true).cause = s.cause := by
  rw [renorm_dec_frame]; exact ⟨rfl, rfl⟩

/-- Bad operands are all that `RC_DEC` can fault on in DEC mode when its interval holds the scaled frequency. -/
theorem exec_rcDec_after_getfreq {s v : State} {iv : IvOperand} {lo hi tot : Nat} (hmode : s.mode = .dec)
    (hiv : s.interval iv = (lo, hi, tot)) (hlow : s.low.toNat ≤ s.code.toNat)
    (hle : lo ≤ scaledFreq s.range (s.code.toNat - s.low.toNat) tot)
    (hlt : scaledFreq s.range (s.code.toNat - s.low.toNat) tot < hi) (h : exec (.rcDec iv) s = .next v) :
    (¬ GoodOperands lo hi tot ∧ v.cause = .badOperand) ∨ (v.fault = s.fault ∧ v.cause = s.cause) := by
  by_cases hgood : GoodOperands lo hi tot
  · obtain ⟨nl, nh, hnarrow, hcode, hcode'⟩ := narrow_of_scaledFreq hgood hlow hle hlt
    rw [exec_rcDec_of_narrow hmode hiv hnarrow hcode hcode'] at h
    cases h
    exact .inr (renorm_dec_fault _)
  · change execRcDec iv s = _ at h
    rw [execRcDec, needMode_ok hmode, hiv] at h
    simp only [bind_ok, narrow_badOperand hgood, bind_error, settle_error] at h
    cases h
    exact .inl ⟨hgood, rfl⟩

/-- Settles O42: the query leaves `R_F` at the scaled frequency of `CODE`, and `RC_DEC` reads the same registers. -/
theorem decodeAfterGetfreqNeverDesyncs : Obligations.DecodeAfterGetfreqNeverDesyncs := by
  intro s t u v o iv lo hi hmode hlow hhigh htot hfits ht humode hulow huhigh hucode hufault hucause huiv hle hlt hv
  rw [exec_rcGetfreq_eq hmode htot] at ht
  cases ht
  rw [(setFreq_scaledFreq hlow hhigh htot hfits).1] at hle hlt
  have hrange : u.range = s.range := by rw [State.range, State.range, hulow, huhigh]; rfl
  rw [State.setFreq_code] at hucode
  rw [State.setFreq_low] at hulow
  rw [← hrange, ← hucode, ← hulow] at hle hlt
  rcases exec_rcDec_after_getfreq humode huiv (by rw [hulow, hucode]; exact hlow) hle hlt hv with
    ⟨hbad, hcause⟩ | ⟨hfault, hcause⟩
  · exact ⟨by simp [hcause], by simp [hcause], fun hle' => absurd ⟨htot, by omega, hle'⟩ hbad⟩
  · exact ⟨by simp [hcause, hucause], by simp [hcause, hucause], fun _ => hfault.trans hufault⟩

end Sys2Proof.Machine

/-! An encoder session and the decoder that follows it (41_range_coder.md R118). The four bytes of the output from the
encoder's emission count on, read big-endian, lie in the encoder's interval: so for the flush, and each `RC_ENC` carries
it back to the interval it narrowed. These four bytes are what the decoder holds in `CODE`. -/

namespace Sys2Proof.Machine

/-! ### Bytes read big-endian (20_memory.md R57) -/

theorem bytesFrom_lt (l : List Byte) (p k : Nat) : bytesFrom l p k < 256 ^ k := by
  induction k with
  | zero => simp [bytesFrom]
  | succ k ih =>
    have hbyte : (l.getD (p + k) 0#8).toNat < 256 := (l.getD (p + k) 0#8).isLt
    rw [bytesFrom, pow_succ]
    omega

theorem bytesFrom_add (l : List Byte) (p j k : Nat) :
    bytesFrom l p (j + k) = bytesFrom l p j * 256 ^ k + bytesFrom l (p + j) k := by
  induction k with
  | zero => simp [bytesFrom]
  | succ k ih => rw [← Nat.add_assoc, bytesFrom, bytesFrom, ih, pow_succ, Nat.add_assoc p j k]; ring

theorem bytesFrom_append (l t : List Byte) (k : Nat) : bytesFrom (l ++ t) l.length k = bytesFrom t 0 k := by
  induction k with
  | zero => rfl
  | succ k ih =>
    rw [bytesFrom, bytesFrom, ih, List.getD_append_right _ _ _ _ (Nat.le_add_right _ _), Nat.add_sub_cancel_left,
      Nat.zero_add]

@[simp] theorem length_topBytes (v k : Nat) : (topBytes v k).length = k := by simp [topBytes]

theorem topBytes_succ (v k : Nat) : topBytes v (k + 1) = topBytes v k ++ [BitVec.ofNat 8 (v / 256 ^ (3 - k))] := by
  simp [topBytes, List.range_succ]

/-- The leading bytes of a number, read back. -/
theorem bytesFrom_topBytes {v k : Nat} (hv : v < 2 ^ 32) (hk : k ≤ 4) (t : List Byte) :
    bytesFrom (topBytes v k ++ t) 0 k = v / 256 ^ (4 - k) := by
  induction k generalizing t with
  | zero => exact (Nat.div_eq_of_lt hv).symm
  | succ k ih =>
    have hbyte : (topBytes v (k + 1) ++ t).getD k 0#8 = BitVec.ofNat 8 (v / 256 ^ (3 - k)) := by
      rw [topBytes_succ, List.append_assoc, List.getD_append_right _ _ _ _ (by simp)]
      simp
    rw [bytesFrom, Nat.zero_add, hbyte, topBytes_succ, List.append_assoc, ih (by omega), BitVec.toNat_ofNat]
    have hk' : k < 4 := hk
    clear ih hbyte
    interval_cases k <;> omega

/-- The four bytes the flush emits are those of `LOW` (R112). -/
theorem topBytes_four (v : Word) :
    topBytes v.toNat 4 = [v.extractLsb' 24 8, v.extractLsb' 16 8, v.extractLsb' 8 8, v.extractLsb' 0 8] := by
  have hbyte : ∀ j, v.extractLsb' j 8 = BitVec.ofNat 8 (v.toNat / 2 ^ j) := fun j =>
    ofNat_toNat_eq (by rw [BitVec.extractLsb'_toNat, Nat.shiftRight_eq_div_pow])
  simp only [hbyte]
  rfl

/-- Shifting in the next `k` bytes moves a window of four bytes by `k`. -/
theorem bytesFrom_slide (l : List Byte) (p k : Nat) :
    (bytesFrom l p 4 * 256 ^ k + bytesFrom l (p + 4) k) % 2 ^ 32 = bytesFrom l (p + k) 4 := by
  rw [← bytesFrom_add, Nat.add_comm 4 k, bytesFrom_add, show 256 ^ 4 = 2 ^ 32 by norm_num, Nat.mul_add_mod_self_right]
  exact Nat.mod_eq_of_lt (bytesFrom_lt l (p + k) 4)

/-- If the window after the bytes that `nl` and `nh` share is inside the shifted interval, the window from these bytes
on is inside `[nl, nh]`. -/
theorem bytesFrom_mem_of_slide {l : List Byte} {p k nl nh : Nat} (hk : k = leadingBytes nl nh) (hnl : nl < 2 ^ 32)
    (hnh : nh < 2 ^ 32) (hlead : bytesFrom l p k = nl / 256 ^ (4 - k))
    (hle : nl * 256 ^ k % 2 ^ 32 ≤ bytesFrom l (p + k) 4)
    (hge : bytesFrom l (p + k) 4 ≤ (nh * 256 ^ k + (256 ^ k - 1)) % 2 ^ 32) :
    nl ≤ bytesFrom l p 4 ∧ bytesFrom l p 4 ≤ nh := by
  have hk4 : k ≤ 4 := hk ▸ leadingBytes_le nl nh
  have hshared : nl / 256 ^ (4 - k) = nh / 256 ^ (4 - k) := by rw [hk]; exact div_eq_of_leadingBytes hnl hnh
  have hwindow : bytesFrom l p 4 = nl / 256 ^ (4 - k) * 256 ^ (4 - k) + bytesFrom l (p + k) (4 - k) := by
    rw [← hlead, ← bytesFrom_add, Nat.add_sub_cancel' hk4]
  have hslid : bytesFrom l (p + k) 4 = bytesFrom l (p + k) (4 - k) * 256 ^ k + bytesFrom l (p + k + (4 - k)) k := by
    rw [← bytesFrom_add, Nat.sub_add_cancel hk4]
  have hX := bytesFrom_lt l (p + k) (4 - k)
  have hY := bytesFrom_lt l (p + k + (4 - k)) k
  rw [hslid] at hle hge
  rw [hwindow]
  generalize bytesFrom l (p + k) (4 - k) = X at *
  generalize bytesFrom l (p + k + (4 - k)) k = Y at *
  clear hk hlead hwindow hslid
  interval_cases k <;> omega

/-! ### The encoder -/

/-- An encoder in a session that no fault has stopped. -/
structure State.Encoding (e : State) : Prop where
  mode : e.mode = .enc
  fault : e.fault = false
  ordered : e.low.toNat ≤ e.high.toNat

/-- `out` is what the encoder has emitted and four bytes or more, and the next four lie in its interval. -/
structure State.Leads (e : State) (out : List Byte) : Prop where
  emitted : e.snk <+: out
  flushed : e.snk.length + 4 ≤ out.length
  low_le : e.low.toNat ≤ bytesFrom out e.snk.length 4
  le_high : bytesFrom out e.snk.length 4 ≤ e.high.toNat

/-- The flush ends with the four bytes of `LOW`. -/
theorem leads_of_finish {e f : State} (he : e.Encoding) (h : exec .rcEncFinish e = .next f) :
    e.Leads f.snk ∧ f.snk.length = e.snk.length + 4 := by
  rw [encFinishCompletes e he.mode, ← topBytes_four] at h
  cases h
  have hwindow : bytesFrom (e.snk ++ topBytes e.low.toNat 4) e.snk.length 4 = e.low.toNat := by
    rw [bytesFrom_append, ← List.append_nil (topBytes _ _), bytesFrom_topBytes e.low.isLt le_rfl]
    exact Nat.div_one _
  exact ⟨⟨⟨_, rfl⟩, by simp, hwindow.ge, hwindow.le.trans he.ordered⟩, by simp⟩

/-- The pair `Narrow` answers, and that its operands passed the two checks. -/
theorem narrow_eq_ok {s : State} {lo hi tot nl nh : Nat} (h : s.narrow lo hi tot = .ok (nl, nh)) :
    GoodOperands lo hi tot ∧ s.range * lo / tot < s.range * hi / tot ∧ nl = s.low.toNat + s.range * lo / tot ∧
      nh = s.low.toNat + s.range * hi / tot - 1 := by
  rcases narrow_cases s lo hi tot with ⟨-, e⟩ | ⟨-, -, e⟩ | ⟨hgood, hne, e⟩ <;> rw [e] at h <;> cases h
  exact ⟨hgood, hne, rfl, rfl⟩

/-- Two coders with the same interval narrow it alike. -/
theorem narrow_congr {s t : State} (hlow : s.low = t.low) (hhigh : s.high = t.high) (lo hi tot : Nat) :
    s.narrow lo hi tot = t.narrow lo hi tot := by
  unfold State.narrow State.range
  rw [hlow, hhigh]

/-- What a clean `RC_ENC` did. -/
theorem narrow_of_rcEnc_clean {e e' : State} {iv : IvOperand} (h : exec (.rcEnc iv) e = .next e')
    (hclean : e'.fault = false) :
    ∃ nl nh, e.narrow (e.interval iv).1 (e.interval iv).2.1 (e.interval iv).2.2 = .ok (nl, nh) ∧
      e' = (e.setCoder nl nh).renorm false := by
  have hbody := (settle_completes_iff hclean).1 h
  rcases needMode_cases e .enc with ⟨-, hmode⟩ | ⟨-, hmode⟩ <;> rw [hmode] at hbody
  · cases hbody
  · rcases narrow_cases e (e.interval iv).1 (e.interval iv).2.1 (e.interval iv).2.2 with
      ⟨-, hn⟩ | ⟨-, -, hn⟩ | ⟨-, -, hn⟩ <;> simp only [bind_ok, bind_error, hn] at hbody
    · cases hbody
    · cases hbody
    · exact ⟨_, _, hn, (Except.ok.inj hbody).symm⟩

/-- A clean `RC_ENC` goes on with the session. -/
theorem encoding_rcEnc {e e' : State} {iv : IvOperand} (he : e.Encoding) (h : exec (.rcEnc iv) e = .next e')
    (hclean : e'.fault = false) : e'.Encoding := by
  obtain ⟨nl, nh, hnarrow, rfl⟩ := narrow_of_rcEnc_clean h hclean
  obtain ⟨-, hle, -⟩ := narrow_ok e hnarrow he.ordered
  obtain ⟨hnl, hnh⟩ := narrow_lt he.ordered hnarrow
  have hordered : (e.setCoder nl nh).Ordered false := by
    simp only [State.Ordered, State.setCoder_low, State.setCoder_high, word_toNat hnl, word_toNat hnh]
    exact ⟨hle, by simp⟩
  refine ⟨?_, hclean, (renorm_ordered hordered).1.1⟩
  rw [(renorm_enc_frame _).1]
  exact he.mode

/-- A clean `RC_ENC` carries the window of the output back: it lies in the narrowed interval, so in the whole one. -/
theorem leads_of_rcEnc {e e' : State} {iv : IvOperand} {out : List Byte} (he : e.Encoding)
    (h : exec (.rcEnc iv) e = .next e') (hclean : e'.fault = false) (hlead : e'.Leads out) :
    e.Leads out ∧ ∃ nl nh, e.narrow (e.interval iv).1 (e.interval iv).2.1 (e.interval iv).2.2 = .ok (nl, nh) ∧
      e' = e.encodedBy nl nh (leadingBytes nl nh) ∧ nl ≤ bytesFrom out e.snk.length 4 ∧
      bytesFrom out e.snk.length 4 ≤ nh := by
  obtain ⟨nl, nh, hnarrow, hrenorm⟩ := narrow_of_rcEnc_clean h hclean
  obtain ⟨hlow, -, hhigh⟩ := narrow_ok e hnarrow he.ordered
  obtain ⟨hnl, hnh⟩ := narrow_lt he.ordered hnarrow
  have heq := hrenorm.trans (encoderRenormClosedForm e nl nh hnl hnh)
  obtain ⟨⟨rest, rfl⟩, hflushed, hle, hge⟩ := hlead
  subst heq
  simp only [State.encodedBy, List.length_append, length_topBytes, BitVec.toNat_ofNat, List.append_assoc] at *
  have hread : bytesFrom (e.snk ++ (topBytes nl (leadingBytes nl nh) ++ rest)) e.snk.length (leadingBytes nl nh) =
      nl / 256 ^ (4 - leadingBytes nl nh) := by
    rw [bytesFrom_append, bytesFrom_topBytes hnl (leadingBytes_le nl nh)]
  obtain ⟨hmem, hmem'⟩ := bytesFrom_mem_of_slide rfl hnl hnh hread hle hge
  have hlead : e.Leads _ := ⟨⟨_, rfl⟩, by simp; omega, hlow.trans hmem, hmem'.trans hhigh⟩
  exact ⟨hlead, nl, nh, hnarrow, rfl, hmem, hmem'⟩

/-- The same along a clean run of `RC_ENC`s. -/
theorem leads_of_run {ivs : List (Nat × Nat × Nat)} {e e' : State} {out : List Byte} (he : e.Encoding)
    (h : runClean (ivs.map fun iv => .rcEnc (immediate iv)) e = some e') :
    e'.Encoding ∧ (e'.Leads out → e.Leads out) := by
  induction ivs generalizing e with
  | nil => cases h; exact ⟨he, id⟩
  | cons iv ivs ih =>
    obtain ⟨t, ht, hclean, hrun⟩ := runClean_cons_some h
    obtain ⟨he', hback⟩ := ih (encoding_rcEnc he ht hclean) hrun
    exact ⟨he', fun hlead => (leads_of_rcEnc he ht hclean (hback hlead)).1⟩

/-! ### The decoder -/

/-- The decoder `d` of `out` is where the encoder `e` is: the same interval, and in `CODE` the four bytes after those
that `e` has emitted. -/
structure State.Follows (d e : State) (out : List Byte) : Prop where
  mode : d.mode = .dec
  fault : d.fault = false
  low : d.low = e.low
  high : d.high = e.high
  code : d.code.toNat = bytesFrom out e.snk.length 4
  src : d.src = out
  inPos : d.inPos.toNat = e.snk.length + 4
  pend : d.pend = false

/-- The decoder's next command queries a frequency inside the interval that the encoder coded next (R118, item 1). -/
theorem getfreq_of_follows {d e e' : State} {iv : Nat × Nat × Nat} {out : List Byte} (hd : d.Follows e out)
    (he : e.Encoding) (h : exec (.rcEnc (immediate iv)) e = .next e') (hclean : e'.fault = false)
    (hlead : e'.Leads out) (hfits : iv.2.2 < 2 ^ 16) :
    ∃ g, exec (.rcGetfreq (.imm iv.2.2)) d = .next g ∧ g.fault = false ∧ iv.1 ≤ g.rF.toNat ∧ g.rF.toNat < iv.2.1 := by
  obtain ⟨⟨-, -, hlow, hhigh⟩, nl, nh, hnarrow, -, hmem, hmem'⟩ := leads_of_rcEnc he h hclean hlead
  obtain ⟨hgood, hne, hnl, hnh⟩ := narrow_eq_ok ((narrow_congr hd.low hd.high _ _ _).trans hnarrow)
  rw [← hd.code] at hlow hhigh hmem hmem'
  rw [← hd.low] at hlow
  rw [← hd.high] at hhigh
  change GoodOperands iv.1 iv.2.1 iv.2.2 at hgood
  change d.range * iv.1 / iv.2.2 < d.range * iv.2.1 / iv.2.2 at hne
  change nl = d.low.toNat + d.range * iv.1 / iv.2.2 at hnl
  change nh = d.low.toNat + d.range * iv.2.1 / iv.2.2 - 1 at hnh
  refine ⟨_, exec_rcGetfreq_eq hd.mode hgood.1, hd.fault, ?_⟩
  rw [State.totOf, (setFreq_scaledFreq hlow hhigh hgood.1 hfits).1]
  exact (scaledFreq_mem_iff (r := d.range) (Nat.succ_pos _) (Nat.pos_of_ne_zero hgood.1)).2 ⟨by omega, by omega⟩

/-- `RC_DEC` follows `RC_ENC` (R118, items 2 and 3). -/
theorem follows_rcDec {d e e' : State} {iv : IvOperand} {out : List Byte} (hd : d.Follows e out) (he : e.Encoding)
    (hiv : d.interval iv = e.interval iv) (h : exec (.rcEnc iv) e = .next e') (hclean : e'.fault = false)
    (hlead : e'.Leads out) (hlen : out.length < 2 ^ 32) :
    ∃ d', exec (.rcDec iv) d = .next d' ∧ d'.Follows e' out := by
  obtain ⟨⟨-, hflushed, -, -⟩, nl, nh, hnarrow, rfl, hmem, hmem'⟩ := leads_of_rcEnc he h hclean hlead
  have hpos := hlead.flushed
  rw [State.encodedBy, List.length_append, length_topBytes] at hpos
  refine ⟨d.decodedBy nl nh (leadingBytes nl nh), ?_, ?_⟩
  · exact exec_rcDec_eq hd.mode hiv (by rw [hd.low, hd.high]; exact he.ordered)
      (by rw [hd.src, hd.inPos]; exact hflushed) (by rwa [hd.src])
      ((narrow_congr hd.low hd.high _ _ _).trans hnarrow) (by rwa [hd.code]) (by rwa [hd.code])
  · refine ⟨hd.mode, hd.fault, rfl, rfl, ?_, hd.src, ?_, ?_⟩
    · rw [State.decodedBy, BitVec.toNat_ofNat, srcBytes_eq, hd.code, hd.src, hd.inPos, bytesFrom_slide,
        State.encodedBy, List.length_append, length_topBytes]
    · rw [State.decodedBy, State.encodedBy, List.length_append, length_topBytes, BitVec.toNat_ofNat, hd.inPos, hd.src]
      omega
    · rw [State.decodedBy, hd.pend, hd.inPos, hd.src]
      simp; omega

/-- One symbol of the decoder session: the query writes `R_F` alone, so the decoder still follows at the `RC_DEC`. -/
theorem follows_symbol {d e e' : State} {iv : Nat × Nat × Nat} {out : List Byte} (hd : d.Follows e out)
    (he : e.Encoding) (h : exec (.rcEnc (immediate iv)) e = .next e') (hclean : e'.fault = false)
    (hlead : e'.Leads out) (hlen : out.length < 2 ^ 32) (hfits : iv.2.2 < 2 ^ 16) :
    ∃ d', runClean [.rcGetfreq (.imm iv.2.2), .rcDec (immediate iv)] d = some d' ∧ d'.Follows e' out := by
  obtain ⟨g, hg, hgfault, -⟩ := getfreq_of_follows hd he h hclean hlead hfits
  have hquery : g = { d with rF := g.rF } := by
    rcases exec_effect hg with ⟨c, -, rfl⟩ | heffect
    · cases hgfault
    · exact heffect
  have hgd : g.Follows e out := by
    rw [hquery]
    exact ⟨hd.mode, hd.fault, hd.low, hd.high, hd.code, hd.src, hd.inPos, hd.pend⟩
  obtain ⟨d', hd', hfollows⟩ := follows_rcDec hgd he rfl h hclean hlead hlen
  exact ⟨d', by rw [runClean_cons hg hgfault, runClean_cons hd' hfollows.fault, runClean_nil], hfollows⟩

/-- The decoder session follows the encoder session symbol by symbol. -/
theorem follows_run {ivs : List (Nat × Nat × Nat)} {d e e' : State} {out : List Byte} (hd : d.Follows e out)
    (he : e.Encoding) (h : runClean (ivs.map fun iv => .rcEnc (immediate iv)) e = some e') (hlead : e'.Leads out)
    (hlen : out.length < 2 ^ 32) (hfits : ∀ iv ∈ ivs, iv.2.2 < 2 ^ 16) :
    ∃ d', runClean (ivs.flatMap fun iv => [.rcGetfreq (.imm iv.2.2), .rcDec (immediate iv)]) d = some d' ∧
      d'.Follows e' out := by
  induction ivs generalizing d e with
  | nil => cases h; exact ⟨d, rfl, hd⟩
  | cons iv ivs ih =>
    obtain ⟨t, ht, hclean, hrun⟩ := runClean_cons_some h
    have het := encoding_rcEnc he ht hclean
    obtain ⟨d₁, hd₁, hfollows⟩ := follows_symbol hd he ht hclean ((leads_of_run het hrun).2 hlead) hlen
      (hfits iv List.mem_cons_self)
    obtain ⟨d', hd', hfollows'⟩ := ih hfollows het hrun fun iv hiv => hfits iv (List.mem_cons_of_mem _ hiv)
    exact ⟨d', by rw [List.flatMap_cons, runClean_append, hd₁, Option.bind_some, hd'], hfollows'⟩

/-! ### The two sessions (R118) -/

/-- `RC_ENC_INIT` opens a session with nothing emitted. -/
theorem runClean_encoding {s : State} (hs : s.fault = false) :
    ∃ e, e.Encoding ∧ e.low = 0x00000000#32 ∧ e.high = 0xFFFFFFFF#32 ∧ e.snk = [] ∧
      ∀ ivs, runClean (encoding ivs) s = runClean (ivs.map fun iv => .rcEnc (immediate iv)) e := by
  refine ⟨_, ?_, ?_, ?_, ?_, fun _ => runClean_cons (encInitCompletes s) hs⟩
  · exact ⟨rfl, hs, by simp⟩
  all_goals rfl

/-- `RC_DEC_INIT` opens a decoder session that follows an encoder which has emitted nothing. -/
theorem runClean_decoding {d e : State} {out : List Byte} (hd : d.fault = false) (hsrc : d.src = out)
    (hpos : d.inPos = 0#32) (hlen : out.length < 2 ^ 32) (hlead : e.Leads out) (hlow : e.low = 0x00000000#32)
    (hhigh : e.high = 0xFFFFFFFF#32) (hsnk : e.snk = []) :
    ∃ d₀, d₀.Follows e out ∧ ∀ ivs, runClean (decoding ivs) d =
      runClean (ivs.flatMap fun iv => [.rcGetfreq (.imm iv.2.2), .rcDec (immediate iv)]) d₀ := by
  subst hsrc
  have hfour := hlead.flushed
  rw [hsnk, List.length_nil, Nat.zero_add] at hfour
  have hstart : d.inPos.toNat = 0 := by rw [hpos]; rfl
  refine ⟨_, ?_, fun _ => runClean_cons (decInitCompletes d (by omega) hlen) hd⟩
  refine ⟨rfl, hd, hlow.symm, hhigh.symm, ?_, rfl, ?_, ?_⟩
  · rw [srcBytes_eq, hstart, hsnk]
    exact word_toNat (bytesFrom_lt _ _ 4)
  · rw [hstart, hsnk, List.length_nil, BitVec.toNat_ofNat]
    omega
  · simp; omega

/-- Settles O43: every part of the session is a clean run between two encoder states, the output leads on from each of
them, and the decoder follows from one to the next. -/
theorem encodeThenDecodeRoundTrip : Obligations.EncodeThenDecodeRoundTrip := by
  intro s d e f ivs hs hd hfit henc hfinish hsrc hpos hlen
  obtain ⟨e₀, he₀, hlow, hhigh, hsnk, hrunE⟩ := runClean_encoding hs
  rw [hrunE] at henc
  obtain ⟨he, hback⟩ := leads_of_run (out := f.snk) he₀ henc
  obtain ⟨hlead, hflushed⟩ := leads_of_finish he hfinish
  obtain ⟨d₀, hd₀, hrunD⟩ := runClean_decoding hd hsrc hpos hlen (hback hlead) hlow hhigh hsnk
  have hfits : ∀ iv ∈ ivs, iv.2.2 < 2 ^ 16 := fun iv hiv => by
    have hwell := hfit iv hiv
    simp only [immediate, IvOperand.wellFormed, Bool.and_eq_true, decide_eq_true_eq] at hwell
    exact hwell.2
  refine ⟨fun before after hsplit => ?_, fun d' hd' => ?_⟩
  · subst hsplit
    rw [List.map_append, runClean_append, Option.bind_eq_some_iff] at henc
    obtain ⟨e', hbefore, hafter⟩ := henc
    have he' := (leads_of_run (out := f.snk) he₀ hbefore).1
    obtain ⟨d', hd', hfollows⟩ := follows_run hd₀ he₀ hbefore ((leads_of_run he' hafter).2 hlead) hlen
      fun iv hiv => hfits iv (List.mem_append_left _ hiv)
    refine ⟨e', d', (hrunE before).trans hbefore, (hrunD before).trans hd', hfollows.low, hfollows.high,
      hfollows.inPos, hfollows.pend, ?_⟩
    rintro iv rest rfl
    obtain ⟨t, ht, hclean, hrest⟩ := runClean_cons_some hafter
    exact getfreq_of_follows hfollows he' ht hclean ((leads_of_run (encoding_rcEnc he' ht hclean) hrest).2 hlead)
      (hfits iv (by simp))
  · obtain ⟨t, ht, hfollows⟩ := follows_run hd₀ he₀ henc hlead hlen hfits
    rw [hrunD, ht] at hd'
    cases hd'
    exact ⟨hfollows.inPos.trans hflushed.symm, hfollows.pend⟩

end Sys2Proof.Machine

/-! The Model257 commands on a slot record that satisfies its invariant (42_model257.md R130 to R143): the interval of
every symbol fits the result registers, and each command completes with the record or the registers its rule gives. -/

namespace Sys2Proof.Machine

/-! ### Reading a valid slot (10_state.md R41) -/

/-- The slots of a sound state satisfy their invariant. -/
theorem State.Sound.slot_inv {s : State} {k : Nat} {m : Slot} (hs : s.Sound) (hk : s.slots[k]? = some m) : m.Inv := by
  obtain ⟨-, -, hslots, -⟩ := hs
  exact hslots m (getSlot_mem hk)

theorem half_toNat {n : Nat} (h : n < 2 ^ 16) : (BitVec.ofNat 16 n).toNat = n := Nat.mod_eq_of_lt h

/-- The total of a valid slot is below `2^15`, whatever its threshold (10_state.md R41). -/
theorem total_lt {m : Slot} (hv : m.valid = true) (hm : m.Inv) : m.total.toNat < 2 ^ 15 := by
  obtain ⟨-, -, hlt, -⟩ := hm hv
  have := m.thr_cases
  omega

/-- No symbol's interval ends beyond the total (42_model257.md R139). -/
theorem interval_le_total {m : Slot} (hv : m.valid = true) (hm : m.Inv) {i : Nat} (hi : i ≤ 256) :
    m.cumlo i + m.cntAt i ≤ m.total.toNat := by
  obtain ⟨htotal, -⟩ := hm hv
  rw [htotal, ← Slot.cumlo_succ]
  exact m.cumlo_mono (by omega)

/-- What `R_LO`, `R_HI` and `R_TOT` hold once a symbol's interval is written (42_model257.md R133, R134). -/
theorem setInterval_symbol (s : State) {m : Slot} (hv : m.valid = true) (hm : m.Inv) {i : Nat} (hi : i ≤ 256) :
    (s.setInterval (m.cumlo i) (m.cumlo i + m.cntAt i) m.total.toNat).rLo.toNat = m.cumlo i ∧
    (s.setInterval (m.cumlo i) (m.cumlo i + m.cntAt i) m.total.toNat).rHi.toNat = m.cumlo i + m.cntAt i ∧
    (s.setInterval (m.cumlo i) (m.cumlo i + m.cntAt i) m.total.toNat).rTot = m.total := by
  have hle := interval_le_total hv hm hi
  have hlt := total_lt hv hm
  exact ⟨half_toNat (by omega), half_toNat (by omega), by simp⟩

/-! ### What each command completes with -/

/-- A check of existence alone passes on every slot of the store (42_model257.md R132). -/
theorem getSlot_exists {s : State} {k : Nat} (h : k < s.slots.length) : ∃ m, s.getSlot k false = .ok m := by
  rcases getSlot_cases s k false with ⟨hle, -⟩ | ⟨-, -, hneed, -⟩ | ⟨m, -, -, hm⟩
  · omega
  · cases hneed
  · exact ⟨m, hm⟩

theorem exec_mInitEsc_eq {s : State} {k : Nat} (th : Bool) (h : k < s.slots.length) :
    exec (.mInitEsc k th) s = .next (s.putSlot k (Slot.escapeOnly th)) := by
  obtain ⟨m, hm⟩ := getSlot_exists h
  change execMInitEsc k th s = _
  rw [execMInitEsc, hm, bind_ok, settle_ok]

theorem exec_mInitUni_eq {s : State} {k : Nat} (th : Bool) (h : k < s.slots.length) :
    exec (.mInitUni k th) s = .next (s.putSlot k (Slot.uniform th)) := by
  obtain ⟨m, hm⟩ := getSlot_exists h
  change execMInitUni k th s = _
  rw [execMInitUni, hm, bind_ok, settle_ok]

section
variable {s : State} {k : Nat} {m : Slot} (hk : s.slots[k]? = some m) (hv : m.valid = true)
include hk hv

theorem exec_mCum_eq {o : SymOperand} (ho : s.symOf o ≤ 256) :
    exec (.mCum k o) s = .next
      (s.setInterval (m.cumlo (s.symOf o)) (m.cumlo (s.symOf o) + m.cntAt (s.symOf o)) m.total.toNat) := by
  change execMCum k o s = _
  rw [execMCum, getSlot_ok hk hv, bind_ok, getSym_ok ho, bind_ok, settle_ok]

theorem exec_mFind_eq {o : FreqOperand} {sym : Nat} (ho : s.freqOf o < m.total.toNat)
    (hsym : m.fenFind (s.freqOf o) = sym) :
    exec (.mFind k o) s = .next
      ((s.setSym sym).setInterval (m.cumlo sym) (m.cumlo sym + m.cntAt sym) m.total.toNat) := by
  change execMFind k o s = _
  rw [execMFind, getSlot_ok hk hv, bind_ok]
  simp only [if_neg (Nat.not_le.2 ho), settle_ok, hsym]

theorem exec_mBump_eq {o : SymOperand} (ho : s.symOf o ≤ 256) :
    exec (.mBump k o) s = .next ((s.putSlot k (m.bump (s.symOf o)).1).setRsc (m.bump (s.symOf o)).2) := by
  change execMBump k o s = _
  rw [execMBump, getSlot_ok hk hv, bind_ok, getSym_ok ho, bind_ok, settle_ok]

theorem exec_mTotal_eq : exec (.mTotal k) s = .next { s with rTot := m.total } := by
  change execMTotal k s = _
  rw [execMTotal, getSlot_ok hk hv, bind_ok, settle_ok, State.setTot, BitVec.ofNat_toNat,
    BitVec.setWidth_eq]

theorem exec_mCnt_eq {o : SymOperand} (ho : s.symOf o ≤ 256) :
    exec (.mCnt k o) s = .next (s.setCnt (m.cntAt (s.symOf o))) := by
  change execMCnt k o s = _
  rw [execMCnt, getSlot_ok hk hv, bind_ok, getSym_ok ho, bind_ok, settle_ok]

theorem exec_mUniq_eq : exec (.mUniq k) s = .next (s.setCnt m.uniq.toNat) := by
  change execMUniq k s = _
  rw [execMUniq, getSlot_ok hk hv, bind_ok, settle_ok]

end

/-! ### Init commands (42_model257.md R130, R131) -/

/-- Settles O46: both initial states satisfy the invariant, which gives the Fenwick array; the rest of each record is
read off its definition. -/
theorem initCommandsComplete : Obligations.InitCommandsComplete := by
  intro s k th h
  constructor
  · obtain ⟨-, -, -, -, -, -, hfen⟩ := escapeOnly_inv th (escapeOnly_valid th)
    refine ⟨_, exec_mInitEsc_eq th h, rfl, rfl, fun i hi => ?_, escapeOnly_cntAt th (by decide), rfl, rfl, hfen⟩
    rw [escapeOnly_cntAt th (hi.trans (by decide)), if_neg hi.ne]
  · obtain ⟨-, -, -, -, -, -, hfen⟩ := uniform_inv th (uniform_valid th)
    exact ⟨_, exec_mInitUni_eq th h, rfl, rfl, fun i hi => uniform_cntAt th (hi.trans (by decide)),
      uniform_cntAt th (by decide), rfl, rfl, hfen⟩

/-! ### Intervals and inverse lookup (42_model257.md R133, R134, R140) -/

/-- Settles O47: no interval ends beyond the total, and the total fits its register. -/
theorem cumCompletes : Obligations.CumCompletes := by
  intro s k o m hs hk hv ho
  have hm := hs.slot_inv hk
  have hle := interval_le_total hv hm ho
  obtain ⟨hlo, hhi, htot⟩ := setInterval_symbol s hv hm ho
  refine ⟨_, exec_mCum_eq hk hv ho, rfl, hlo, hhi, htot, ?_, ?_⟩
  · rwa [hhi, htot]
  · rw [htot]
    exact total_lt hv hm

/-- Settles O48: the descent answers a symbol whose interval holds the frequency, and intervals do not overlap. -/
theorem findCompletes : Obligations.FindCompletes := by
  intro s k o m hs hk hv ho
  have hm := hs.slot_inv hk
  obtain ⟨hle, hlow, hhigh⟩ := fenFind_inv m hv hm ho
  generalize hsym : m.fenFind (s.freqOf o) = sym at hle hlow hhigh
  have hreg : (s.setSym sym).rSym.toNat = sym := Nat.mod_eq_of_lt (by omega)
  obtain ⟨hlo, hhi, htot⟩ := setInterval_symbol (s.setSym sym) hv hm hle
  refine ⟨_, exec_mFind_eq hk hv ho hsym, find_frame s sym _ _ _, ?_⟩
  rw [State.setInterval_rSym, hreg, hlo, hhi]
  exact ⟨hle, rfl, rfl, htot, hlow, hhigh, fun j _ hj hj' => interval_unique m.counts _ ⟨hj, hj'⟩ ⟨hlow, hhigh⟩⟩

/-! ### Bump (42_model257.md R135, R141 to R143) -/

/-- Settles O49: below the threshold a bump is the count alone. -/
theorem bumpCompletes : Obligations.BumpCompletes := by
  intro s k o m hs hk hv ho hlt
  have hm := hs.slot_inv hk
  have hsym : s.symOf o < 257 := by omega
  obtain ⟨htotal, -, hfits, huniq, hfen, -⟩ := count_spec m hv hm hsym
  obtain ⟨-, -, -, -, hmuniq, -⟩ := hm hv
  have hexec := exec_mBump_eq hk hv ho
  rcases bump_cases m hv hm hsym with ⟨-, hbump⟩ | ⟨heq, -⟩
  · rw [hbump] at hexec
    refine ⟨_, hexec, hv, rfl, htotal, fun i _ => count_cntAt m hsym hfits i, ?_, hfen⟩
    rw [huniq, count_seenBytes m hsym hfits, hmuniq]
  · omega

/-- Settles O50: at the threshold a bump is the count and one rescale; halving with rounding up adds at most 1 to the
double of each of the 257 counts, so the new total is below the threshold (R143). -/
theorem bumpRescales : Obligations.BumpRescales := by
  intro s k o m hs hk hv ho hge
  have hm := hs.slot_inv hk
  have hsym : s.symOf o < 257 := by omega
  have hthr := m.thr_cases
  obtain ⟨-, hsum, hfits, -, -, hescape⟩ := count_spec m hv hm hsym
  obtain ⟨hmtotal, -⟩ := hm hv
  have hexec := exec_mBump_eq hk hv ho
  rcases bump_cases m hv hm hsym with ⟨hlt, -⟩ | ⟨heq, hbump⟩
  · omega
  · rw [hbump] at hexec
    have hinv : (m.count (s.symOf o)).rescale.Inv := by simpa only [hbump] using bump_inv m hv hm hsym
    obtain ⟨htotal, -, -, -, huniq, -, hfen⟩ := hinv hv
    have hhalf := rescale_sum (m.count (s.symOf o)) hescape
    have hcnt : ∀ i, (m.count (s.symOf o)).rescale.cntAt i =
        (m.cntAt i + (if i = s.symOf o then 1 else 0) + 1) / 2 := fun i => by
      rw [rescale_cntAt _ hescape, count_cntAt m hsym hfits, halve]
    refine ⟨_, hexec, hv, rfl, fun i _ => hcnt i, htotal, ?_, ?_, huniq, ?_, fun i _ hi => ?_, hfen⟩
    · rw [htotal]; omega
    · omega
    · rw [rescale_seenBytes _ hescape, count_seenBytes m hsym hfits]
    · rw [hcnt]; omega

/-! ### Read-back (42_model257.md R136 to R138) -/

/-- Settles O51: the total is copied whole, a count fits its register, and so does a number of bytes. -/
theorem readbackCommandsComplete : Obligations.ReadbackCommandsComplete := by
  intro s k o m hs hk hv
  have hm := hs.slot_inv hk
  obtain ⟨-, hpos, hlt, -, huniq, hcnt, -⟩ := hm hv
  refine ⟨⟨exec_mTotal_eq hk hv, hpos, hlt⟩, fun ho => ?_, ?_⟩
  · have := hcnt (s.symOf o) (by omega)
    exact ⟨_, exec_mCnt_eq hk hv ho, rfl, half_toNat (by omega)⟩
  · have hreg : (s.setCnt m.uniq.toNat).rCnt.toNat = m.uniq.toNat := half_toNat (m.uniq.isLt.trans (by decide))
    refine ⟨_, exec_mUniq_eq hk hv, rfl, hreg, hreg.trans huniq, ?_⟩
    rw [hreg, huniq]
    exact m.seenBytes_le

end Sys2Proof.Machine

/-! The three frequency views as partitions (42_model257.md R139; 43_witten_bell_exclusion.md R160, R169): the intervals
of a list of counts partition its sum. The plain view is that of all 257 counts, the exclusion view that of the open
counts, and the Witten-Bell view is the exclusion view with nothing excluded. -/

namespace Sys2Proof.Machine

/-- Below the sum of a list of counts, each number lies in the interval of exactly one entry. -/
theorem existsUnique_interval (l : List Nat) {f : Nat} (h : f < l.sum) :
    ∃! i, i < l.length ∧ prefixSum l i ≤ f ∧ f < prefixSum l i + l.getD i 0 := by
  obtain ⟨hlt, hmem⟩ := locate_spec l f h
  exact ⟨locate l f, ⟨hlt, hmem⟩, fun i hi => interval_unique l f hi.2 hmem⟩

/-- The plain view (42_model257.md R139). -/
theorem Slot.existsUnique_symbol (m : Slot) {f : Nat} (h : f < m.cumlo 257) :
    ∃! i, i ≤ 256 ∧ m.cumlo i ≤ f ∧ f < m.cumlo i + m.cntAt i := by
  have huniq := existsUnique_interval m.counts (h.trans_eq (cumlo_257 m))
  simp only [Slot.counts_length, Nat.lt_succ_iff (n := 256)] at huniq
  exact huniq

/-- The exclusion view (43_witten_bell_exclusion.md R169): an excluded byte has an empty interval, so the entry that
holds a frequency is open. -/
theorem Slot.existsUnique_open (m : Slot) (e : ExclMask) {f : Nat} (h : f < m.sumBytesEx e) :
    ∃! i, i ≤ 255 ∧ e.getLsbD i = false ∧ m.cumloEx e i ≤ f ∧ f < m.cumloEx e i + m.cntAt i := by
  have hsum : m.sumBytesEx e = (m.openCounts e).sum := prefixSum_of_length_le _ (by simp)
  refine (existsUnique_congr fun i => ?_).1 (existsUnique_interval (m.openCounts e) (h.trans_eq hsum))
  rw [Slot.openCounts_length, Slot.openCounts_getD]
  change (i < 256 ∧ m.cumloEx e i ≤ f ∧ f < m.cumloEx e i + _) ↔ _
  by_cases hopen : i < 256 ∧ e.getLsbD i = false
  · obtain ⟨hi, he⟩ := hopen
    rw [if_pos ⟨hi, he⟩]
    simp only [hi, he, Nat.le_of_lt_succ hi, true_and]
  · rw [if_neg hopen]
    constructor
    · rintro ⟨-, hle, hlt⟩
      omega
    · rintro ⟨hi, he, -⟩
      exact absurd ⟨Nat.lt_succ_of_le hi, he⟩ hopen

theorem Slot.sumBytesEx_empty (m : Slot) : m.sumBytesEx 0#256 = m.sumBytes := m.cumloEx_empty (Nat.le_refl 256)

/-- The bytes of the Witten-Bell view (43_witten_bell_exclusion.md R160). -/
theorem Slot.existsUnique_byte (m : Slot) {f : Nat} (h : f < m.sumBytes) :
    ∃! i, i ≤ 255 ∧ m.cumlo i ≤ f ∧ f < m.cumlo i + m.cntAt i := by
  refine (existsUnique_congr fun i => and_congr_right fun hi => ?_).1
    (m.existsUnique_open 0#256 (h.trans_eq m.sumBytesEx_empty.symm))
  rw [m.cumloEx_empty (hi.trans (by decide))]
  simp

theorem Slot.cumloEx_succ_byte (m : Slot) (e : ExclMask) {i : Nat} (hi : i ≤ 255) :
    m.cumloEx e (i + 1) = m.cumloEx e i + if e.getLsbD i then 0 else m.cntAt i := by
  have hbyte : i < 256 := by omega
  rw [Slot.cumloEx_succ]
  cases e.getLsbD i <;> simp [hbyte]

/-- Settles O52: each view's intervals are chained by its prefix sums, and the invariant makes the plain total the sum
of all counts. -/
theorem intervalsPartition : Obligations.IntervalsPartition := by
  intro m e hv hm
  obtain ⟨htotal, -⟩ := hm hv
  have hescape : m.cumlo 256 + m.cntAt 256 = m.total.toNat := htotal ▸ m.sumBytes_add_escape
  exact ⟨⟨m.cumlo_zero, fun i _ => m.cumlo_succ i, hescape, fun _ hf => m.existsUnique_symbol (hf.trans_eq htotal)⟩,
    ⟨rfl, sumBytes_lt_wbt m, fun _ => m.existsUnique_byte⟩,
    ⟨m.cumloEx_zero e, fun _ => m.cumloEx_succ_byte e, rfl, sumBytesEx_lt_wbtEx m e, fun _ => m.existsUnique_open e⟩⟩

end Sys2Proof.Machine

/-! The Witten-Bell view and the exclusion mask (43_witten_bell_exclusion.md R160 to R169). Both views are chains of
intervals with the escape last: a symbol's interval runs from its prefix sum to its end here, and each find answers the
one symbol whose interval holds the frequency. The plain view is the exclusion view with nothing excluded, so what is
proved of the ends of the latter serves both. -/

namespace Sys2Proof.Machine

/-! ### The ends of the intervals (43_witten_bell_exclusion.md R162, R167) -/

/-- Where a symbol's interval ends in the Witten-Bell view (43_witten_bell_exclusion.md R162). -/
def Slot.wbEnd (m : Slot) (sym : Nat) : Nat := if sym = 256 then m.wbt else m.cumlo (sym + 1)

/-- Where a symbol's interval ends in the exclusion view (43_witten_bell_exclusion.md R167). -/
def Slot.wbEndEx (m : Slot) (e : ExclMask) (sym : Nat) : Nat :=
  if sym = 256 then m.wbtEx e else m.cumloEx e (sym + 1)

@[simp] theorem Slot.wbEnd_escape (m : Slot) : m.wbEnd 256 = m.wbt := rfl

@[simp] theorem Slot.wbEndEx_escape (m : Slot) (e : ExclMask) : m.wbEndEx e 256 = m.wbtEx e := rfl

theorem Slot.wbEnd_byte (m : Slot) {i : Nat} (hi : i ≤ 255) : m.wbEnd i = m.cumlo i + m.cntAt i := by
  rw [Slot.wbEnd, if_neg (by omega), Slot.cumlo_succ]

theorem Slot.wbEndEx_byte (m : Slot) (e : ExclMask) {i : Nat} (hi : i ≤ 255) :
    m.wbEndEx e i = m.cumloEx e i + if e.getLsbD i then 0 else m.cntAt i := by
  rw [Slot.wbEndEx, if_neg (by omega), Slot.cumloEx_succ_byte m e hi]

theorem Slot.wbEndEx_open (m : Slot) {e : ExclMask} {i : Nat} (hi : i ≤ 255) (hopen : e.getLsbD i = false) :
    m.wbEndEx e i = m.cumloEx e i + m.cntAt i := by
  rw [m.wbEndEx_byte e hi, hopen]
  rfl

/-- An excluded byte's interval is empty, at the byte's place. -/
theorem Slot.wbEndEx_excluded (m : Slot) {e : ExclMask} {i : Nat} (hi : i ≤ 255) (hexcl : e.getLsbD i = true) :
    m.wbEndEx e i = m.cumloEx e i := by
  rw [m.wbEndEx_byte e hi, if_pos hexcl, Nat.add_zero]

/-- No interval ends before it begins or beyond the view's total. -/
theorem Slot.wbEndEx_bounds (m : Slot) (e : ExclMask) {i : Nat} (hi : i ≤ 256) :
    m.cumloEx e i ≤ m.wbEndEx e i ∧ m.wbEndEx e i ≤ m.wbtEx e := by
  have htotal : m.cumloEx e 256 < m.wbtEx e := sumBytesEx_lt_wbtEx m e
  unfold Slot.wbEndEx
  split
  case isTrue hescape => exact ⟨hescape ▸ htotal.le, le_rfl⟩
  case isFalse hbyte => exact ⟨m.cumloEx_mono e (by omega), (m.cumloEx_mono e (by omega)).trans htotal.le⟩

/-- Each symbol's interval ends where a later one's begins, or before. -/
theorem Slot.wbEndEx_le_cumloEx (m : Slot) (e : ExclMask) {i j : Nat} (hij : i < j) (hj : j ≤ 256) :
    m.wbEndEx e i ≤ m.cumloEx e j := by
  rw [Slot.wbEndEx, if_neg (by omega)]
  exact m.cumloEx_mono e hij

/-- The intervals of the exclusion view do not overlap (43_witten_bell_exclusion.md R169). -/
theorem Slot.wbIntervalEx_unique (m : Slot) (e : ExclMask) {f i j : Nat} (hi : i ≤ 256) (hj : j ≤ 256)
    (hfi : m.cumloEx e i ≤ f ∧ f < m.wbEndEx e i) (hfj : m.cumloEx e j ≤ f ∧ f < m.wbEndEx e j) : i = j := by
  rcases Nat.lt_trichotomy i j with hlt | heq | hgt
  · have := m.wbEndEx_le_cumloEx e hlt hj
    omega
  · exact heq
  · have := m.wbEndEx_le_cumloEx e hgt hi
    omega

/-! ### An empty mask (43_witten_bell_exclusion.md R169) -/

theorem Slot.wbtEx_empty (m : Slot) : m.wbtEx 0#256 = m.wbt := by
  rw [Slot.wbtEx, Slot.sumBytesEx_empty, Slot.seenBytesEx, Slot.openCounts_empty]
  rfl

theorem Slot.wbEndEx_empty (m : Slot) {i : Nat} (hi : i ≤ 256) : m.wbEndEx 0#256 i = m.wbEnd i := by
  unfold Slot.wbEndEx Slot.wbEnd
  split
  · exact m.wbtEx_empty
  · exact m.cumloEx_empty (by omega)

theorem Slot.wbEnd_bounds (m : Slot) {i : Nat} (hi : i ≤ 256) : m.cumlo i ≤ m.wbEnd i ∧ m.wbEnd i ≤ m.wbt := by
  rw [← m.cumloEx_empty hi, ← m.wbEndEx_empty hi, ← m.wbtEx_empty]
  exact m.wbEndEx_bounds _ hi

/-! ### Inverse lookup (43_witten_bell_exclusion.md R163, R168) -/

/-- A symbol whose interval begins at or below a frequency that is below the escape's beginning is a byte. -/
theorem byte_of_low_lt (cum : Nat → Nat) {f sym : Nat} (hle : sym ≤ 256) (hlow : cum sym ≤ f) (hf : f < cum 256) :
    sym ≤ 255 := by
  by_contra hn
  have heq : sym = 256 := by omega
  rw [heq] at hlow
  omega

/-- The symbol `M_WB_FIND` answers for a frequency below the view's total (43_witten_bell_exclusion.md R163). -/
def Slot.wbSymbol (m : Slot) (f : Nat) : Nat := if m.sumBytes ≤ f then 256 else m.fenFind f

/-- The symbol `M_WB_FIND_EX` answers for a frequency below the view's total (43_witten_bell_exclusion.md R168). -/
def Slot.wbSymbolEx (m : Slot) (e : ExclMask) (f : Nat) : Nat :=
  if m.sumBytesEx e ≤ f then 256 else locate (m.openCounts e) f

theorem Slot.wbSymbol_of_ge (m : Slot) {f : Nat} (hf : m.sumBytes ≤ f) : m.wbSymbol f = 256 := if_pos hf

theorem Slot.wbSymbol_of_lt (m : Slot) {f : Nat} (hf : f < m.sumBytes) : m.wbSymbol f = m.fenFind f :=
  if_neg (Nat.not_le.2 hf)

theorem Slot.wbSymbolEx_of_ge (m : Slot) {e : ExclMask} {f : Nat} (hf : m.sumBytesEx e ≤ f) :
    m.wbSymbolEx e f = 256 :=
  if_pos hf

theorem Slot.wbSymbolEx_of_lt (m : Slot) {e : ExclMask} {f : Nat} (hf : f < m.sumBytesEx e) :
    m.wbSymbolEx e f = locate (m.openCounts e) f := if_neg (Nat.not_le.2 hf)

/-- The interval of the symbol the descent answers holds the frequency. -/
theorem Slot.wbSymbol_spec (m : Slot) (hv : m.valid = true) (hm : m.Inv) {f : Nat} (hf : f < m.wbt) :
    m.wbSymbol f ≤ 256 ∧ m.cumlo (m.wbSymbol f) ≤ f ∧ f < m.wbEnd (m.wbSymbol f) := by
  rcases Nat.lt_or_ge f m.sumBytes with hbyte | hescape
  · obtain ⟨-, -, -, -, -, -, hfen⟩ := hm hv
    have hsum := m.sumBytes_add_escape
    obtain ⟨hle, hlow, hhigh⟩ := fenFind_spec m hfen (f := f) (by omega)
    have hlt := fenFind_byte m hfen hbyte
    rw [m.wbSymbol_of_lt hbyte]
    exact ⟨hle, hlow, hhigh.trans_eq (m.wbEnd_byte (by omega)).symm⟩
  · rw [m.wbSymbol_of_ge hescape]
    exact ⟨le_rfl, hescape, hf⟩

/-- The interval of the symbol the linear search answers holds the frequency. -/
theorem Slot.wbSymbolEx_spec (m : Slot) (e : ExclMask) {f : Nat} (hf : f < m.wbtEx e) :
    m.wbSymbolEx e f ≤ 256 ∧ m.cumloEx e (m.wbSymbolEx e f) ≤ f ∧ f < m.wbEndEx e (m.wbSymbolEx e f) := by
  rcases Nat.lt_or_ge f (m.sumBytesEx e) with hbyte | hescape
  · have hsum : m.sumBytesEx e = (m.openCounts e).sum := prefixSum_of_length_le _ (by simp)
    obtain ⟨hlt, hlow, hhigh⟩ := locate_spec (m.openCounts e) f (hbyte.trans_eq hsum)
    rw [Slot.openCounts_length] at hlt
    rw [m.wbSymbolEx_of_lt hbyte, Slot.wbEndEx, if_neg hlt.ne]
    exact ⟨hlt.le, hlow, hhigh.trans_eq (prefixSum_succ _ _).symm⟩
  · rw [m.wbSymbolEx_of_ge hescape]
    exact ⟨le_rfl, hescape, hf⟩

/-- A byte whose interval holds a frequency is not excluded and has been seen (43_witten_bell_exclusion.md R168). -/
theorem Slot.open_of_mem_wbIntervalEx (m : Slot) (e : ExclMask) {f i : Nat} (hi : i ≤ 255)
    (hf : m.cumloEx e i ≤ f ∧ f < m.wbEndEx e i) :
    e.getLsbD i = false ∧ 1 ≤ m.cntAt i ∧ m.wbEndEx e i = m.cumloEx e i + m.cntAt i := by
  cases hexcl : e.getLsbD i with
  | false =>
    rw [m.wbEndEx_open hi hexcl] at hf ⊢
    exact ⟨rfl, by omega, rfl⟩
  | true =>
    rw [m.wbEndEx_excluded hi hexcl] at hf
    omega

/-- With an empty mask both searches answer the same symbol, because its interval is the only one that holds the
frequency (43_witten_bell_exclusion.md R169). -/
theorem Slot.wbSymbolEx_empty (m : Slot) (hv : m.valid = true) (hm : m.Inv) {f : Nat} (hf : f < m.wbt) :
    m.wbSymbolEx 0#256 f = m.wbSymbol f := by
  obtain ⟨hle, hlow, hhigh⟩ := m.wbSymbol_spec hv hm hf
  obtain ⟨hleEx, hmemEx⟩ := m.wbSymbolEx_spec 0#256 (hf.trans_eq m.wbtEx_empty.symm)
  refine m.wbIntervalEx_unique 0#256 hleEx hle hmemEx ⟨?_, ?_⟩
  · rwa [m.cumloEx_empty hle]
  · rwa [m.wbEndEx_empty hle]

/-! ### What each command completes with -/

section
variable {s : State} {k : Nat} {m : Slot} (hk : s.slots[k]? = some m) (hv : m.valid = true)
include hk hv

theorem exec_mWbTotal_eq : exec (.mWbTotal k) s = .next (s.setTot m.wbt) := by
  change execMWbTotal k s = _
  rw [execMWbTotal, getSlot_ok hk hv, bind_ok, settle_ok]

theorem exec_mWbTotalEx_eq : exec (.mWbTotalEx k) s = .next (s.setTot (m.wbtEx s.excl)) := by
  change execMWbTotalEx k s = _
  rw [execMWbTotalEx, getSlot_ok hk hv, bind_ok, settle_ok]

theorem exec_exclAdd_eq : exec (.exclAdd k) s = .next (s.setExcl (m.addSeen s.excl)) := by
  change execExclAdd k s = _
  rw [execExclAdd, getSlot_ok hk hv, bind_ok, settle_ok]

theorem exec_mWbCum_eq {o : SymOperand} (ho : s.symOf o ≤ 256) :
    exec (.mWbCum k o) s = .next (s.setInterval (m.cumlo (s.symOf o)) (m.wbEnd (s.symOf o)) m.wbt) := by
  change execMWbCum k o s = _
  rw [execMWbCum, getSlot_ok hk hv, bind_ok, getSym_ok ho, bind_ok]
  by_cases hescape : s.symOf o = 256
  · rw [if_pos hescape, settle_ok, hescape, Slot.wbEnd_escape, Slot.sumBytes]
  · rw [if_neg hescape, settle_ok, m.wbEnd_byte (by omega)]

theorem exec_mWbCumEx_eq {o : SymOperand} (ho : s.symOf o ≤ 256) :
    exec (.mWbCumEx k o) s = .next
      (s.setInterval (m.cumloEx s.excl (s.symOf o)) (m.wbEndEx s.excl (s.symOf o)) (m.wbtEx s.excl)) := by
  change execMWbCumEx k o s = _
  rw [execMWbCumEx, getSlot_ok hk hv, bind_ok, getSym_ok ho, bind_ok]
  by_cases hescape : s.symOf o = 256
  · rw [if_pos hescape, settle_ok, hescape, Slot.wbEndEx_escape, Slot.sumBytesEx]
  · rw [if_neg hescape, m.wbEndEx_byte s.excl (by omega)]
    cases s.excl.getLsbD (s.symOf o) <;> rfl

theorem exec_mWbFind_eq (hm : m.Inv) {o : FreqOperand} {sym : Nat} (ho : s.freqOf o < m.wbt)
    (hsym : m.wbSymbol (s.freqOf o) = sym) :
    exec (.mWbFind k o) s = .next ((s.setSym sym).setInterval (m.cumlo sym) (m.wbEnd sym) m.wbt) := by
  obtain ⟨hle, hlow, -⟩ := m.wbSymbol_spec hv hm ho
  rw [hsym] at hle hlow
  change execMWbFind k o s = _
  rw [execMWbFind, getSlot_ok hk hv, bind_ok]
  simp only [if_neg (Nat.not_le.2 ho)]
  split
  case isTrue hescape =>
    rw [← hsym, m.wbSymbol_of_ge hescape]
    rfl
  case isFalse hbyte =>
    have hlt := Nat.not_le.1 hbyte
    rw [← m.wbSymbol_of_lt hlt, hsym, settle_ok, m.wbEnd_byte (byte_of_low_lt m.cumlo hle hlow hlt)]

theorem exec_mWbFindEx_eq {o : FreqOperand} {sym : Nat} (ho : s.freqOf o < m.wbtEx s.excl)
    (hsym : m.wbSymbolEx s.excl (s.freqOf o) = sym) :
    exec (.mWbFindEx k o) s = .next
      ((s.setSym sym).setInterval (m.cumloEx s.excl sym) (m.wbEndEx s.excl sym) (m.wbtEx s.excl)) := by
  obtain ⟨hle, hlow, hhigh⟩ := m.wbSymbolEx_spec s.excl ho
  rw [hsym] at hle hlow hhigh
  change execMWbFindEx k o s = _
  rw [execMWbFindEx, getSlot_ok hk hv, bind_ok]
  simp only [if_neg (Nat.not_le.2 ho)]
  split
  case isTrue hescape =>
    rw [← hsym, m.wbSymbolEx_of_ge hescape]
    rfl
  case isFalse hbyte =>
    have hlt := Nat.not_le.1 hbyte
    have hsymbol : sym ≤ 255 := byte_of_low_lt (m.cumloEx s.excl) hle hlow hlt
    obtain ⟨-, -, hend⟩ := m.open_of_mem_wbIntervalEx s.excl hsymbol ⟨hlow, hhigh⟩
    rw [← m.wbSymbolEx_of_lt hlt, hsym, settle_ok, hend]

end

/-! ### Totals and the mask (43_witten_bell_exclusion.md R161, R164 to R166) -/

/-- Both totals of a valid slot fit `R_TOT` (10_state.md R41 item 6). -/
theorem Slot.wbt_fits {m : Slot} (hv : m.valid = true) (hm : m.Inv) (e : ExclMask) :
    m.wbt < 2 ^ 16 ∧ m.wbtEx e < 2 ^ 16 := by
  have := wbt_le m hv hm
  have := m.wbtEx_le e
  omega

/-- Settles O53: both totals are bounded by the invariant, so the register holds them whole. -/
theorem wbTotalsComplete : Obligations.WbTotalsComplete := by
  intro s k m hs hk hv
  have hm := hs.slot_inv hk
  obtain ⟨hwbt, hwbtEx⟩ := Slot.wbt_fits hv hm s.excl
  exact ⟨wbt_le m hv hm, m.wbtEx_le s.excl, ⟨_, exec_mWbTotal_eq hk hv, rfl, half_toNat hwbt⟩,
    ⟨_, exec_mWbTotalEx_eq hk hv, rfl, half_toNat hwbtEx⟩⟩

/-- Settles O56: `EXCL_CLR` makes no check, and the mask's fold over the byte counts sets a bit per byte seen. -/
theorem exclusionCommandsComplete : Obligations.ExclusionCommandsComplete :=
  fun s => ⟨rfl, fun _ m hk hv => ⟨m.addSeen s.excl, exec_exclAdd_eq hk hv, fun _ => addSeen_getLsbD m s.excl⟩⟩

/-! ### Intervals and inverse lookup (43_witten_bell_exclusion.md R162, R163, R167, R168) -/

/-- What `R_LO`, `R_HI` and `R_TOT` hold once an ordered interval that fits them is written. -/
theorem setInterval_toNat (s : State) {lo hi tot : Nat} (hord : lo ≤ hi ∧ hi ≤ tot) (hfits : tot < 2 ^ 16) :
    (s.setInterval lo hi tot).rLo.toNat = lo ∧ (s.setInterval lo hi tot).rHi.toNat = hi ∧
      (s.setInterval lo hi tot).rTot.toNat = tot :=
  ⟨half_toNat (by omega), half_toNat (by omega), half_toNat hfits⟩

/-- Settles O54: the escape's end is `wbt`, and a byte's is the end of its plain interval. -/
theorem wbCumCompletes : Obligations.WbCumCompletes := by
  intro s k o m hs hk hv ho
  obtain ⟨hwbt, -⟩ := Slot.wbt_fits hv (hs.slot_inv hk) s.excl
  obtain ⟨hlo, hhi, htot⟩ := setInterval_toNat s (m.wbEnd_bounds ho) hwbt
  refine ⟨_, exec_mWbCum_eq hk hv ho, rfl, htot, fun hescape => ?_, fun hbyte => ⟨hlo, ?_⟩⟩
  · rw [hlo, hhi, hescape]
    exact ⟨rfl, rfl⟩
  · rw [hhi, m.wbEnd_byte (by omega)]

/-- Settles O57: an excluded byte's interval ends where it begins. -/
theorem wbCumExCompletes : Obligations.WbCumExCompletes := by
  intro s k o m hs hk hv ho
  obtain ⟨-, hwbtEx⟩ := Slot.wbt_fits hv (hs.slot_inv hk) s.excl
  obtain ⟨hlo, hhi, htot⟩ := setInterval_toNat s (m.wbEndEx_bounds s.excl ho) hwbtEx
  refine ⟨_, exec_mWbCumEx_eq hk hv ho, rfl, htot, fun hescape => ?_, fun hbyte hexcl => ⟨hlo, ?_⟩,
    fun hbyte hopen => ⟨hlo, ?_⟩⟩
  · rw [hlo, hhi, hescape]
    exact ⟨rfl, rfl⟩
  · rw [hhi, m.wbEndEx_excluded (by omega) hexcl]
  · rw [hhi, m.wbEndEx_open (by omega) hopen]

/-- Settles O55: the symbol the descent answers is the escape exactly from `S` on. -/
theorem wbFindCompletes : Obligations.WbFindCompletes := by
  intro s k o m hs hk hv ho
  have hm := hs.slot_inv hk
  obtain ⟨hwbt, -⟩ := Slot.wbt_fits hv hm s.excl
  obtain ⟨hle, hlow, hhigh⟩ := m.wbSymbol_spec hv hm ho
  generalize hsym : m.wbSymbol (s.freqOf o) = sym at hle hlow hhigh
  have hreg : (s.setSym sym).rSym.toNat = sym := Nat.mod_eq_of_lt (by omega)
  obtain ⟨hlo, hhi, htot⟩ := setInterval_toNat (s.setSym sym) (m.wbEnd_bounds hle) hwbt
  refine ⟨_, exec_mWbFind_eq hk hv hm ho hsym, find_frame s sym _ _ _, htot, ?_⟩
  rw [State.setInterval_rSym, hreg, hlo, hhi]
  refine ⟨hlow, hhigh, fun hescape => ?_, fun hbyte => ?_⟩
  · have heq : sym = 256 := hsym.symm.trans (m.wbSymbol_of_ge hescape)
    subst heq
    exact ⟨rfl, rfl, rfl⟩
  · have hsymbol : sym ≤ 255 := byte_of_low_lt m.cumlo hle hlow hbyte
    exact ⟨hsymbol, rfl, m.wbEnd_byte hsymbol⟩

/-- Settles O58: the search answers a symbol whose interval holds the frequency; below `S_ex` that is a byte with a
non-empty interval, and intervals do not overlap. -/
theorem wbFindExCompletes : Obligations.WbFindExCompletes := by
  intro s k o m hs hk hv ho
  obtain ⟨-, hwbtEx⟩ := Slot.wbt_fits hv (hs.slot_inv hk) s.excl
  obtain ⟨hle, hlow, hhigh⟩ := m.wbSymbolEx_spec s.excl ho
  generalize hsym : m.wbSymbolEx s.excl (s.freqOf o) = sym at hle hlow hhigh
  have hreg : (s.setSym sym).rSym.toNat = sym := Nat.mod_eq_of_lt (by omega)
  obtain ⟨hlo, hhi, htot⟩ := setInterval_toNat (s.setSym sym) (m.wbEndEx_bounds s.excl hle) hwbtEx
  refine ⟨_, exec_mWbFindEx_eq hk hv ho hsym, find_frame s sym _ _ _, htot, ?_⟩
  rw [State.setInterval_rSym, hreg, hlo, hhi]
  refine ⟨hlow, hhigh, fun hescape => ?_, fun hbyte => ?_⟩
  · have heq : sym = 256 := hsym.symm.trans (m.wbSymbolEx_of_ge hescape)
    subst heq
    exact ⟨rfl, rfl, rfl⟩
  · have hsymbol : sym ≤ 255 := byte_of_low_lt (m.cumloEx s.excl) hle hlow hbyte
    obtain ⟨hopen, hseen, hend⟩ := m.open_of_mem_wbIntervalEx s.excl hsymbol ⟨hlow, hhigh⟩
    refine ⟨hsymbol, hopen, hseen, rfl, hend, fun j hj hjopen hjlow hjhigh => ?_⟩
    have hjmem : s.freqOf o < m.wbEndEx s.excl j := hjhigh.trans_eq (m.wbEndEx_open hj hjopen).symm
    exact m.wbIntervalEx_unique s.excl (by omega) hle ⟨hjlow, hjmem⟩ ⟨hlow, hhigh⟩

/-- Settles O59: with an empty mask the totals and the ends of the intervals are those of the plain view, so both
searches answer the same symbol. -/
theorem emptyMaskGivesTheWbView : Obligations.EmptyMaskGivesTheWbView := by
  intro s k m hs hempty hk hv
  have hm := hs.slot_inv hk
  refine ⟨?_, fun o ho => ?_, fun o ho => ?_⟩
  · rw [exec_mWbTotalEx_eq hk hv, exec_mWbTotal_eq hk hv, hempty, m.wbtEx_empty]
  · rw [exec_mWbCumEx_eq hk hv ho, exec_mWbCum_eq hk hv ho, hempty, m.cumloEx_empty ho, m.wbEndEx_empty ho,
      m.wbtEx_empty]
  · obtain ⟨hle, -⟩ := m.wbSymbol_spec hv hm ho
    have hsym : m.wbSymbolEx s.excl (s.freqOf o) = m.wbSymbol (s.freqOf o) := by
      rw [hempty, m.wbSymbolEx_empty hv hm ho]
    have hoEx : s.freqOf o < m.wbtEx s.excl := by rwa [hempty, m.wbtEx_empty]
    rw [exec_mWbFindEx_eq hk hv hoEx hsym, exec_mWbFind_eq hk hv hm ho rfl, hempty, m.cumloEx_empty hle,
      m.wbEndEx_empty hle, m.wbtEx_empty]

end Sys2Proof.Machine

/-! The control commands (44_control.md R180, R181): neither makes a check, so both complete in every state, faulted or
not. -/

namespace Sys2Proof.Machine

/-- `NOP` reads and writes no state (44_control.md R180). -/
theorem exec_nop_eq (s : State) : exec .nop s = .next s := rfl

/-- `FLT_CLR` is the return from a fault, and is legal with `FAULT = 0` too (44_control.md R181). -/
theorem exec_fltClr_eq (s : State) : exec .fltClr s = .next s.clearFault := rfl

/-- Settles O30: the return from a fault writes the four fault fields of R181 and leaves every other field. -/
theorem controlCommandsComplete : Obligations.ControlCommandsComplete :=
  fun s => ⟨exec_nop_eq s, exec_fltClr_eq s⟩

end Sys2Proof.Machine

/-! The fault state of the block (60_exceptions.md R201 to R209): what a word does that is taken while `FAULT = 1`, what
a command that faults leaves, and when each command faults. A check that fails ends the whole command in the fault entry
on the state before it, so each clause of R204 is one failing check after checks that pass. The decode protocols (R211)
come last: there every check passes. -/

namespace Sys2Proof.Machine

/-! ### Holding and discarding (60_exceptions.md R203, R209) -/

/-- Settles O10: the two cases of `step` that answer the state itself. -/
theorem blockHoldsItsState : Obligations.BlockHoldsItsState :=
  fun _ => ⟨step_empty, fun _ _ => step_wait⟩

/-- A word taken while not busy that changes nothing leaves the port only. -/
theorem release_accept {s : State} (hbusy : s.busy = false) (rest : List HostAction) :
    (s.accept rest).release = { s with port := rest } := by
  simp only [State.accept, State.release, hbusy]

/-- A faulted block discards every word but two (60_exceptions.md R203). -/
theorem step_discard {s : State} {w : CmdWord} {rest : List HostAction} (hport : s.port = .issue w :: rest)
    (hbusy : s.busy = false) (hfault : s.fault = true) (hw : acceptedInFault w = false) :
    step s = .next { s with port := rest } := by
  rw [step_issue hport hbusy]
  rcases runCommand_cases w (s.accept rest) with ⟨-, -, hrun⟩ | ⟨hrunning | haccepted, -⟩
  · rw [hrun, release_accept hbusy]
  · cases hfault.symm.trans hrunning
  · cases hw.symm.trans haccepted

/-- Settles O9: of the two words that a faulted block executes, `NOP` changes nothing either. -/
theorem faultedBlockDiscards : Obligations.FaultedBlockDiscards := by
  intro s w rest hport hbusy hfault
  cases hw : acceptedInFault w with
  | false =>
    refine ⟨fun _ => step_discard hport hbusy hfault hw, ?_⟩
    rintro rfl
    cases hw
  | true =>
    have haccepted := (acceptedInFault_iff w).1 hw
    rcases decode_acceptedInFault hw with ⟨rfl, hd⟩ | ⟨rfl, hd⟩
    · obtain ⟨t, ht, hstep⟩ := stepRunsTheIssuedCommand s _ rest .nop hport hbusy (.inr haccepted) hd
      cases (exec_nop_eq _).symm.trans ht
      refine ⟨fun _ => ?_, fun h => absurd h (by decide)⟩
      rw [hstep, hbusy]
    · obtain ⟨t, ht, hstep⟩ := stepRunsTheIssuedCommand s _ rest .fltClr hport hbusy (.inr haccepted) hd
      cases (exec_fltClr_eq _).symm.trans ht
      refine ⟨fun h => absurd rfl h, fun _ => ?_⟩
      rw [hstep, State.clearFault, hbusy]

/-! ### Fault entry and the end of a fault (60_exceptions.md R201, R202, R205) -/

/-- A command that completes leaves the fault record alone, unless it is `FLT_CLR`. -/
theorem effect_record {i : Instr} {s t : State} (h : Effect i s t) (hi : i ≠ .fltClr) :
    t.cause = s.cause ∧ t.fopc = s.fopc ∧ t.fcmd = s.fcmd := by
  cases i with
  | fltClr => exact absurd rfl hi
  | rcEnc | rcEncFinish => rw [h.1]; exact ⟨rfl, rfl, rfl⟩
  | mInitEsc | mInitUni | mBump => obtain ⟨m, ht⟩ := h; rw [ht]; exact ⟨rfl, rfl, rfl⟩
  | _ => rw [h]; exact ⟨rfl, rfl, rfl⟩

/-- Settles O11: a rejected word enters the fault itself, and a decoded command either faults with a cause of its row or
writes the fields listed for it. The word recorded is the word issued, because a legal word is the encoding of its
command. -/
theorem faultsArePreciseAndListed : Obligations.FaultsArePreciseAndListed := by
  intro s w rest hport hbusy hfault
  cases hd : decode w with
  | error e => exact .inl ⟨.illegal, step_illegal hport hbusy hfault hd, .inl ⟨rfl, e, rfl⟩⟩
  | ok i =>
    obtain ⟨t, ht, hstep⟩ := stepRunsTheIssuedCommand s w rest i hport hbusy (.inl hfault) hd
    change exec i (s.accept rest) = .next t at ht
    obtain ⟨-, hword⟩ := legalWordIsItsEncoding w i hd
    rcases exec_effect ht with ⟨c, hc, rfl⟩ | heffect
    · refine .inl ⟨c, ?_, .inr ⟨i, rfl, hc⟩⟩
      rw [hstep, hword, State.enterFault, hbusy]
      rfl
    · have hclean : t.fault = false := effect_fault heffect hfault
      have hrecord := effect_record heffect
      exact .inr ⟨i, _, rfl, hstep, hclean, hrecord⟩

/-- Settles O12, by the action at the head of the port: of the host's actions a reset alone writes the fault fields, and
of the words `FLT_CLR` alone. -/
theorem onlyFltClrOrResetEndsAFault : Obligations.OnlyFltClrOrResetEndsAFault := by
  intro s t hfault e
  cases hp : s.port with
  | nil =>
    cases (step_empty hp).symm.trans e
    exact .inl ⟨hfault, rfl, rfl, rfl⟩
  | cons a rest =>
    cases a with
    | issue w =>
      cases hbusy : s.busy with
      | true =>
        cases (step_wait hp hbusy).symm.trans e
        exact .inl ⟨hfault, rfl, rfl, rfl⟩
      | false =>
        obtain ⟨hdiscard, hclear⟩ := faultedBlockDiscards s w rest hp hbusy hfault
        by_cases hw : w = 0x0100000000000000#64
        · cases (hclear hw).symm.trans e
          exact .inr (.inl ⟨rest, by rw [hw], by rw [hbusy]⟩)
        · cases (hdiscard hw).symm.trans e
          exact .inl ⟨hfault, rfl, rfl, rfl⟩
    | read n =>
      cases (step_read hp).symm.trans e
      exact .inl ⟨hfault, rfl, rfl, rfl⟩
    | attach bytes =>
      rcases hostAttach_cases bytes { s with port := rest } with ⟨r, hr⟩ | ⟨-, hr⟩ <;>
        cases hr.symm.trans ((step_attach hp).symm.trans e)
      exact .inl ⟨hfault, rfl, rfl, rfl⟩
    | drain n =>
      cases (step_drain hp).symm.trans e
      exact .inl ⟨hfault, rfl, rfl, rfl⟩
    | reset =>
      cases (step_reset hp).symm.trans e
      exact .inr (.inr ⟨rest, rfl, rfl, rfl, rfl, rfl⟩)

/-! ### A check that fails (60_exceptions.md R204) -/

/-- The first check of a command that fails is the command's fault, whatever would come after it. -/
theorem settle_failed {α : Type} {s : State} {i : Instr} {x : Except Cause α} {f : α → Except Cause State} {c : Cause}
    (h : x = .error c) : s.settle i (x >>= f) = .next (s.enterFault c (encode i)) := by
  rw [h, bind_error, settle_error]

/-- A check that passes leaves the outcome to the rest of the command. -/
theorem settle_passed {α : Type} {s : State} {i : Instr} {x : Except Cause α} {f : α → Except Cause State} {a : α}
    (h : x = .ok a) : s.settle i (x >>= f) = s.settle i (f a) := by
  rw [h, bind_ok]

/-- A condition that a command rejects is its fault. -/
theorem settle_rejected {p : Prop} [Decidable p] {s : State} {i : Instr} {x : Except Cause State} {c : Cause} (h : p) :
    s.settle i (if p then .error c else x) = .next (s.enterFault c (encode i)) := by
  rw [if_pos h, settle_error]

/-! ### The coder commands (41_range_coder.md R111, R112, R114, R115) -/

theorem needMode_error {s : State} {m : Mode} (h : s.mode ≠ m) : s.needMode m = .error .badMode := if_neg h

theorem exec_rcGetfreq_badOperand {s : State} {o : TotOperand} (hmode : s.mode = .dec) (htot : s.totOf o = 0) :
    exec (.rcGetfreq o) s = .next (s.enterFault .badOperand (encode (.rcGetfreq o))) :=
  (settle_passed (needMode_ok hmode)).trans (settle_rejected htot)

section
variable {s : State} {iv : IvOperand} {lo hi tot : Nat} (hiv : s.interval iv = (lo, hi, tot))
include hiv

/-- `RC_ENC` passes on the fault of `Narrow`. -/
theorem exec_rcEnc_of_narrow_error (hmode : s.mode = .enc) {c : Cause} (hnarrow : s.narrow lo hi tot = .error c) :
    exec (.rcEnc iv) s = .next (s.enterFault c (encode (.rcEnc iv))) := by
  change execRcEnc iv s = _
  rw [execRcEnc, settle_passed (needMode_ok hmode), hiv]
  exact settle_failed hnarrow

/-- `RC_DEC` passes on the fault of `Narrow`. -/
theorem exec_rcDec_of_narrow_error (hmode : s.mode = .dec) {c : Cause} (hnarrow : s.narrow lo hi tot = .error c) :
    exec (.rcDec iv) s = .next (s.enterFault c (encode (.rcDec iv))) := by
  change execRcDec iv s = _
  rw [execRcDec, settle_passed (needMode_ok hmode), hiv]
  exact settle_failed hnarrow

/-- `RC_DEC` faults when `CODE` is outside the interval that `Narrow` answers. -/
theorem exec_rcDec_desync (hmode : s.mode = .dec) {nl nh : Nat} (hnarrow : s.narrow lo hi tot = .ok (nl, nh))
    (hout : s.code.toNat < nl ∨ nh < s.code.toNat) :
    exec (.rcDec iv) s = .next (s.enterFault .desync (encode (.rcDec iv))) := by
  change execRcDec iv s = _
  rw [execRcDec, settle_passed (needMode_ok hmode), hiv]
  exact (settle_passed hnarrow).trans (settle_rejected hout)

end

/-- Settles O13, a clause for each check: the mode's, the total's, the two of `Narrow`, and that of `CODE`. -/
theorem coderFaultPriority : Obligations.CoderFaultPriority := by
  intro s iv o lo hi tot hiv
  refine ⟨fun hmode => ?_, fun hmode => ?_, exec_rcGetfreq_badOperand, fun hbad => ?_,
    fun htot hlt hle hempty => ?_, fun htot hlt hle hne hmode hout => ?_⟩
  · exact ⟨settle_failed (needMode_error hmode), settle_failed (needMode_error hmode)⟩
  · exact ⟨settle_failed (needMode_error hmode), settle_failed (needMode_error hmode)⟩
  · have hnarrow : s.narrow lo hi tot = .error .badOperand := narrow_badOperand (by unfold GoodOperands; omega)
    exact ⟨fun hmode => exec_rcEnc_of_narrow_error hiv hmode hnarrow,
      fun hmode => exec_rcDec_of_narrow_error hiv hmode hnarrow⟩
  · have hnarrow := narrow_emptyInterval (s := s) ⟨htot, hlt, hle⟩ hempty
    exact ⟨fun hmode => exec_rcEnc_of_narrow_error hiv hmode hnarrow,
      fun hmode => exec_rcDec_of_narrow_error hiv hmode hnarrow⟩
  · have hpos : 0 < s.low.toNat + s.range * hi / tot := Nat.add_pos_right _ (Nat.zero_lt_of_lt hne)
    exact exec_rcDec_desync hiv hmode (narrow_nonempty ⟨htot, hlt, hle⟩ hne)
      (hout.imp_right (Nat.sub_one_lt_of_le hpos))

/-! ### The model commands (42_model257.md R132) -/

theorem getSlot_badSlot {s : State} {k : Nat} (h : s.slots.length ≤ k) (v : Bool) :
    s.getSlot k v = .error .badSlot := by
  rw [State.getSlot, List.getElem?_eq_none h]

theorem getSlot_slotInvalid {s : State} {k : Nat} {m : Slot} (h : s.slots[k]? = some m) (hv : m.valid = false) :
    s.getSlot k true = .error .slotInvalid := by
  rw [State.getSlot, h]
  exact if_pos (by rw [hv]; rfl)

theorem getSym_badSym {s : State} {o : SymOperand} (h : 256 < s.symOf o) : s.getSym o = .error .badSym := if_pos h

/-- A model command checks its slot first; it needs a valid one if `SLOT_INVALID` is in its row. -/
theorem exec_checks_slot {i : Instr} {k : Nat} (hk : i.slotOperand = some k) (s : State) :
    ∃ v f, exec i s = s.settle i (s.getSlot k v >>= f) ∧ (.slotInvalid ∈ i.causes → v = true) := by
  cases i with
  | nop | fltClr | rcEncInit | rcEnc | rcEncFinish | rcDecInit | rcGetfreq | rcDec | exclClr => cases hk
  | mInitEsc | mInitUni =>
    cases hk
    exact ⟨false, _, rfl, by simp [Instr.causes]⟩
  | _ =>
    cases hk
    exact ⟨true, _, rfl, fun _ => rfl⟩

/-- A model command with a symbol checks it next after its slot. -/
theorem exec_checks_symbol {i : Instr} {k : Nat} {o : SymOperand} (hk : i.slotOperand = some k)
    (ho : i.symOperand = some o) (s : State) :
    ∃ f : Slot → Nat → Except Cause State,
      exec i s = s.settle i (s.getSlot k true >>= fun m => s.getSym o >>= f m) := by
  cases i with
  | mCum | mBump | mCnt | mWbCum | mWbCumEx =>
    cases hk
    cases ho
    exact ⟨_, rfl⟩
  | _ => cases ho

/-- Settles O14: the slot's check comes first, and on a valid slot the symbol's or the frequency's. -/
theorem modelFaultPriority : Obligations.ModelFaultPriority := by
  intro s i k hslot
  obtain ⟨v, f, hexec, hneed⟩ := exec_checks_slot hslot s
  refine ⟨fun hlen => ?_, fun m hk => ⟨fun hinvalid hcause => ?_, fun hv => ⟨fun o ho hsym => ?_, ?_, ?_, ?_⟩⟩⟩
  · rw [hexec]
    exact settle_failed (getSlot_badSlot hlen v)
  · rw [hexec, hneed hcause]
    exact settle_failed (getSlot_slotInvalid hk hinvalid)
  · obtain ⟨g, hexec⟩ := exec_checks_symbol hslot ho s
    rw [hexec, settle_passed (getSlot_ok hk hv true)]
    exact settle_failed (getSym_badSym hsym)
  all_goals
    rintro o rfl hfreq
    exact (settle_passed (getSlot_ok hk hv true)).trans (settle_rejected hfreq)

/-! ### The decode protocols (60_exceptions.md R211, 41_range_coder.md R117, 43_witten_bell_exclusion.md R170) -/

/-- The inverse lookup of a view with total `tot`: it answers a symbol whose interval, inside the total, holds `R_F`. It
needs the slots and the mask of `s` and nothing else of the state. -/
def FindsIn (find : Instr) (s : State) (tot : Nat) : Prop :=
  ∀ u : State, u.slots = s.slots → u.excl = s.excl → u.rF.toNat < tot →
    ∃ sym lo hi, exec find u = .next ((u.setSym sym).setInterval lo hi tot) ∧ sym ≤ 256 ∧ lo ≤ u.rF.toNat ∧
      u.rF.toNat < hi ∧ hi ≤ tot

theorem mFind_findsIn {s : State} {k : Nat} {m : Slot} (hk : s.slots[k]? = some m) (hv : m.valid = true) (hm : m.Inv) :
    FindsIn (.mFind k .reg) s m.total.toNat := by
  intro u hslots _ hf
  rw [← hslots] at hk
  obtain ⟨hle, hlow, hhigh⟩ := fenFind_inv m hv hm hf
  exact ⟨_, _, _, exec_mFind_eq hk hv hf rfl, hle, hlow, hhigh, interval_le_total hv hm hle⟩

theorem mWbFind_findsIn {s : State} {k : Nat} {m : Slot} (hk : s.slots[k]? = some m) (hv : m.valid = true)
    (hm : m.Inv) : FindsIn (.mWbFind k .reg) s m.wbt := by
  intro u hslots _ hf
  rw [← hslots] at hk
  obtain ⟨hle, hlow, hhigh⟩ := m.wbSymbol_spec hv hm hf
  exact ⟨_, _, _, exec_mWbFind_eq hk hv hm hf rfl, hle, hlow, hhigh, (m.wbEnd_bounds hle).2⟩

theorem mWbFindEx_findsIn {s : State} {k : Nat} {m : Slot} (hk : s.slots[k]? = some m) (hv : m.valid = true) :
    FindsIn (.mWbFindEx k .reg) s (m.wbtEx s.excl) := by
  intro u hslots hexcl hf
  rw [← hslots] at hk
  rw [← hexcl] at hf ⊢
  obtain ⟨hle, hlow, hhigh⟩ := m.wbSymbolEx_spec u.excl hf
  exact ⟨_, _, _, exec_mWbFindEx_eq hk hv hf rfl, hle, hlow, hhigh, (m.wbEndEx_bounds u.excl hle).2⟩

/-- A decode after a lookup completes: the interval in the result registers holds the scaled frequency of `CODE`. -/
theorem exec_rcDec_of_lookup {s : State} {sym lo hi tot : Nat} (hmode : s.mode = .dec)
    (hlow : s.low.toNat ≤ s.code.toNat) (hle : lo ≤ scaledFreq s.range (s.code.toNat - s.low.toNat) tot)
    (hlt : scaledFreq s.range (s.code.toNat - s.low.toNat) tot < hi) (hhi : hi ≤ tot) (hfits : tot < 2 ^ 16) :
    ∃ v, exec (.rcDec .regs) ((s.setSym sym).setInterval lo hi tot) = .next v ∧ v.fault = s.fault ∧ v.mode = s.mode ∧
      v.slots = s.slots ∧ v.excl = s.excl ∧ v.rSym = (s.setSym sym).rSym := by
  obtain ⟨hrlo, hrhi, hrtot⟩ := setInterval_toNat (s.setSym sym) (lo := lo) (hi := hi) ⟨by omega, hhi⟩ hfits
  have hiv : ((s.setSym sym).setInterval lo hi tot).interval .regs = (lo, hi, tot) := by
    rw [State.interval, hrlo, hrhi, hrtot]
  obtain ⟨nl, nh, hnarrow, hcode, hcode'⟩ := narrow_of_scaledFreq (s := (s.setSym sym).setInterval lo hi tot)
    ⟨by omega, by omega, hhi⟩ hlow hle hlt
  refine ⟨_, exec_rcDec_of_narrow hmode hiv hnarrow hcode hcode', ?_⟩
  rw [renorm_dec_frame]
  exact ⟨rfl, rfl, rfl, rfl, rfl⟩

/-- The protocol of a view: the total, the scaled frequency below it, the symbol whose interval holds that frequency,
and a decode of that interval, which cannot miss `CODE` (41_range_coder.md R117). -/
theorem runClean_protocol {s : State} {total find : Instr} {tot : Nat} (hfault : s.fault = false)
    (hmode : s.mode = .dec) (hlow : s.low.toNat ≤ s.code.toNat) (hhigh : s.code.toNat ≤ s.high.toNat)
    (htotal : exec total s = .next (s.setTot tot)) (hpos : tot ≠ 0) (hfits : tot < 2 ^ 16)
    (hfind : FindsIn find s tot) :
    ∃ t, runClean [total, .rcGetfreq .reg, find, .rcDec .regs] s = some t ∧ t.mode = .dec ∧ t.slots = s.slots ∧
      t.excl = s.excl ∧ t.rSym.toNat ≤ 256 := by
  have htot : (s.setTot tot).totOf .reg = tot := half_toNat hfits
  have hgetfreq := exec_rcGetfreq_eq (s := s.setTot tot) (o := .reg) hmode (by rwa [htot])
  obtain ⟨hrF, hlt⟩ := setFreq_scaledFreq (s := s.setTot tot) hlow hhigh hpos hfits
  rw [htot] at hgetfreq
  generalize hf : scaledFreq (s.setTot tot).range _ tot = f at hgetfreq hrF hlt
  obtain ⟨sym, lo, hi, hlookup, hsym, hle, hlt', hhi⟩ := hfind ((s.setTot tot).setFreq f) rfl rfl (hrF.trans_lt hlt)
  rw [hrF, ← hf] at hle hlt'
  obtain ⟨v, hdec, hvfault, hvmode, hvslots, hvexcl, hvsym⟩ :=
    exec_rcDec_of_lookup (s := (s.setTot tot).setFreq f) (sym := sym) hmode hlow hle hlt' hhi hfits
  refine ⟨v, ?_, hvmode.trans hmode, hvslots, hvexcl, by rw [hvsym]; exact setSym_toNat hsym⟩
  rw [runClean_cons htotal hfault, runClean_cons hgetfreq hfault, runClean_cons hlookup hfault,
    runClean_cons hdec (hvfault.trans hfault), runClean_nil]

/-- Settles O44: each view's total is positive and fits its register, and its lookup finds a symbol below it. -/
theorem decodingNeverFaultsOnData : Obligations.DecodingNeverFaultsOnData := by
  intro s k m hs hfault hmode hk hv protocol hprotocol
  have hm := hs.slot_inv hk
  obtain ⟨-, hpos, -⟩ := hm hv
  have htotal := total_lt hv hm
  obtain ⟨hwbt, hwbtEx⟩ := Slot.wbt_fits hv hm s.excl
  obtain ⟨-, -, -, ⟨-, hcode⟩, -⟩ := hs
  obtain ⟨hlow, hhigh⟩ := hcode hmode
  simp only [List.mem_cons, List.not_mem_nil, or_false] at hprotocol
  rcases hprotocol with rfl | rfl | rfl
  · have hexec : exec (.mTotal k) s = .next (s.setTot m.total.toNat) := by
      rw [exec_mTotal_eq hk hv, State.setTot, BitVec.ofNat_toNat, BitVec.setWidth_eq]
    exact runClean_protocol hfault hmode hlow hhigh hexec (by omega) (by omega) (mFind_findsIn hk hv hm)
  · exact runClean_protocol hfault hmode hlow hhigh (exec_mWbTotal_eq hk hv) (by unfold Slot.wbt; omega) hwbt
      (mWbFind_findsIn hk hv hm)
  · exact runClean_protocol hfault hmode hlow hhigh (exec_mWbTotalEx_eq hk hv) (by unfold Slot.wbtEx; omega) hwbtEx
      (mWbFindEx_findsIn hk hv)

end Sys2Proof.Machine

/-! The host's side of a busy block (70_reset_and_hazards.md R220, R234): what a register read delivers while `BUSY = 1`,
and what a reset leaves whatever the block was doing. -/

namespace Sys2Proof.Machine

/-! ### The read port while busy (70_reset_and_hazards.md R234) -/

/-- Register 0 is outside the free value of log 4: it is delivered busy or not. -/
theorem readPort_zero (s : State) : s.readPort 0x00#8 = s.status := if_neg (fun h => h.2 rfl)

theorem status_busy {s : State} (hbusy : s.busy = true) : s.status.getLsbD 0 = true := by
  obtain ⟨hbit, -⟩ := statusFields s
  exact hbit.trans hbusy

/-- Settles O17: taking the action off the port changes neither STATUS nor `BUSY`, and of the value delivered only
register 0 needs anything. -/
theorem busyReadDeliversStatusOnly : Obligations.BusyReadDeliversStatusOnly := by
  intro s n rest hbusy hport
  refine ⟨({ s with port := rest } : State).readPort n, step_read hport, ?_⟩
  rintro rfl
  have hstatus : ({ s with port := rest } : State).readPort 0x00#8 = s.status := readPort_zero { s with port := rest }
  rw [hstatus]
  exact ⟨rfl, status_busy hbusy⟩

/-! ### The reset action (70_reset_and_hazards.md R220) -/

theorem resetWith_result (n : Nat) (r : ResultReg) : (State.resetWith n).result r = 0 := by cases r <;> rfl

/-- Reset reads of the state its number of slots alone, and keeps beside it what is the host's. -/
theorem step_reset_eq {s : State} {rest : List HostAction} (hport : s.port = .reset :: rest) :
    step s = .next { State.resetWith s.numSlots with port := rest, replies := s.replies } := step_reset hport

/-- Settles O19: the next state is `State.resetWith` but for the host's two fields, and it is made with as many slots as
there were. -/
theorem resetAction : Obligations.ResetAction := by
  intro s rest hport
  have hslots : (State.resetWith s.numSlots).slots.length = s.slots.length := resetWith_numSlots s.numSlots
  exact ⟨_, step_reset_eq hport, rfl, rfl, hslots, fun _ => resetWith_slots_invalid, rfl, rfl, rfl, rfl,
    resetWith_result s.numSlots, rfl, rfl, rfl, rfl, rfl, rfl, rfl, rfl, rfl, rfl, rfl, rfl⟩

end Sys2Proof.Machine
